-- ==== Sys2Proof/Word.lean ====
section
/-! DEFINITION. The widths of the machine (spec/00_scope.md R5): bytes, logical and physical addresses. -/

namespace Sys2Proof

/-- A byte: A, X, Y, SP, an MPR, a memory cell (R5). -/
abbrev Byte := BitVec 8

/-- A 16-bit logical address or quantity (R5, spec/20_memory.md R54). -/
abbrev Word := BitVec 16

/-- A 21-bit physical address (R5, spec/20_memory.md R54). -/
abbrev PhysAddr := BitVec 21

/-- An offset inside an 8 KiB bank: bits 12 to 0 of a physical address (spec/20_memory.md R57). -/
abbrev BankOffset := BitVec 13

end Sys2Proof
end

