-- ==== Sys2Proof/Machine/Bits.lean ====
section
/-! DEFINITION. Byte order and bit fields: the two bytes of a word, sign extension, and the fields of a physical
address. -/

namespace Sys2Proof.Machine

/-- `{hi, lo}`: the 16-bit value whose high byte is `hi` (spec/00_scope.md R6; spec/30_encoding.md R92). -/
def wordOf (hi lo : Byte) : Word := hi ++ lo

/-- The low byte of a 16-bit value (`r & 0xFF`, spec/43_subroutine.md R165). -/
def loByte (w : Word) : Byte := w.extractLsb' 0 8

/-- The high byte of a 16-bit value (`r >> 8`, spec/43_subroutine.md R165). -/
def hiByte (w : Word) : Byte := w.extractLsb' 8 8

/-- `sext_8` to 16 bits (spec/00_scope.md R6). -/
def signExtend16 (d : Byte) : Word := d.signExtend 16

/-- Zero extension to 16 bits (spec/00_scope.md R6). -/
def zeroExtend16 (b : Byte) : Word := b.setWidth 16

/-- `pa[20:13]`, the bank of a physical address (spec/20_memory.md R57). -/
def bankOf (pa : PhysAddr) : Byte := pa.extractLsb' 13 8

/-- `pa[12:0]`, the offset inside the bank (spec/20_memory.md R57). -/
def offsetOf (pa : PhysAddr) : BankOffset := pa.extractLsb' 0 13

/-- `la >> 13`, the logical window of a logical address (spec/20_memory.md R56). -/
def windowOf (la : Word) : BitVec 3 := la.extractLsb' 13 3

/-- `la & 0x1FFF`, the offset inside the window (spec/20_memory.md R56). -/
def windowOffset (la : Word) : BankOffset := la.extractLsb' 0 13

end Sys2Proof.Machine
end

