-- ==== Sys2Proof/Config.lean ====
section
/-! DEFINITION. The constants and parameters of spec/00_scope.md R5, and the free values of EXT_DEVICE. -/

namespace Sys2Proof

/-- RET_PUSH_ORDER: which byte of a return address is pushed first (spec/43_subroutine.md R165). -/
inductive PushOrder where
  | lowFirst
  | highFirst
  deriving DecidableEq, Repr

/-- IRQ_EXTENSION: whether interrupts are delivered (spec/60_exceptions.md R245). -/
inductive IrqExtension where
  | none
  | vectored
  deriving DecidableEq, Repr

/-- OPCODE_SET: which rows of the opcode table are defined (spec/30_encoding.md R96). -/
inductive OpcodeSet where
  | all
  | shown
  deriving DecidableEq, Repr

/-- The behavioural parameters that R5 leaves open.
DESIGN CHOICE (log entry 4, safe): they stand in `State` and no step changes them, so a statement about
every state is a statement about every value of them. -/
structure Params where
  /-- CP_WAIT_TICKS -/
  cpWaitTicks : Nat
  /-- BRANCH_TAKEN_TICKS -/
  branchTakenTicks : Nat
  /-- RET_PUSH_ORDER -/
  retPushOrder : PushOrder
  /-- INX_SETS_NZ -/
  inxSetsNz : Bool
  /-- IRQ_EXTENSION -/
  irqExtension : IrqExtension
  /-- OPCODE_SET -/
  opcodeSet : OpcodeSet
  deriving DecidableEq, Repr

/-- The defaults that R5 gives the open behavioural parameters. -/
def Params.default : Params where
  cpWaitTicks := 1
  branchTakenTicks := 1
  retPushOrder := .lowFirst
  inxSetsNz := true
  irqExtension := .none
  opcodeSet := .all

namespace Config

/-- ACCESS_TICKS_FAST (R5). -/
def accessTicksFast : Nat := 3

/-- ACCESS_TICKS_SLOW (R5). -/
def accessTicksSlow : Nat := 12

/-- TIMER_PRESCALE: ticks per coarse timer count (R5). -/
def timerPrescale : Nat := 3

/-- TIMER_QUANTUM: coarse counts per timer step (R5). -/
def timerQuantum : Nat := 1024

/-- OPEN_BUS_VALUE (R5). -/
def openBusValue : Byte := 0xFF#8

/-- ZP_BASE (R5). -/
def zpBase : Word := 0x2000#16

/-- STACK_BASE (R5). -/
def stackBase : Word := 0x2100#16

/-- What `Get` returns past the end of the ROM image (spec/00_scope.md R8). -/
def romPastEnd : Byte := 0xFF#8

/-- What a RAM byte that nothing has written reads as, standing for RAM_INIT.
DESIGN CHOICE (log entry 2, unsafe): the spec leaves RAM_INIT open. -/
def ramInit : Byte := 0x00#8

/-- FREE VALUE (log entry 5, safe): what the n-th draw answers when it is a read of an EXT_DEVICE register
(spec/00_scope.md R10: "a draw, a value the model does not fix"). Nothing constrains it. -/
opaque extRead : Nat → BitVec 8

/-- FREE VALUE (log entry 6, safe): which of the external interrupt lines 0 and 1 the environment raises at the
boundary of the n-th draw (spec/60_exceptions.md R247). Nothing constrains it. -/
opaque extLines : Nat → BitVec 2

end Config

end Sys2Proof
end

