-- ==== Sys2Proof/Syntax.lean ====
section
/-! DEFINITION. The instruction forms: one constructor per row of spec/opcode_table.json, with the operands of
spec/30_encoding.md R91 and R92 and no encoding detail. -/

namespace Sys2Proof

/-- The formats of R91, which are also the addressing-mode tags of the descriptors (R94). -/
inductive Mode where
  | imp
  | imm
  | zp
  | zpx
  | zpy
  | rel
  | abs
  | absx
  | absy
  | blk
  deriving DecidableEq, Repr

/-- The 40 admitted instruction forms, in the order of the table of R96. A `Byte` operand is the operand byte as
encoded (immediate value, zero-page offset, displacement, mask); a `Word` operand is assembled little-endian (R92). -/
inductive Instr where
  | jsrAbs (target : Word)
  | tamMask (mask : Byte)
  | csl
  | rts
  | cla
  | stzZp (z : Byte)
  | tii (src dst len : Word)
  | stzZpX (z : Byte)
  | sei
  | braRel (d : Byte)
  | clx
  | staZp (z : Byte)
  | staAbs (a : Word)
  | staZpX (z : Byte)
  | staAbsY (a : Word)
  | txs
  | stzAbs (a : Word)
  | staAbsX (a : Word)
  | stzAbsX (a : Word)
  | ldxImm (v : Byte)
  | ldaZp (z : Byte)
  | ldxZp (z : Byte)
  | ldaImm (v : Byte)
  | ldaAbs (a : Word)
  | ldxAbs (a : Word)
  | ldaZpX (z : Byte)
  | ldxZpY (z : Byte)
  | ldaAbsY (a : Word)
  | ldaAbsX (a : Word)
  | ldxAbsY (a : Word)
  | cmpZp (z : Byte)
  | cmpImm (v : Byte)
  | cmpAbs (a : Word)
  | csh
  | cmpZpX (z : Byte)
  | cld
  | cmpAbsY (a : Word)
  | cmpAbsX (a : Word)
  | inx
  | beqRel (d : Byte)
  deriving DecidableEq, Repr

end Sys2Proof
end

