-- ==== Sys2Proof/Machine/State.lean ====
section
/-! DEFINITION. The machine state of spec/10_state.md as plain data, the faults and refusals, and the state after
reset (spec/70_reset_and_hazards.md R270). -/

namespace Sys2Proof.Machine

/-- The flag bits of P (spec/10_state.md R26 to R34). No instruction reads or writes the byte whole; the byte that an
interrupt entry pushes is put together from these bits (spec/60_exceptions.md R246). -/
structure Flags where
  /-- Carry, bit 0 (R27). -/
  c : Bool
  /-- Zero, bit 1 (R28). -/
  z : Bool
  /-- Interrupt-disable, bit 2 (R29). -/
  i : Bool
  /-- Decimal, bit 3 (R30). -/
  d : Bool
  /-- Break, bit 4 (R31). -/
  b : Bool
  /-- Memory, bit 5 (R32). -/
  t : Bool
  /-- Overflow, bit 6 (R33). -/
  v : Bool
  /-- Negative, bit 7 (R34). -/
  n : Bool
  deriving DecidableEq, Repr

/-- The bank-select table MPR[0..7] (spec/10_state.md R36). -/
structure Mprs where
  m0 : Byte
  m1 : Byte
  m2 : Byte
  m3 : Byte
  m4 : Byte
  m5 : Byte
  m6 : Byte
  m7 : Byte
  deriving DecidableEq, Repr

/-- The CPU register file, the speed mode and the bank-select table (spec/10_state.md R20 to R36). -/
structure Cpu where
  a : Byte
  x : Byte
  y : Byte
  sp : Byte
  pc : Word
  instrPC : Word
  p : Flags
  fast : Bool
  mpr : Mprs
  deriving DecidableEq, Repr

/-- The Clock (spec/10_state.md R37 to R40). -/
structure Clock where
  counter : Nat
  extra : Nat
  halted : Bool
  suppress : Nat
  deriving DecidableEq, Repr

/-- The timer (spec/10_state.md R42). -/
structure Timer where
  reload : Nat
  current : Nat
  enabled : Bool
  acc : Nat
  coarse : Nat
  deriving DecidableEq, Repr

/-- The interrupt controller (spec/10_state.md R43): bit L is line L. -/
structure Irq where
  enabled : BitVec 3
  pending : BitVec 3
  deriving DecidableEq, Repr

/-- Memory: ROM and RAM bytes by key (the physical address; a RAM byte under its address in bank 0xF8), in the one
canonical form that `Memory.wf` of Machine/Memory.lean states. -/
abbrev Memory := List Host.Cell

/-- A resolved operand (spec/40_execute_loop.md R119). -/
inductive Operand where
  | imm (v : Byte)
  | addr (a : Word)
  deriving DecidableEq, Repr

/-- The fault codes of spec/60_exceptions.md R225. -/
inductive FaultCode where
  | unknownOpcode
  | badSubregion
  | writeImmediate
  | unsupportedMode
  deriving DecidableEq, Repr

/-- What a fault identifies: the opcode byte, or for BAD_SUBREGION the control-page offset (R225). -/
inductive FaultInfo where
  | opcode (op : Byte)
  | offset (off : BankOffset)
  deriving DecidableEq, Repr

/-- The fault record of spec/10_state.md R44. -/
structure FaultRecord where
  code : FaultCode
  info : FaultInfo
  instrPC : Word
  counter : Nat
  deriving DecidableEq, Repr

/-- The reasons of spec/60_exceptions.md R228. -/
inductive RefusalReason where
  | tiiZeroLength
  | tiiStackClobber
  deriving DecidableEq, Repr

/-- The two external devices of spec/00_scope.md R10. -/
inductive ExtDevice where
  | vdc
  | vce
  deriving DecidableEq, Repr

/-- The severities of spec/00_scope.md R11. `recoverableError` is never emitted (spec/60_exceptions.md R229). -/
inductive Severity where
  | info
  | warning
  | recoverableError
  | unrecoverableFault
  deriving DecidableEq, Repr

/-- The diagnostics of spec/60_exceptions.md R229. -/
inductive Diagnostic where
  | fault (r : FaultRecord)
  | cycleMismatch (op : Byte) (instrPC : Word) (consumed expected : Nat)
  | notImplemented (sub w : Nat)
  | operandSource (o : Operand)
  | tiiBreakdown (transfer overhead : Nat)
  | timerTick
  deriving DecidableEq, Repr

/-- An entry of `events` (spec/10_state.md R44): an EXT_DEVICE read with the value it returned, an EXT_DEVICE write, or
a diagnostic. -/
inductive Event where
  | extRead (dev : ExtDevice) (reg : Nat) (v : Byte)
  | extWrite (dev : ExtDevice) (reg : Nat) (v : Byte)
  | diag (sev : Severity) (d : Diagnostic)
  deriving DecidableEq, Repr

/-- The machine state (spec/10_state.md). -/
structure State where
  cpu : Cpu
  clk : Clock
  /-- The I/O latch (R41). -/
  latch : Byte
  tmr : Timer
  irq : Irq
  mem : Memory
  /-- R44. -/
  fault : Option FaultRecord
  /-- R44. -/
  refused : Option RefusalReason
  /-- R44, newest first (log entry 9). -/
  events : List Event
  /-- `pre` of Step (spec/40_execute_loop.md R111): clk.counter at step 1 (log entry 16). -/
  pre : Nat
  /-- `extra_pre` of Step (R111): clk.extra at step 1 (log entry 16). -/
  extraPre : Nat
  /-- The model's own: how many free values have been drawn (log entry 7). -/
  draws : Nat
  /-- The open behavioural parameters of spec/00_scope.md R5 (log entry 4). -/
  params : Params
  deriving DecidableEq, Repr

/-- Why a step stops with a fault. Each carries the machine as it stands when it stops (log entry 10). -/
inductive Fault where
  /-- UNKNOWN_OPCODE (spec/60_exceptions.md R221), raised by step 3 for a byte without a row.
  Safe: the spec makes it terminal. -/
  | unknownOpcode (s : State)
  /-- BAD_SUBREGION (R222), raised by a control-page access that names no sub-device; unreachable (R68). Safe. -/
  | badSubregion (s : State)
  /-- WRITE_IMMEDIATE (R223), raised by a write to an immediate operand; unreachable. Safe. -/
  | writeImmediate (s : State)
  /-- UNSUPPORTED_MODE (R224), raised by resolving a mode without a case; unreachable. Safe. -/
  | unsupportedMode (s : State)
  /-- `step` at a state whose fault field is set: Run takes no further step (R110, R220). Safe. -/
  | alreadyFaulted (s : State)
  /-- `step` at a halted state: Run takes no further step (spec/20_memory.md R53). Safe. -/
  | halted (s : State)
  deriving DecidableEq, Repr

/-- Why a step is refused. -/
inductive Refusal where
  /-- An instruction without a meaning, rejected by name in its arm of `exec`. Safe. -/
  | notModelled (mnemonic : String)
  /-- TII_ZERO_LENGTH (spec/44_block_transfer.md R176), raised by a TII whose length operand is 0. Safe: the spec
  itself refuses. -/
  | tiiZeroLength (s : State)
  /-- TII_STACK_CLOBBER (spec/44_block_transfer.md R178), raised by a TII whose popped bytes differ from those pushed.
  Safe: the spec itself refuses. -/
  | tiiStackClobber (s : State)
  /-- `step` at a state whose refused field is set: Run takes no further step (spec/60_exceptions.md R228). Safe. -/
  | alreadyRefused (s : State)
  deriving DecidableEq, Repr

/-- The machine right after reset (spec/70_reset_and_hazards.md R270), with no ROM listed, so that PC is 0xFFFF (log
entry 3).
DESIGN CHOICE (log entry 1, unsafe): the values for RESET_A, RESET_X, RESET_Y, RESET_SP, RESET_C, RESET_Z, RESET_B,
RESET_V, RESET_N, MPR_INIT, LATCH_INIT, TIMER_RELOAD_INIT and TIMER_COUNTER_INIT, which the spec leaves open.
`resetWith` of Machine/Reset.lean is R270 for every value of them. -/
def State.reset : State where
  cpu := {
    a := 0x00#8
    x := 0x00#8
    y := 0x00#8
    sp := 0x00#8
    pc := 0xFFFF#16
    instrPC := 0xFFFF#16
    p := { c := false, z := false, i := true, d := false, b := false, t := false, v := false, n := false }
    fast := false
    mpr := { m0 := 0#8, m1 := 0#8, m2 := 0#8, m3 := 0#8, m4 := 0#8, m5 := 0#8, m6 := 0#8, m7 := 0#8 } }
  clk := { counter := 0, extra := 0, halted := false, suppress := 0 }
  latch := 0x00#8
  tmr := { reload := 1, current := 0, enabled := false, acc := 0, coarse := 0 }
  irq := { enabled := 0#3, pending := 0#3 }
  mem := []
  fault := none
  refused := none
  events := []
  pre := 0
  extraPre := 0
  draws := 0
  params := Params.default

end Sys2Proof.Machine
end

