-- ==== Sys2Proof/Machine/Update.lean ====
section
/-! DEFINITION. One setter per field of `State`: every operation of the machine changes the state through these. -/

namespace Sys2Proof.Machine

/-- Replace the register file. -/
def State.setCpu (s : State) (c : Cpu) : State := { s with cpu := c }

/-- Replace the Clock. -/
def State.setClk (s : State) (c : Clock) : State := { s with clk := c }

/-- Write the I/O latch. -/
def State.setLatch (s : State) (v : Byte) : State := { s with latch := v }

/-- Replace the timer. -/
def State.setTmr (s : State) (t : Timer) : State := { s with tmr := t }

/-- Replace the interrupt controller. -/
def State.setIrq (s : State) (q : Irq) : State := { s with irq := q }

/-- Replace memory. -/
def State.setMem (s : State) (m : Memory) : State := { s with mem := m }

/-- Record a fault. -/
def State.setFault (s : State) (r : FaultRecord) : State := { s with fault := some r }

/-- Record a refusal. -/
def State.setRefused (s : State) (r : RefusalReason) : State := { s with refused := some r }

/-- Append an event to the log (newest first, log entry 9). -/
def State.emit (s : State) (e : Event) : State := { s with events := e :: s.events }

/-- Count one more drawn free value. -/
def State.countDraw (s : State) : State := { s with draws := s.draws + 1 }

/-- Note the counters of step 1 (spec/40_execute_loop.md R111). -/
def State.setPre (s : State) (pre extraPre : Nat) : State := { s with pre := pre, extraPre := extraPre }

end Sys2Proof.Machine
end

