-- ==== Sys2Proof/Machine/Clock.lean ====
section
/-! DEFINITION. Diagnostics, faults and refusals as records, the Clock, and the timer's callback (spec/20_memory.md R50
to R53; spec/60_exceptions.md R220, R228 to R231). -/

namespace Sys2Proof.Machine

/-- `diag(severity, event)` (spec/60_exceptions.md R229): append the event, change nothing else. -/
def diag (sev : Severity) (d : Diagnostic) (s : State) : State := s.emit (.diag sev d)

/-- The numeric code of a fault (R225). -/
def FaultCode.number : FaultCode → Nat
  | .unknownOpcode => 1
  | .badSubregion => 2
  | .writeImmediate => 3
  | .unsupportedMode => 4

/-- `raise Fault(code, info)` as far as the state goes (R220): the diagnostic and the fault record. -/
def raiseFault (code : FaultCode) (info : FaultInfo) (s : State) : State :=
  (diag .unrecoverableFault (.fault ⟨code, info, s.cpu.instrPC, s.clk.counter⟩) s).setFault
    ⟨code, info, s.cpu.instrPC, s.clk.counter⟩

/-- The step's answer for a raised fault. -/
def Fault.ofCode : FaultCode → State → Fault
  | .unknownOpcode, s => .unknownOpcode s
  | .badSubregion, s => .badSubregion s
  | .writeImmediate, s => .writeImmediate s
  | .unsupportedMode, s => .unsupportedMode s

/-- `TimerStep()` (R231): a counter at 0 reloads, and under VECTORED sets the timer's pending line (R236); any other
counter decrements. -/
def timerStep (s : State) : State :=
  diag .info .timerTick <|
    if s.tmr.current = 0 then
      (s.setTmr { s.tmr with current := s.tmr.reload }).setIrq
        (if s.params.irqExtension = .vectored then { s.irq with pending := s.irq.pending ||| 0b100#3 } else s.irq)
    else s.setTmr { s.tmr with current := s.tmr.current - 1 }

/-- `Cycle()`, the per-tick callback (R230). -/
def cycle (s : State) : State :=
  if s.tmr.enabled then
    if s.tmr.acc + 1 = Config.timerPrescale then
      if s.tmr.coarse + 1 = Config.timerQuantum then timerStep (s.setTmr { s.tmr with acc := 0, coarse := 0 })
      else s.setTmr { s.tmr with acc := 0, coarse := s.tmr.coarse + 1 }
    else s.setTmr { s.tmr with acc := s.tmr.acc + 1 }
  else s

/-- `Tick()` (spec/20_memory.md R50): nothing while ticking is suppressed. -/
def tick (s : State) : State :=
  if s.clk.suppress = 0 then cycle (s.setClk { s.clk with counter := s.clk.counter + 1 }) else s

/-- `repeat n times: Tick()`. -/
def ticks : Nat → State → State
  | 0, s => s
  | n + 1, s => ticks n (tick s)

/-- One control-page wait tick (R61): an unsuppressed one also counts in clk.extra. -/
def waitTick (s : State) : State :=
  if s.clk.suppress = 0 then
    (tick s).setClk { (tick s).clk with extra := (tick s).clk.extra + 1 }
  else tick s

/-- `repeat n times` of R59's wait. -/
def waitTicks : Nat → State → State
  | 0, s => s
  | n + 1, s => waitTicks n (waitTick s)

/-- `Suppress { body }` (R52): the decrement is unconditional. -/
def suppressed {α : Type} (body : State → α × State) (s : State) : α × State :=
  let r := body (s.setClk { s.clk with suppress := s.clk.suppress + 1 })
  (r.1, r.2.setClk { r.2.clk with suppress := r.2.clk.suppress - 1 })

/-- `Halt()` (R53). No admitted instruction calls it. -/
def halt (s : State) : State := s.setClk { s.clk with halted := true }

end Sys2Proof.Machine
end

