-- ==== Sys2Proof/Machine/Memory.lean ====
section
/-! DEFINITION. Memory: what exists, what an unlisted byte reads as, the canonical form, read and write. -/

namespace Sys2Proof.Machine

/-- The physical addresses of ROM: banks 0x00 to 0x7F (spec/20_memory.md R57, R62). -/
def romTop : Nat := 0x100000

/-- The key of the first RAM byte: physical address 0x1F0000, bank 0xF8 (R63; log entry 14). -/
def ramBase : Nat := 0x1F0000

/-- The size of RAM in bytes (spec/00_scope.md R5). -/
def ramSize : Nat := 0x2000

/-- What an unlisted byte reads as: in ROM 0xFF (past the end of the image, spec/00_scope.md R8), elsewhere
`Config.ramInit` (DESIGN CHOICE, log entry 2). -/
def Memory.unlisted (a : Nat) : Byte := if a < romTop then Config.romPastEnd else Config.ramInit

/-- Read one byte. -/
def Memory.read : Memory → Nat → Byte
  | [], a => Memory.unlisted a
  | c :: m, a => if a = c.1 then c.2 else Memory.read m a

/-- Put a cell before the first cell of a higher address. -/
def Memory.insertCell (a : Nat) (v : Byte) : Memory → Memory
  | [] => [(a, v)]
  | c :: m => if a < c.1 then (a, v) :: c :: m else c :: Memory.insertCell a v m

/-- Take the cell of an address out. -/
def Memory.erase (m : Memory) (a : Nat) : Memory := m.filter fun c => c.1 != a

/-- Write one byte, keeping the canonical form: the value an unlisted byte reads as is not listed. -/
def Memory.write (m : Memory) (a : Nat) (v : Byte) : Memory :=
  if v = Memory.unlisted a then Memory.erase m a else Memory.insertCell a v (Memory.erase m a)

/-- The canonical form: addresses strictly rising, and no cell equal to what its address reads as when unlisted. -/
abbrev Memory.wf (m : Memory) : Prop :=
  m.Pairwise (fun c d => c.1 < d.1) ∧ ∀ c ∈ m, c.2 ≠ Memory.unlisted c.1

/-- Every cell is a ROM byte or a RAM byte: nothing else exists (spec/20_memory.md R57). -/
abbrev Memory.inSpace (m : Memory) : Prop :=
  ∀ c ∈ m, c.1 < romTop ∨ (ramBase ≤ c.1 ∧ c.1 < ramBase + ramSize)

end Sys2Proof.Machine
end

