-- ==== Sys2Proof/Machine/Bus.lean ====
section
/-! DEFINITION. Address mapping, the bus router, the control page with its devices, and the one access procedure
(spec/20_memory.md R56 to R72; spec/60_exceptions.md R232 to R242). -/

namespace Sys2Proof.Machine

/-- MPR[i] (spec/10_state.md R36). -/
def Mprs.get (m : Mprs) (i : BitVec 3) : Byte :=
  match i.toNat with
  | 0 => m.m0
  | 1 => m.m1
  | 2 => m.m2
  | 3 => m.m3
  | 4 => m.m4
  | 5 => m.m5
  | 6 => m.m6
  | _ => m.m7

/-- `MapAddress(la)` (R56): the window's bank above the offset inside the window. -/
def mapAddress (m : Mprs) (la : Word) : PhysAddr := m.get (windowOf la) ++ windowOffset la

/-- The regions of R57. -/
inductive Region where
  | rom
  | openBus
  | ram
  | controlPage
  deriving DecidableEq, Repr

/-- The region of a bank (R57). -/
def regionOf (bank : Byte) : Region :=
  if bank.toNat ≤ 0x7F then .rom
  else if 0xF8 ≤ bank.toNat ∧ bank.toNat ≤ 0xFB then .ram
  else if bank.toNat = 0xFF then .controlPage
  else .openBus

/-- The memory key of a RAM byte: all four banks reach the same 8 KiB page (R63; log entry 14). -/
def ramKey (off : BankOffset) : Nat := ramBase + off.toNat

/-- The two kinds of access (R59). -/
inductive Access where
  | read
  | write
  deriving DecidableEq, Repr

/-- The sub-devices of R66. -/
inductive SubDevice where
  | vdc
  | vce
  | psg
  | timer
  | ioPort
  | irqCtrl
  | cdrom
  | filler
  deriving DecidableEq, Repr

/-- The sub-device of `offset >> 10` (R66); none is the decode fault of R68, which no 13-bit offset reaches. -/
def subDevice : Nat → Option SubDevice
  | 0 => some .vdc
  | 1 => some .vce
  | 2 => some .psg
  | 3 => some .timer
  | 4 => some .ioPort
  | 5 => some .irqCtrl
  | 6 => some .cdrom
  | 7 => some .filler
  | _ => none

/-- PERIOD[Sub], the mirroring period (R67). -/
def SubDevice.period : SubDevice → Nat
  | .vdc => 4
  | .vce => 8
  | .timer => 2
  | .irqCtrl => 4
  | .psg | .ioPort | .cdrom | .filler => 1024

/-- The latch sub-range 0x0800 to 0x17FF (R69). -/
def inLatchRange (off : BankOffset) : Bool := 0x0800 ≤ off.toNat && off.toNat ≤ 0x17FF

/-- An EXT_DEVICE access (R70): a read is a free value (log entry 5); both are recorded in order. -/
def extAccess (k : Access) (dev : ExtDevice) (w : Nat) (v : Byte) (s : State) : Byte × State :=
  match k with
  | .read => (Config.extRead s.draws, s.countDraw.emit (.extRead dev w (Config.extRead s.draws)))
  | .write => (0#8, s.emit (.extWrite dev w v))

/-- An unimplemented region (R72): reads return 0xFF, writes do nothing, each access is diagnosed. -/
def unimplemented (k : Access) (sub w : Nat) (s : State) : Byte × State :=
  (match k with
    | .read => 0xFF#8
    | .write => 0#8,
   diag .warning (.notImplemented sub w) s)

/-- The timer's registers (spec/60_exceptions.md R232 to R234). -/
def timerAccess (k : Access) (w : Nat) (v : Byte) (s : State) : Byte × State :=
  match k with
  | .read =>
    if w = 0 then ((BitVec.ofNat 8 s.tmr.current &&& 0x7F#8) ||| (s.latch &&& 0x80#8), s)
    else ((if s.tmr.enabled then 1#8 else 0#8) ||| (s.latch &&& 0x80#8), s)
  | .write =>
    if w = 0 then (0#8, s.setTmr { s.tmr with reload := (v &&& 0x7F#8).toNat + 1 })
    else (0#8, s.setTmr { s.tmr with enabled := v.getLsbD 0, current := s.tmr.reload, acc := 0, coarse := 0 })

/-- The interrupt controller's registers (spec/60_exceptions.md R238 to R242). -/
def irqAccess (k : Access) (w : Nat) (v : Byte) (s : State) : Byte × State :=
  if w = 2 then
    match k with
    | .read => ((s.irq.enabled.setWidth 8 &&& 0x07#8) ||| (s.latch &&& 0xF8#8), s)
    | .write => (0#8, s.setIrq { s.irq with enabled := v.setWidth 3 })
  else if w = 3 then
    match k with
    | .read => ((s.irq.pending.setWidth 8 &&& 0x07#8) ||| (s.latch &&& 0xF8#8), s)
    | .write => (0#8, s.setIrq { s.irq with pending := 0b000#3 })
  else unimplemented k 5 w s

/-- The latch update of a control-page access (R69). -/
def latchWrite (k : Access) (off : BankOffset) (v : Byte) (s : State) : State :=
  if k = .write ∧ inLatchRange off then s.setLatch v else s

/-- `ControlPage(kind, off, v)` (R65). The decode fault's arm is kept as R68 asks and is unreachable (log entry 15). -/
def controlPage (k : Access) (off : BankOffset) (v : Byte) (s : State) : Byte × State :=
  match subDevice (off.toNat / 1024) with
  | none => (0#8, raiseFault .badSubregion (.offset off) s)
  | some .vdc => extAccess k .vdc (off.toNat % SubDevice.vdc.period) v (latchWrite k off v s)
  | some .vce => extAccess k .vce (off.toNat % SubDevice.vce.period) v (latchWrite k off v s)
  | some .psg => unimplemented k 2 (off.toNat % SubDevice.psg.period) (latchWrite k off v s)
  | some .timer => timerAccess k (off.toNat % SubDevice.timer.period) v (latchWrite k off v s)
  | some .ioPort => unimplemented k 4 (off.toNat % SubDevice.ioPort.period) (latchWrite k off v s)
  | some .irqCtrl => irqAccess k (off.toNat % SubDevice.irqCtrl.period) v (latchWrite k off v s)
  | some .cdrom => unimplemented k 6 (off.toNat % SubDevice.cdrom.period) (latchWrite k off v s)
  | some .filler => unimplemented k 7 (off.toNat % SubDevice.filler.period) (latchWrite k off v s)

/-- What an access does at its dispatch point (R57, R59). -/
def dispatch (k : Access) (pa : PhysAddr) (v : Byte) (s : State) : Byte × State :=
  match regionOf (bankOf pa), k with
  | .rom, .read => (s.mem.read pa.toNat, s)
  | .rom, .write => (0#8, s)
  | .ram, .read => (s.mem.read (ramKey (offsetOf pa)), s)
  | .ram, .write => (0#8, s.setMem (s.mem.write (ramKey (offsetOf pa)) v))
  | .openBus, .read => (Config.openBusValue, s)
  | .openBus, .write => (0#8, s)
  | .controlPage, k => controlPage k (offsetOf pa) v s

/-- ACCESS_TICKS(Fast) (R58). -/
def accessTicks (fast : Bool) : Nat := if fast then Config.accessTicksFast else Config.accessTicksSlow

/-- The wait ticks before the dispatch: only an access to bank 0xFF has any (R59, R61). -/
def accessWait (pa : PhysAddr) (s : State) : State :=
  if regionOf (bankOf pa) = .controlPage then waitTicks s.params.cpWaitTicks s else s

/-- `Access(kind, la, v)` (R59): the wait, the dispatch, then the access ticks; the speed and the MPRs are sampled at
the start. -/
def access (k : Access) (la : Word) (v : Byte) (s : State) : Byte × State :=
  let r := dispatch k (mapAddress s.cpu.mpr la) v (accessWait (mapAddress s.cpu.mpr la) s)
  (r.1, ticks (accessTicks s.cpu.fast) r.2)

/-- `MemRead(la)` (R59). -/
def memRead (la : Word) (s : State) : Byte × State := access .read la 0#8 s

/-- `MemWrite(la, v)` (R59). -/
def memWrite (la : Word) (v : Byte) (s : State) : State := (access .write la v s).2

/-- The byte the bus would return at a logical address, without making an access (spec/60_exceptions.md R252). DESIGN
CHOICE (log entry 23): the spec is silent on an EXT_DEVICE byte looked at so; it is the value the device's next read would
draw, and the look counts no draw. -/
def peek (la : Word) (s : State) : Byte := (dispatch .read (mapAddress s.cpu.mpr la) 0#8 s).1

/-- The two bytes at `la` and `la + 1`, looked at in that order without making an access (spec/60_exceptions.md R252).
DESIGN CHOICE (log entry 23): two EXT_DEVICE bytes are two successive draws, not one. -/
def peekPair (la : Word) (s : State) : Byte × Byte :=
  (peek la s, peek (la + 1#16) (dispatch .read (mapAddress s.cpu.mpr la) 0#8 s).2)

/-- A speculative probe: a read inside a Suppress scope (spec/60_exceptions.md R253). No instruction makes one. -/
def probe (la : Word) (s : State) : Byte × State := suppressed (memRead la) s

end Sys2Proof.Machine
end

