-- ==== Sys2Proof/Machine/Flags.lean ====
section
/-! DEFINITION. The flag computations: SetNZ, the compare, and the flags byte (spec/41_load_store.md R142;
spec/45_compare.md R185; spec/10_state.md R26). -/

namespace Sys2Proof.Machine

/-- `SetNZ(v)` on the flags (spec/41_load_store.md R142). -/
def Flags.setNZ (p : Flags) (v : Byte) : Flags := { p with z := v == 0#8, n := v.getLsbD 7 }

/-- The flags of `CMP` (spec/45_compare.md R185): C, Z and N from A and the operand. -/
def Flags.compare (p : Flags) (a v : Byte) : Flags :=
  { p with c := decide (v.toNat ≤ a.toNat), z := a == v, n := (a - v).getLsbD 7 }

/-- One bit at a place of the flags byte. -/
def flagBit (b : Bool) (k : Nat) : Byte := if b then 1#8 <<< k else 0#8

/-- The flags byte: C, Z, I, D, B, T, V, N from bit 0 to bit 7 (spec/10_state.md R26). -/
def Flags.toByte (p : Flags) : Byte :=
  flagBit p.c 0 ||| flagBit p.z 1 ||| flagBit p.i 2 ||| flagBit p.d 3 ||| flagBit p.b 4 ||| flagBit p.t 5
    ||| flagBit p.v 6 ||| flagBit p.n 7

/-- `SetNZ(v)` on the machine (spec/41_load_store.md R142). -/
def setNZ (v : Byte) (s : State) : State := s.setCpu { s.cpu with p := s.cpu.p.setNZ v }

end Sys2Proof.Machine
end

