-- ==== Sys2Proof/Machine/Ops.lean ====
section
/-! DEFINITION. The shared operations over registers and memory: instruction-stream fetch, the dummy read, the stack,
the return address, and taking an interrupt (spec/40_execute_loop.md R113, R123 to R126; spec/43_subroutine.md R165;
spec/60_exceptions.md R243 to R247). The subset has no return from interrupt (R248). -/

namespace Sys2Proof.Machine

/-- Write PC. -/
def setPC (pc : Word) (s : State) : State := s.setCpu { s.cpu with pc := pc }

/-- `Fetch()` (R113): a full access at PC, then PC + 1. -/
def fetchByte (s : State) : Byte × State :=
  let r := memRead s.cpu.pc s
  (r.1, setPC (r.2.cpu.pc + 1#16) r.2)

/-- A number of `Fetch()`es in increasing address order (spec/30_encoding.md R90). -/
def fetchBytes : Nat → State → List Byte × State
  | 0, s => ([], s)
  | n + 1, s =>
    let r := fetchByte s
    let rest := fetchBytes n r.2
    (r.1 :: rest.1, rest.2)

/-- `DummyImplied()` (R123): the read at PC whose value is discarded. -/
def dummyImplied (s : State) : State := (memRead s.cpu.pc s).2

/-- The logical address of the stack byte that a stack pointer names (R124). -/
def stackAddr (sp : Byte) : Word := Config.stackBase + zeroExtend16 sp

/-- `Push(v)` (R125): write, then decrement SP inside the page. -/
def push (v : Byte) (s : State) : State :=
  let s' := memWrite (stackAddr s.cpu.sp) v s
  s'.setCpu { s'.cpu with sp := s'.cpu.sp - 1#8 }

/-- `Pop()` (R126): increment SP inside the page, then read. -/
def pop (s : State) : Byte × State :=
  memRead (stackAddr (s.cpu.sp + 1#8)) (s.setCpu { s.cpu with sp := s.cpu.sp + 1#8 })

/-- `PushReturn(r)` (spec/43_subroutine.md R165). -/
def pushReturn (r : Word) (s : State) : State :=
  match s.params.retPushOrder with
  | .lowFirst => push (hiByte r) (push (loByte r) s)
  | .highFirst => push (loByte r) (push (hiByte r) s)

/-- `PopReturn()` (spec/43_subroutine.md R165): the reverse of the push order. -/
def popReturn (s : State) : Word × State :=
  let first := pop s
  let second := pop first.2
  match s.params.retPushOrder with
  | .lowFirst => (wordOf first.1 second.1, second.2)
  | .highFirst => (wordOf second.1 first.1, second.2)

/-- The interrupt lines of spec/60_exceptions.md R244. -/
inductive Line where
  | irq2
  | irq1
  | tiq
  deriving DecidableEq, Repr

/-- The number of a line (R244). -/
def Line.number : Line → Nat
  | .irq2 => 0
  | .irq1 => 1
  | .tiq => 2

/-- VEC[L], the address of the low byte of a line's vector (R244). -/
def Line.vector : Line → Word
  | .tiq => 0xFFFA#16
  | .irq1 => 0xFFF8#16
  | .irq2 => 0xFFF6#16

/-- `HasInterrupt(L)` (R243). -/
def hasInterrupt (q : Irq) (l : Line) : Bool := q.enabled.getLsbD l.number && q.pending.getLsbD l.number

/-- `Highest()`, the priority encoder (R244). -/
def highest (q : Irq) : Option Line :=
  if hasInterrupt q .tiq then some .tiq
  else if hasInterrupt q .irq1 then some .irq1
  else if hasInterrupt q .irq2 then some .irq2
  else none

/-- The interrupt that Step takes at this boundary, if any: `InterruptDue()` under VECTORED (R245, spec/40_execute_loop.md
R111, R112). -/
def dueLine (s : State) : Option Line :=
  if s.params.irqExtension = .vectored ∧ s.cpu.p.i = false then highest s.irq else none

/-- The external lines at an instruction boundary (R247): under VECTORED the environment may set pending bits 0 and 1, a
free value (log entry 6). -/
def pollLines (s : State) : State :=
  match s.params.irqExtension with
  | .none => s
  | .vectored =>
    (s.setIrq { s.irq with pending := s.irq.pending ||| (Config.extLines s.draws).setWidth 3 }).countDraw

/-- `TakeInterrupt()` for the line that is due (R246): push PC and the flags byte with B as 0, set I, clear D and T,
fetch the vector. -/
def takeInterrupt (l : Line) (s : State) : State :=
  let s1 := pushReturn s.cpu.pc s
  let s2 := push ({ s1.cpu.p with b := false }.toByte) s1
  let s3 := s2.setCpu { s2.cpu with p := { s2.cpu.p with i := true, d := false, t := false } }
  let lo := memRead l.vector s3
  let hi := memRead (l.vector + 1#16) lo.2
  let s4 := setPC (wordOf hi.1 lo.1) hi.2
  s4.setClk { s4.clk with extra := 0 }

end Sys2Proof.Machine
end

