-- ==== Sys2Proof/Machine/Operands.lean ====
section
/-! DEFINITION. Every operand form: resolving, reading and writing an operand (spec/30_encoding.md R92;
spec/40_execute_loop.md R119 to R122). The operand bytes have been fetched when a meaning runs (log entry 13). -/

namespace Sys2Proof.Machine

/-- A zero-page address (R92): ZP_BASE plus an 8-bit offset. -/
def zpAddr (z : Byte) : Word := Config.zpBase + zeroExtend16 z

/-- `ResolveOperand(mode)` over the fetched operand bytes as one little-endian number (R120); none is the unsupported
mode, which no row has (spec/60_exceptions.md R224). An 8-bit operand is the low byte of `raw`. -/
def resolveOperand (m : Mode) (raw : Word) (c : Cpu) : Option Operand :=
  match m with
  | .imm => some (.imm (loByte raw))
  | .zp => some (.addr (zpAddr (loByte raw)))
  | .zpx => some (.addr (zpAddr (loByte raw + c.x)))
  | .zpy => some (.addr (zpAddr (loByte raw + c.y)))
  | .abs => some (.addr raw)
  | .absx => some (.addr (raw + zeroExtend16 c.x))
  | .absy => some (.addr (raw + zeroExtend16 c.y))
  | .imp | .rel | .blk => none

/-- Resolve an operand and go on with it, or raise UNSUPPORTED_MODE (R120). -/
def withOperand (op : Byte) (m : Mode) (raw : Word) (s : State)
    (k : Operand → State → Host.Outcome State Fault Refusal) : Host.Outcome State Fault Refusal :=
  match resolveOperand m raw s.cpu with
  | some o => k o s
  | none => .fault (.unsupportedMode (raiseFault .unsupportedMode (.opcode op) s))

/-- `ReadOperand(o)` (R121): the source is logged (before the access: log entry 8); an address costs one read. -/
def readOperand (o : Operand) (s : State) : Byte × State :=
  match o with
  | .imm v => (v, diag .info (.operandSource (.imm v)) s)
  | .addr a => memRead a (diag .info (.operandSource (.addr a)) s)

/-- `WriteOperand(o, v)` (R122): the dummy read, then the write; an immediate raises WRITE_IMMEDIATE. -/
def writeOperand (op : Byte) (o : Operand) (v : Byte) (s : State) : Host.Outcome State Fault Refusal :=
  match o with
  | .imm _ => .fault (.writeImmediate (raiseFault .writeImmediate (.opcode op) s))
  | .addr a => .next (memWrite a v (memRead a s).2)

end Sys2Proof.Machine
end

