-- ==== Sys2Proof/Machine/BankSelect.lean ====
section
/-! DEFINITION. Bank select: TAM (spec/42_bank_select.md R160, R161). -/

namespace Sys2Proof.Machine

/-- MPR[i] takes a value for every set bit i of a mask (R160). -/
def Mprs.setMasked (m : Mprs) (mask v : Byte) : Mprs where
  m0 := if mask.getLsbD 0 then v else m.m0
  m1 := if mask.getLsbD 1 then v else m.m1
  m2 := if mask.getLsbD 2 then v else m.m2
  m3 := if mask.getLsbD 3 then v else m.m3
  m4 := if mask.getLsbD 4 then v else m.m4
  m5 := if mask.getLsbD 5 then v else m.m5
  m6 := if mask.getLsbD 6 then v else m.m6
  m7 := if mask.getLsbD 7 then v else m.m7

/-- TAM #mask (R160). -/
def execTamMask (mask : Byte) (s : State) : Host.Outcome State Fault Refusal :=
  withOperand 0x53#8 .imm (zeroExtend16 mask) s fun o s =>
    let r := readOperand o s
    .next (r.2.setCpu { r.2.cpu with mpr := r.2.cpu.mpr.setMasked r.1 r.2.cpu.a })

end Sys2Proof.Machine
end

