-- ==== Sys2Proof/Machine/BlockTransfer.lean ====
section
/-! DEFINITION. Block transfer: TII (spec/44_block_transfer.md R175 to R179). -/

namespace Sys2Proof.Machine

/-- The copy loop of R175: plain reads and writes, both addresses rising and wrapping. -/
def copyBlock : Nat → Word → Word → State → State
  | 0, _, _, s => s
  | n + 1, src, dst, s =>
    let r := memRead src s
    copyBlock n (src + 1#16) (dst + 1#16) (memWrite dst r.1 r.2)

/-- The three pushes of R177: Y, then A, then X. -/
def pushYAX (s : State) : State := push s.cpu.x (push s.cpu.a (push s.cpu.y s))

/-- The three pops of R177: X, then A, then Y. -/
def popXAY (s : State) : (Byte × Byte × Byte) × State :=
  let px := pop s
  let pa := pop px.2
  let py := pop pa.2
  ((px.1, pa.1, py.1), py.2)

/-- The TiiBreakdown diagnostic of R179, from clk.counter before and after the copy and now; the overhead counts from the
instruction's first fetch (log entry 18). -/
def tiiReport (before after : Nat) (s : State) : State :=
  diag .info (.tiiBreakdown (after - before) (s.clk.counter - s.pre - (after - before))) s

/-- TII src,dst,len (R175): `len - 1` bytes are copied; a zero length and a clobbered stack are refused as R176 and R178
say. -/
def execTii (src dst len : Word) (s : State) : Host.Outcome State Fault Refusal :=
  if len = 0#16 then .refused (.tiiZeroLength (s.setRefused .tiiZeroLength))
  else
    let s1 := pushYAX s
    let s2 := copyBlock (len.toNat - 1) src dst s1
    let r := popXAY s2
    if r.1 = (s.cpu.x, s.cpu.a, s.cpu.y) then
      .next (tiiReport s1.clk.counter s2.clk.counter
        (r.2.setCpu { r.2.cpu with x := r.1.1, a := r.1.2.1, y := r.1.2.2 }))
    else .refused (.tiiStackClobber (r.2.setRefused .tiiStackClobber))

end Sys2Proof.Machine
end

