-- ==== Sys2Proof/Machine/Branch.lean ====
section
/-! DEFINITION. Relative branches: BEQ, BRA (spec/46_branch.md R190 to R192). -/

namespace Sys2Proof.Machine

/-- A taken branch (R192): the bare penalty ticks, then PC moves by the signed displacement. -/
def branchTaken (d : Byte) (s : State) : State :=
  let s' := ticks s.params.branchTakenTicks s
  setPC (s'.cpu.pc + signExtend16 d) s'

/-- BEQ rel (R190). -/
def execBeqRel (d : Byte) (s : State) : Host.Outcome State Fault Refusal :=
  .next (if s.cpu.p.z then branchTaken d s else s)

/-- BRA rel (R191). -/
def execBraRel (d : Byte) (s : State) : Host.Outcome State Fault Refusal := .next (branchTaken d s)

end Sys2Proof.Machine
end

