-- ==== Sys2Proof/Machine/Compare.lean ====
section
/-! DEFINITION. Compare: CMP (spec/45_compare.md R185). -/

namespace Sys2Proof.Machine

/-- CMP in any mode (R185): the flags of A against the operand; A is unchanged. -/
def compareA (op : Byte) (m : Mode) (raw : Word) (s : State) : Host.Outcome State Fault Refusal :=
  withOperand op m raw s fun o s =>
    let r := readOperand o s
    .next (r.2.setCpu { r.2.cpu with p := r.2.cpu.p.compare r.2.cpu.a r.1 })

/-- CMP #imm (R185). -/
def execCmpImm (v : Byte) (s : State) : Host.Outcome State Fault Refusal := compareA 0xC9#8 .imm (zeroExtend16 v) s

/-- CMP zp (R185). -/
def execCmpZp (z : Byte) (s : State) : Host.Outcome State Fault Refusal := compareA 0xC5#8 .zp (zeroExtend16 z) s

/-- CMP zp,X (R185). -/
def execCmpZpX (z : Byte) (s : State) : Host.Outcome State Fault Refusal := compareA 0xD5#8 .zpx (zeroExtend16 z) s

/-- CMP abs (R185). -/
def execCmpAbs (a : Word) (s : State) : Host.Outcome State Fault Refusal := compareA 0xCD#8 .abs a s

/-- CMP abs,X (R185). -/
def execCmpAbsX (a : Word) (s : State) : Host.Outcome State Fault Refusal := compareA 0xDD#8 .absx a s

/-- CMP abs,Y (R185). -/
def execCmpAbsY (a : Word) (s : State) : Host.Outcome State Fault Refusal := compareA 0xD9#8 .absy a s

end Sys2Proof.Machine
end

