-- ==== Sys2Proof/Machine/FlagMode.lean ====
section
/-! DEFINITION. Flag, mode and register instructions: SEI, CSH, CSL, CLD, CLA, CLX, INX, TXS
(spec/47_flag_mode.md R200 to R208). -/

namespace Sys2Proof.Machine

/-- The common form of R200: one dummy read at PC, then a change of the register file. -/
def implied (f : Cpu → Cpu) (s : State) : State :=
  let s' := dummyImplied s
  s'.setCpu (f s'.cpu)

/-- SEI (R201). -/
def execSei (s : State) : Host.Outcome State Fault Refusal :=
  .next (implied (fun c => { c with p := { c.p with i := true } }) s)

/-- CSH (R202). -/
def execCsh (s : State) : Host.Outcome State Fault Refusal := .next (implied (fun c => { c with fast := true }) s)

/-- CSL (R203). -/
def execCsl (s : State) : Host.Outcome State Fault Refusal := .next (implied (fun c => { c with fast := false }) s)

/-- CLD (R204). -/
def execCld (s : State) : Host.Outcome State Fault Refusal :=
  .next (implied (fun c => { c with p := { c.p with d := false } }) s)

/-- CLA (R205). -/
def execCla (s : State) : Host.Outcome State Fault Refusal := .next (implied (fun c => { c with a := 0x00#8 }) s)

/-- CLX (R206). -/
def execClx (s : State) : Host.Outcome State Fault Refusal := .next (implied (fun c => { c with x := 0x00#8 }) s)

/-- INX (R207): Z and N follow when INX_SETS_NZ. -/
def execInx (s : State) : Host.Outcome State Fault Refusal :=
  .next (implied (fun c =>
    { c with x := c.x + 1#8, p := if s.params.inxSetsNz then c.p.setNZ (c.x + 1#8) else c.p }) s)

/-- TXS (R208). -/
def execTxs (s : State) : Host.Outcome State Fault Refusal := .next (implied (fun c => { c with sp := c.x }) s)

end Sys2Proof.Machine
end

