-- ==== Sys2Proof/Machine/LoadStore.lean ====
section
/-! DEFINITION. Loads and stores: LDA, LDX, STA, STZ (spec/41_load_store.md R140 to R146). -/

namespace Sys2Proof.Machine

/-- LDA in any mode (R140): A takes the operand, which sets Z and N. -/
def loadA (op : Byte) (m : Mode) (raw : Word) (s : State) : Host.Outcome State Fault Refusal :=
  withOperand op m raw s fun o s =>
    let r := readOperand o s
    .next (setNZ r.1 (r.2.setCpu { r.2.cpu with a := r.1 }))

/-- LDX in any mode (R141): X takes the operand, which sets Z and N. -/
def loadX (op : Byte) (m : Mode) (raw : Word) (s : State) : Host.Outcome State Fault Refusal :=
  withOperand op m raw s fun o s =>
    let r := readOperand o s
    .next (setNZ r.1 (r.2.setCpu { r.2.cpu with x := r.1 }))

/-- STA and STZ in any mode (R145, R146): a byte goes to the operand with the dummy read before it. -/
def store (op : Byte) (m : Mode) (raw : Word) (v : Byte) (s : State) : Host.Outcome State Fault Refusal :=
  withOperand op m raw s fun o s => writeOperand op o v s

/-- LDA #imm (R140). -/
def execLdaImm (v : Byte) (s : State) : Host.Outcome State Fault Refusal := loadA 0xA9#8 .imm (zeroExtend16 v) s

/-- LDA zp (R140). -/
def execLdaZp (z : Byte) (s : State) : Host.Outcome State Fault Refusal := loadA 0xA5#8 .zp (zeroExtend16 z) s

/-- LDA zp,X (R140). -/
def execLdaZpX (z : Byte) (s : State) : Host.Outcome State Fault Refusal := loadA 0xB5#8 .zpx (zeroExtend16 z) s

/-- LDA abs (R140). -/
def execLdaAbs (a : Word) (s : State) : Host.Outcome State Fault Refusal := loadA 0xAD#8 .abs a s

/-- LDA abs,X (R140). -/
def execLdaAbsX (a : Word) (s : State) : Host.Outcome State Fault Refusal := loadA 0xBD#8 .absx a s

/-- LDA abs,Y (R140). -/
def execLdaAbsY (a : Word) (s : State) : Host.Outcome State Fault Refusal := loadA 0xB9#8 .absy a s

/-- LDX #imm (R141). -/
def execLdxImm (v : Byte) (s : State) : Host.Outcome State Fault Refusal := loadX 0xA2#8 .imm (zeroExtend16 v) s

/-- LDX zp (R141). -/
def execLdxZp (z : Byte) (s : State) : Host.Outcome State Fault Refusal := loadX 0xA6#8 .zp (zeroExtend16 z) s

/-- LDX zp,Y (R141). -/
def execLdxZpY (z : Byte) (s : State) : Host.Outcome State Fault Refusal := loadX 0xB6#8 .zpy (zeroExtend16 z) s

/-- LDX abs (R141). -/
def execLdxAbs (a : Word) (s : State) : Host.Outcome State Fault Refusal := loadX 0xAE#8 .abs a s

/-- LDX abs,Y (R141). -/
def execLdxAbsY (a : Word) (s : State) : Host.Outcome State Fault Refusal := loadX 0xBE#8 .absy a s

/-- STA zp (R145). -/
def execStaZp (z : Byte) (s : State) : Host.Outcome State Fault Refusal := store 0x85#8 .zp (zeroExtend16 z) s.cpu.a s

/-- STA zp,X (R145). -/
def execStaZpX (z : Byte) (s : State) : Host.Outcome State Fault Refusal := store 0x95#8 .zpx (zeroExtend16 z) s.cpu.a s

/-- STA abs (R145). -/
def execStaAbs (a : Word) (s : State) : Host.Outcome State Fault Refusal := store 0x8D#8 .abs a s.cpu.a s

/-- STA abs,X (R145). -/
def execStaAbsX (a : Word) (s : State) : Host.Outcome State Fault Refusal := store 0x9D#8 .absx a s.cpu.a s

/-- STA abs,Y (R145). -/
def execStaAbsY (a : Word) (s : State) : Host.Outcome State Fault Refusal := store 0x99#8 .absy a s.cpu.a s

/-- STZ zp (R146). -/
def execStzZp (z : Byte) (s : State) : Host.Outcome State Fault Refusal := store 0x64#8 .zp (zeroExtend16 z) 0x00#8 s

/-- STZ zp,X (R146). -/
def execStzZpX (z : Byte) (s : State) : Host.Outcome State Fault Refusal := store 0x74#8 .zpx (zeroExtend16 z) 0x00#8 s

/-- STZ abs (R146). -/
def execStzAbs (a : Word) (s : State) : Host.Outcome State Fault Refusal := store 0x9C#8 .abs a 0x00#8 s

/-- STZ abs,X (R146). -/
def execStzAbsX (a : Word) (s : State) : Host.Outcome State Fault Refusal := store 0x9E#8 .absx a 0x00#8 s

end Sys2Proof.Machine
end

