-- ==== Sys2Proof/Machine/Subroutine.lean ====
section
/-! DEFINITION. Subroutine call and return: JSR, RTS (spec/43_subroutine.md R165 to R168). -/

namespace Sys2Proof.Machine

/-- JSR abs (R166): push the address of the last byte of the JSR, go to the target. -/
def execJsrAbs (target : Word) (s : State) : Host.Outcome State Fault Refusal :=
  .next (setPC target (pushReturn (s.cpu.pc - 1#16) s))

/-- RTS (R167). -/
def execRts (s : State) : Host.Outcome State Fault Refusal :=
  .next (setPC ((popReturn s).1 + 1#16) (popReturn s).2)

end Sys2Proof.Machine
end

