-- ==== Sys2Proof/Machine/Dispatch.lean ====
section
/-! DEFINITION. Dispatch (step 5 of spec/40_execute_loop.md R111): one arm per instruction form. -/

namespace Sys2Proof.Machine

/-- Run an instruction's handler after its bytes have been fetched (R116). -/
def exec (i : Instr) (s : State) : Host.Outcome State Fault Refusal :=
  match i with
  | .jsrAbs target => Sys2Proof.Machine.execJsrAbs target s
  | .tamMask mask => Sys2Proof.Machine.execTamMask mask s
  | .csl => Sys2Proof.Machine.execCsl s
  | .rts => Sys2Proof.Machine.execRts s
  | .cla => Sys2Proof.Machine.execCla s
  | .stzZp z => Sys2Proof.Machine.execStzZp z s
  | .tii src dst len => Sys2Proof.Machine.execTii src dst len s
  | .stzZpX z => Sys2Proof.Machine.execStzZpX z s
  | .sei => Sys2Proof.Machine.execSei s
  | .braRel d => Sys2Proof.Machine.execBraRel d s
  | .clx => Sys2Proof.Machine.execClx s
  | .staZp z => Sys2Proof.Machine.execStaZp z s
  | .staAbs a => Sys2Proof.Machine.execStaAbs a s
  | .staZpX z => Sys2Proof.Machine.execStaZpX z s
  | .staAbsY a => Sys2Proof.Machine.execStaAbsY a s
  | .txs => Sys2Proof.Machine.execTxs s
  | .stzAbs a => Sys2Proof.Machine.execStzAbs a s
  | .staAbsX a => Sys2Proof.Machine.execStaAbsX a s
  | .stzAbsX a => Sys2Proof.Machine.execStzAbsX a s
  | .ldxImm v => Sys2Proof.Machine.execLdxImm v s
  | .ldaZp z => Sys2Proof.Machine.execLdaZp z s
  | .ldxZp z => Sys2Proof.Machine.execLdxZp z s
  | .ldaImm v => Sys2Proof.Machine.execLdaImm v s
  | .ldaAbs a => Sys2Proof.Machine.execLdaAbs a s
  | .ldxAbs a => Sys2Proof.Machine.execLdxAbs a s
  | .ldaZpX z => Sys2Proof.Machine.execLdaZpX z s
  | .ldxZpY z => Sys2Proof.Machine.execLdxZpY z s
  | .ldaAbsY a => Sys2Proof.Machine.execLdaAbsY a s
  | .ldaAbsX a => Sys2Proof.Machine.execLdaAbsX a s
  | .ldxAbsY a => Sys2Proof.Machine.execLdxAbsY a s
  | .cmpZp z => Sys2Proof.Machine.execCmpZp z s
  | .cmpImm v => Sys2Proof.Machine.execCmpImm v s
  | .cmpAbs a => Sys2Proof.Machine.execCmpAbs a s
  | .csh => Sys2Proof.Machine.execCsh s
  | .cmpZpX z => Sys2Proof.Machine.execCmpZpX z s
  | .cld => Sys2Proof.Machine.execCld s
  | .cmpAbsY a => Sys2Proof.Machine.execCmpAbsY a s
  | .cmpAbsX a => Sys2Proof.Machine.execCmpAbsX a s
  | .inx => Sys2Proof.Machine.execInx s
  | .beqRel d => Sys2Proof.Machine.execBeqRel d s

end Sys2Proof.Machine
end

