-- ==== Sys2Proof/WellFormed.lean ====
section
/-! DEFINITION. When an instruction is well formed. Its operands have the widths of the encoding by their types, so the
one check is OPCODE_SET: the form must be a defined row of the table in force (spec/30_encoding.md R96). -/

namespace Sys2Proof

/-- The rows R96 marks "shown": the 15 forms that the source names itself. -/
def Instr.isShown : Instr → Bool
  | .jsrAbs _ | .tamMask _ | .csl | .rts | .cla | .tii _ _ _ | .sei | .braRel _ | .clx | .txs | .ldaImm _ | .csh
  | .cld | .inx | .beqRel _ => true
  | .stzZp _ | .stzZpX _ | .staZp _ | .staAbs _ | .staZpX _ | .staAbsY _ | .stzAbs _ | .staAbsX _ | .stzAbsX _
  | .ldxImm _ | .ldaZp _ | .ldxZp _ | .ldaAbs _ | .ldxAbs _ | .ldaZpX _ | .ldxZpY _ | .ldaAbsY _ | .ldaAbsX _
  | .ldxAbsY _ | .cmpZp _ | .cmpImm _ | .cmpAbs _ | .cmpZpX _ | .cmpAbsY _ | .cmpAbsX _ => false

/-- An instruction is well formed under an OPCODE_SET when that set defines its row (R96). -/
def Instr.wellFormed (set : OpcodeSet) (i : Instr) : Bool :=
  match set with
  | .all => true
  | .shown => i.isShown

end Sys2Proof
end

