-- ==== Sys2Proof/Decode.lean ====
section
/-! DEFINITION. The opcode descriptor table, the decoder and the encoder (spec/30_encoding.md R90 to R99;
spec/opcode_table.json). -/

namespace Sys2Proof

/-- How many operand bytes follow the opcode byte (R90, R91). -/
def Mode.operandBytes : Mode → Nat
  | .imp => 0
  | .imm | .zp | .zpx | .zpy | .rel => 1
  | .abs | .absx | .absy => 2
  | .blk => 6

/-- A descriptor (R94): mnemonic, addressing-mode tag, opcode byte, reference cycle count, whether the source names
the form ("shown", R96), and the instruction that the operand bytes make (none for a wrong number of bytes). -/
structure Row where
  mnemonic : String
  mode : Mode
  opcode : Byte
  ref : Nat
  shown : Bool
  build : List Byte → Option Instr

/-- An instruction without operand bytes. -/
def buildImplied (i : Instr) : List Byte → Option Instr
  | [] => some i
  | _ => none

/-- An instruction with one operand byte. -/
def buildByte (f : Byte → Instr) : List Byte → Option Instr
  | [b] => some (f b)
  | _ => none

/-- An instruction with one little-endian 16-bit operand (R92, spec/20_memory.md R73). -/
def buildWord (f : Word → Instr) : List Byte → Option Instr
  | [lo, hi] => some (f (Machine.wordOf hi lo))
  | _ => none

/-- The block transfer's three little-endian operands (R92). -/
def buildBlock (f : Word → Word → Word → Instr) : List Byte → Option Instr
  | [sl, sh, dl, dh, nl, nh] => some (f (Machine.wordOf sh sl) (Machine.wordOf dh dl) (Machine.wordOf nh nl))
  | _ => none

/-- Rows 0x20 to 0x85 of R96. -/
def rowsLow : List Row := [
  ⟨"JSR_abs", .abs, 0x20#8, 5, true, buildWord .jsrAbs⟩,
  ⟨"TAM__mask", .imm, 0x53#8, 2, true, buildByte .tamMask⟩,
  ⟨"CSL", .imp, 0x54#8, 0, true, buildImplied .csl⟩,
  ⟨"RTS", .imp, 0x60#8, 3, true, buildImplied .rts⟩,
  ⟨"CLA", .imp, 0x62#8, 2, true, buildImplied .cla⟩,
  ⟨"STZ_zp", .zp, 0x64#8, 4, false, buildByte .stzZp⟩,
  ⟨"TII_src_dst_len", .blk, 0x73#8, 0, true, buildBlock .tii⟩,
  ⟨"STZ_zp_X", .zpx, 0x74#8, 4, false, buildByte .stzZpX⟩,
  ⟨"SEI", .imp, 0x78#8, 2, true, buildImplied .sei⟩,
  ⟨"BRA_rel", .rel, 0x80#8, 0, true, buildByte .braRel⟩,
  ⟨"CLX", .imp, 0x82#8, 2, true, buildImplied .clx⟩,
  ⟨"STA_zp", .zp, 0x85#8, 4, false, buildByte .staZp⟩]

/-- Rows 0x8D to 0xA9 of R96. -/
def rowsMiddle : List Row := [
  ⟨"STA_abs", .abs, 0x8D#8, 5, false, buildWord .staAbs⟩,
  ⟨"STA_zp_X", .zpx, 0x95#8, 4, false, buildByte .staZpX⟩,
  ⟨"STA_abs_Y", .absy, 0x99#8, 5, false, buildWord .staAbsY⟩,
  ⟨"TXS", .imp, 0x9A#8, 2, true, buildImplied .txs⟩,
  ⟨"STZ_abs", .abs, 0x9C#8, 5, false, buildWord .stzAbs⟩,
  ⟨"STA_abs_X", .absx, 0x9D#8, 5, false, buildWord .staAbsX⟩,
  ⟨"STZ_abs_X", .absx, 0x9E#8, 5, false, buildWord .stzAbsX⟩,
  ⟨"LDX__imm", .imm, 0xA2#8, 2, false, buildByte .ldxImm⟩,
  ⟨"LDA_zp", .zp, 0xA5#8, 3, false, buildByte .ldaZp⟩,
  ⟨"LDX_zp", .zp, 0xA6#8, 3, false, buildByte .ldxZp⟩,
  ⟨"LDA__imm", .imm, 0xA9#8, 2, true, buildByte .ldaImm⟩]

/-- Rows 0xAD to 0xC9 of R96. -/
def rowsUpper : List Row := [
  ⟨"LDA_abs", .abs, 0xAD#8, 4, false, buildWord .ldaAbs⟩,
  ⟨"LDX_abs", .abs, 0xAE#8, 4, false, buildWord .ldxAbs⟩,
  ⟨"LDA_zp_X", .zpx, 0xB5#8, 3, false, buildByte .ldaZpX⟩,
  ⟨"LDX_zp_Y", .zpy, 0xB6#8, 3, false, buildByte .ldxZpY⟩,
  ⟨"LDA_abs_Y", .absy, 0xB9#8, 4, false, buildWord .ldaAbsY⟩,
  ⟨"LDA_abs_X", .absx, 0xBD#8, 4, false, buildWord .ldaAbsX⟩,
  ⟨"LDX_abs_Y", .absy, 0xBE#8, 4, false, buildWord .ldxAbsY⟩,
  ⟨"CMP_zp", .zp, 0xC5#8, 3, false, buildByte .cmpZp⟩,
  ⟨"CMP__imm", .imm, 0xC9#8, 2, false, buildByte .cmpImm⟩]

/-- Rows 0xCD to 0xF0 of R96. -/
def rowsHigh : List Row := [
  ⟨"CMP_abs", .abs, 0xCD#8, 4, false, buildWord .cmpAbs⟩,
  ⟨"CSH", .imp, 0xD4#8, 0, true, buildImplied .csh⟩,
  ⟨"CMP_zp_X", .zpx, 0xD5#8, 3, false, buildByte .cmpZpX⟩,
  ⟨"CLD", .imp, 0xD8#8, 2, true, buildImplied .cld⟩,
  ⟨"CMP_abs_Y", .absy, 0xD9#8, 4, false, buildWord .cmpAbsY⟩,
  ⟨"CMP_abs_X", .absx, 0xDD#8, 4, false, buildWord .cmpAbsX⟩,
  ⟨"INX", .imp, 0xE8#8, 2, true, buildImplied .inx⟩,
  ⟨"BEQ_rel", .rel, 0xF0#8, 0, true, buildByte .beqRel⟩]

/-- The descriptor table (R96), never mutated (R94, spec/10_state.md R45). -/
def opcodeTable : List Row := rowsLow ++ rowsMiddle ++ rowsUpper ++ rowsHigh

/-- The descriptor of an opcode byte under an OPCODE_SET; none is an unknown opcode (R96, R98). -/
def lookup (set : OpcodeSet) (op : Byte) : Option Row :=
  opcodeTable.find? fun r => r.opcode == op && (set == .all || r.shown)

/-- Why bytes are not an instruction. -/
inductive Reject where
  /-- There is no opcode byte. -/
  | noByte
  /-- The opcode byte has no row in the table in force (R98). -/
  | unknownOpcode (op : Byte)
  /-- Fewer bytes follow the opcode than its format takes (R90). -/
  | truncated (op : Byte)
  deriving DecidableEq, Repr

/-- The decoder (R93): look the opcode byte up and read exactly the operand bytes that its format gives. -/
def decode (set : OpcodeSet) : List Byte → Except Reject (Instr × List Byte)
  | [] => .error .noByte
  | op :: bs =>
    match lookup set op with
    | none => .error (.unknownOpcode op)
    | some r =>
      match r.build (bs.take r.mode.operandBytes) with
      | none => .error (.truncated op)
      | some i => .ok (i, bs.drop r.mode.operandBytes)

/-- The two bytes of a 16-bit operand, low byte first (R92, spec/20_memory.md R73). -/
def wordBytes (w : Word) : List Byte := [Machine.loByte w, Machine.hiByte w]

/-- The encoder, written from R91 and R96. -/
def encode : Instr → List Byte
  | .jsrAbs t => 0x20#8 :: wordBytes t
  | .tamMask m => [0x53#8, m]
  | .csl => [0x54#8]
  | .rts => [0x60#8]
  | .cla => [0x62#8]
  | .stzZp z => [0x64#8, z]
  | .tii s d n => 0x73#8 :: (wordBytes s ++ wordBytes d ++ wordBytes n)
  | .stzZpX z => [0x74#8, z]
  | .sei => [0x78#8]
  | .braRel d => [0x80#8, d]
  | .clx => [0x82#8]
  | .staZp z => [0x85#8, z]
  | .staAbs a => 0x8D#8 :: wordBytes a
  | .staZpX z => [0x95#8, z]
  | .staAbsY a => 0x99#8 :: wordBytes a
  | .txs => [0x9A#8]
  | .stzAbs a => 0x9C#8 :: wordBytes a
  | .staAbsX a => 0x9D#8 :: wordBytes a
  | .stzAbsX a => 0x9E#8 :: wordBytes a
  | .ldxImm v => [0xA2#8, v]
  | .ldaZp z => [0xA5#8, z]
  | .ldxZp z => [0xA6#8, z]
  | .ldaImm v => [0xA9#8, v]
  | .ldaAbs a => 0xAD#8 :: wordBytes a
  | .ldxAbs a => 0xAE#8 :: wordBytes a
  | .ldaZpX z => [0xB5#8, z]
  | .ldxZpY z => [0xB6#8, z]
  | .ldaAbsY a => 0xB9#8 :: wordBytes a
  | .ldaAbsX a => 0xBD#8 :: wordBytes a
  | .ldxAbsY a => 0xBE#8 :: wordBytes a
  | .cmpZp z => [0xC5#8, z]
  | .cmpImm v => [0xC9#8, v]
  | .cmpAbs a => 0xCD#8 :: wordBytes a
  | .csh => [0xD4#8]
  | .cmpZpX z => [0xD5#8, z]
  | .cld => [0xD8#8]
  | .cmpAbsY a => 0xD9#8 :: wordBytes a
  | .cmpAbsX a => 0xDD#8 :: wordBytes a
  | .inx => [0xE8#8]
  | .beqRel d => [0xF0#8, d]

/-- The length in bytes of the longest instruction, TII (R90). -/
def maxInstrBytes : Nat := 7

/-- The bytes of an instruction given as one number: bit 0 is the least significant bit of the first byte and every
bit from `nbits` on is 0. -/
def tableWordBytes (nbits w : Nat) : List Byte :=
  (List.range maxInstrBytes).map fun k => BitVec.ofNat 8 ((w % 2 ^ nbits) >>> (8 * k))

/-- The instruction the decoder reads from bits numbered as spec/opcode_table.json numbers them. -/
def decodeTableWord (nbits w : Nat) : Option Instr :=
  match decode .all (tableWordBytes nbits w) with
  | .ok (i, _) => some i
  | .error _ => none

end Sys2Proof
end

