-- ==== Sys2Proof/Machine/Fetch.lean ====
section
/-! DEFINITION. The parts of Step around the handler (spec/40_execute_loop.md R110 to R118): when no step is taken, step
1, the fetch with steps 2 to 4, and steps 6 and 7. -/

namespace Sys2Proof.Machine

/-- The states in which Run takes no further step (R110; spec/20_memory.md R53; spec/60_exceptions.md R220, R228). -/
def stopped (s : State) : Option (Host.Outcome State Fault Refusal) :=
  if s.clk.halted then some (.fault (.halted s))
  else if s.fault.isSome then some (.fault (.alreadyFaulted s))
  else if s.refused.isSome then some (.refused (.alreadyRefused s))
  else none

/-- Step 1 (R111). -/
def beginInstr (s : State) : State :=
  (s.setCpu { s.cpu with instrPC := s.cpu.pc }).setPre s.clk.counter s.clk.extra

/-- Step 4 (R115): clear the Memory flag. -/
def clearT (s : State) : State := s.setCpu { s.cpu with p := { s.cpu.p with t := false } }

/-- What fetching an instruction gives. -/
inductive Fetched where
  /-- The opcode byte has no row (R114): the machine after the fault is raised. -/
  | unknown (s : State)
  /-- A descriptor, the instruction, and the machine with all its bytes fetched. -/
  | got (row : Row) (i : Instr) (s : State)

/-- Steps 2 to 4, and the operand fetches that every handler begins with (R111, R113 to R116; log entry 13). The operand
bytes are as many as the row's format takes, so `build` answers an instruction. -/
def fetchInstr (s : State) : Fetched :=
  let op := fetchByte s
  match lookup s.params.opcodeSet op.1 with
  | none => .unknown (raiseFault .unknownOpcode (.opcode op.1) op.2)
  | some row =>
    let bytes := fetchBytes row.mode.operandBytes (clearT op.2)
    match row.build bytes.1 with
    | none => .unknown (raiseFault .unknownOpcode (.opcode op.1) bytes.2)
    | some i => .got row i bytes.2

/-- `CycleCheck(d, consumed)` (R118), a diagnostic only. -/
def cycleCheck (row : Row) (consumed : Nat) (s : State) : State :=
  let expected := row.ref * 3 * (if s.cpu.fast then 1 else 4)
  if consumed = expected then s
  else diag .warning (.cycleMismatch row.opcode s.cpu.instrPC consumed expected) s

/-- `consumed` of step 6 (R111, R117): the ticks of the instruction less its control-page wait ticks. -/
def consumedTicks (s : State) : Nat := s.clk.counter - s.pre - (s.clk.extra - s.extraPre)

/-- Steps 6 and 7 (R117, R118). -/
def finishInstr (row : Row) (s : State) : State :=
  let s' := s.setClk { s.clk with extra := 0 }
  if row.ref = 0 then s' else cycleCheck row (consumedTicks s) s'

/-- A state in which a fault has been raised stops the step (R220); only the unreachable BAD_SUBREGION comes this way (log
entry 15). -/
def settle (s : State) : Host.Outcome State Fault Refusal :=
  match s.fault with
  | none => .next s
  | some r => .fault (Fault.ofCode r.code s)

/-- What follows the handler: steps 6 and 7, unless a fault or a refusal ended the step (R111). -/
def complete (row : Row) : Host.Outcome State Fault Refusal → Host.Outcome State Fault Refusal
  | .next s => settle (finishInstr row s)
  | .fault f => .fault f
  | .refused r => .refused r

/-- Map a window to RAM. -/
def Mprs.setWindow (m : Mprs) (i : BitVec 3) (v : Byte) : Mprs :=
  match i.toNat with
  | 0 => { m with m0 := v }
  | 1 => { m with m1 := v }
  | 2 => { m with m2 := v }
  | 3 => { m with m3 := v }
  | 4 => { m with m4 := v }
  | 5 => { m with m5 := v }
  | 6 => { m with m6 := v }
  | _ => { m with m7 := v }

/-- The host's load of one byte at a logical address: into ROM or RAM where the window maps one, else into RAM with the
window mapped to bank 0xF8 (log entry 12). -/
def placeByte (la : Word) (b : Byte) (s : State) : State :=
  let pa := mapAddress s.cpu.mpr la
  match regionOf (bankOf pa) with
  | .rom => s.setMem (s.mem.write pa.toNat b)
  | .ram => s.setMem (s.mem.write (ramKey (offsetOf pa)) b)
  | .openBus | .controlPage =>
    (s.setMem (s.mem.write (ramKey (windowOffset la)) b)).setCpu
      { s.cpu with mpr := s.cpu.mpr.setWindow (windowOf la) 0xF8#8 }

/-- The host's load of bytes at rising logical addresses. -/
def placeBytes : Word → List Byte → State → State
  | _, [], s => s
  | la, b :: bs, s => placeBytes (la + 1#16) bs (placeByte la b s)

/-- The host's load makes the machine runnable: not stopped, and no interrupt line enabled (log entry 12). -/
def makeRunnable (s : State) : State :=
  { s with
    clk := { s.clk with halted := false }
    fault := none
    refused := none
    irq := if (dueLine (pollLines s)).isSome then { s.irq with enabled := 0b000#3 } else s.irq }

end Sys2Proof.Machine
end

