-- ==== Sys2Proof/Machine/Reset.lean ====
section
/-! DEFINITION. Reset for every value of the parameters that the spec leaves open (spec/70_reset_and_hazards.md R270). -/

namespace Sys2Proof.Machine

/-- The parameters of R270: RESET_A to RESET_N, MPR_INIT[0..6], LATCH_INIT, TIMER_RELOAD_INIT, TIMER_COUNTER_INIT, and
ROM_IMAGE with RAM_INIT as one memory. -/
structure ResetParams where
  a : Byte
  x : Byte
  y : Byte
  sp : Byte
  c : Bool
  z : Bool
  b : Bool
  v : Bool
  n : Bool
  /-- MPR_INIT[0..6]; its m7 is not used. -/
  mprInit : Mprs
  latch : Byte
  timerReload : Nat
  timerCounter : Nat
  mem : Memory
  params : Params
  deriving DecidableEq, Repr

/-- R270 up to the vector fetch; PC and InstrPC are not yet set. -/
def resetRegisters (r : ResetParams) : State where
  cpu := {
    a := r.a
    x := r.x
    y := r.y
    sp := r.sp
    pc := 0#16
    instrPC := 0#16
    p := { c := r.c, z := r.z, i := true, d := false, b := r.b, t := false, v := r.v, n := r.n }
    fast := false
    mpr := { r.mprInit with m7 := 0x00#8 } }
  clk := { counter := 0, extra := 0, halted := false, suppress := 0 }
  latch := r.latch
  tmr := { reload := r.timerReload, current := r.timerCounter, enabled := false, acc := 0, coarse := 0 }
  irq := { enabled := 0b000#3, pending := 0b000#3 }
  mem := r.mem
  fault := none
  refused := none
  events := []
  pre := 0
  extraPre := 0
  draws := 0
  params := r.params

/-- The vector fetch of R270: the low byte, then the high byte. -/
def fetchVector (s : State) : Word × State :=
  let lo := memRead 0xFFFE#16 s
  let hi := memRead 0xFFFF#16 lo.2
  (wordOf hi.1 lo.1, hi.2)

/-- `Reset()` (R270): the registers, then the vector fetch under Suppress. -/
def resetWith (r : ResetParams) : State :=
  let v := suppressed fetchVector (resetRegisters r)
  v.2.setCpu { v.2.cpu with pc := v.1, instrPC := v.1 }

/-- The parameter values behind `State.reset` (log entries 1 to 4). -/
def ResetParams.default : ResetParams where
  a := 0#8
  x := 0#8
  y := 0#8
  sp := 0#8
  c := false
  z := false
  b := false
  v := false
  n := false
  mprInit := { m0 := 0#8, m1 := 0#8, m2 := 0#8, m3 := 0#8, m4 := 0#8, m5 := 0#8, m6 := 0#8, m7 := 0#8 }
  latch := 0#8
  timerReload := 1
  timerCounter := 0
  mem := []
  params := Params.default

end Sys2Proof.Machine
end

