-- ==== Sys2Proof/Machine/Step.lean ====
section
/-! DEFINITION. One step of the machine: `Step()` of spec/40_execute_loop.md R111, and the host's load of an
instruction. -/

namespace Sys2Proof.Machine

/-- `Step()` (R111). -/
def step (s : State) : Host.Outcome State Fault Refusal :=
  match stopped s with
  | some o => o
  | none =>
    match dueLine (pollLines s) with
    | some l => settle (takeInterrupt l (pollLines s))
    | none =>
      match fetchInstr (beginInstr (pollLines s)) with
      | .unknown s' => .fault (.unknownOpcode s')
      | .got row i s' => complete row (exec i s')

/-- The state with an instruction loaded where `step` fetches next (log entry 12). -/
def State.withFetchWord (s : State) (nbits w : Nat) : State :=
  placeBytes s.cpu.pc (tableWordBytes nbits w) (makeRunnable s)

end Sys2Proof.Machine
end

