-- ==== Sys2Proof/Safety.lean ====
section
/-! DEFINITION. What counts as a safe run, the machine's invariant, and the vocabulary in which claims are stated: regions
and costs of an access, what passing time may change, and each form's operand written from spec/30_encoding.md R92. -/

namespace Sys2Proof.Machine

/-! ## Runs -/

/-- The machine can take a step: not halted, no fault, no refusal (spec/40_execute_loop.md R110). -/
abbrev State.Running (s : State) : Prop := s.clk.halted = false ∧ s.fault = none ∧ s.refused = none

/-- A boundary with BRA * at PC and nothing wrong, where a test program can end successfully (spec/60_exceptions.md
R252). Every later pass of the same loop is such a boundary too; the end of a run is the first, `EndsSuccessfully`. What an
EXT_DEVICE byte reads as here is the model's choice (log entry 23). -/
abbrev State.AtBraSelf (s : State) : Prop := s.Running ∧ peekPair s.cpu.pc s = (0x80#8, 0xFE#8)

/-- `t` is reached from `s` by steps that each give a next state. -/
inductive Reaches (s : State) : State → Prop where
  | here : Reaches s s
  | after (t u : State) (h : Reaches s t) (hstep : step t = .next u) : Reaches s u

/-- `t` is reached from `s` with no boundary before `t` at a BRA *. -/
inductive ReachesUnended (s : State) : State → Prop where
  | here : ReachesUnended s s
  | after (t u : State) (h : ReachesUnended s t) (hgo : ¬ t.AtBraSelf) (hstep : step t = .next u) : ReachesUnended s u

/-- The run from `s` ends successfully at `t` (spec/60_exceptions.md R252): `t` is its first boundary at a BRA * with no
fault and no refusal. -/
def EndsSuccessfully (s t : State) : Prop := ReachesUnended s t ∧ t.AtBraSelf

/-- A safe run from `s`: no step of it stops with a fault or a refusal. -/
def SafeFrom (s : State) : Prop := ∀ t, Reaches s t → ∃ u, step t = .next u

/-- The timer's ranges (spec/10_state.md R42). -/
abbrev Timer.InRange (t : Timer) : Prop :=
  1 ≤ t.reload ∧ t.reload ≤ 128 ∧ t.current ≤ 128 ∧ t.acc < Config.timerPrescale ∧ t.coarse < Config.timerQuantum

/-- What holds at every instruction boundary of a run: memory is canonical and lists only bytes that exist; the timer is
in range; clk.extra and clk.suppress are 0 (spec/10_state.md R38, R40); P.T is clear (R32); nothing is pending when
interrupts are not delivered (R43); nothing has stopped the machine. -/
structure State.Inv (s : State) : Prop where
  memWf : s.mem.wf
  memInSpace : s.mem.inSpace
  timer : s.tmr.InRange
  extra : s.clk.extra = 0
  suppress : s.clk.suppress = 0
  memoryFlag : s.cpu.p.t = false
  pending : s.params.irqExtension = .none → s.irq.pending = 0b000#3
  running : s.Running

/-! ## Accesses -/

/-- The region that a logical address reaches (spec/20_memory.md R56, R57). -/
def regionAt (s : State) (la : Word) : Region := regionOf (bankOf (mapAddress s.cpu.mpr la))

/-- The offset inside the bank that a logical address reaches. -/
def offsetAt (s : State) (la : Word) : BankOffset := offsetOf (mapAddress s.cpu.mpr la)

/-- The control-page wait of an access (spec/20_memory.md R61). -/
def waitCost (s : State) (la : Word) : Nat := if regionAt s la = .controlPage then s.params.cpWaitTicks else 0

/-- The ticks of one access (spec/20_memory.md R58, R61). -/
def accessCost (s : State) (la : Word) : Nat := waitCost s la + accessTicks s.cpu.fast

/-- The memory key that a write to a logical address stores to, if it stores to memory at all: only RAM does
(spec/20_memory.md R57). -/
def storedKey (s : State) (la : Word) : Option Nat :=
  if regionAt s la = .ram then some (ramKey (offsetAt s la)) else none

/-- How many of `n` ticks the Clock counts: none inside a Suppress scope (spec/20_memory.md R50). -/
def counted (s : State) (n : Nat) : Nat := if s.clk.suppress = 0 then n else 0

/-! ## What time and reading may change -/

/-- The Clock, the timer and the interrupt controller of `t` are those of `s` after `n` ticks, `w` of them control-page
waits: nothing else has touched them. -/
structure Elapsed (n w : Nat) (s t : State) : Prop where
  clk : t.clk = { s.clk with counter := s.clk.counter + counted s n, extra := s.clk.extra + counted s w }
  tmr : t.tmr = (ticks n s).tmr
  irq : t.irq = (ticks n s).irq

/-- No fault, no refusal, no parameter and no local of Step has changed. -/
structure SameBook (s t : State) : Prop where
  fault : t.fault = s.fault
  refused : t.refused = s.refused
  pre : t.pre = s.pre
  extraPre : t.extraPre = s.extraPre
  params : t.params = s.params

/-- The frame of everything that only reads: every byte of memory, the latch and the bookkeeping are unchanged, and the
Clock, the timer and the interrupt controller have only seen time pass. -/
structure ReadFrame (n w : Nat) (s t : State) : Prop extends Elapsed n w s t, SameBook s t where
  mem : ∀ k, t.mem.read k = s.mem.read k
  latch : t.latch = s.latch

/-- A logical address reaches a register of the control page: region `sub`, mirrored offset `w` (spec/20_memory.md R66,
R67). -/
abbrev reachesRegister (s : State) (la : Word) (sub period w : Nat) : Prop :=
  regionAt s la = .controlPage ∧ (offsetAt s la).toNat / 1024 = sub ∧ (offsetAt s la).toNat % period = w

/-- The frame of a store of `v` to the logical address `la` with its dummy read first (spec/40_execute_loop.md R122):
which byte of memory, which latch, timer and interrupt register it writes, and that nothing else changes but by time. -/
structure StoreFrame (la : Word) (v : Byte) (s t : State) : Prop extends SameBook s t where
  cpu : t.cpu = s.cpu
  mem : ∀ k, t.mem.read k = if storedKey s la = some k then v else s.mem.read k
  latch : t.latch = if regionAt s la = .controlPage ∧ inLatchRange (offsetAt s la) = true then v else s.latch
  clk : t.clk =
    { s.clk with
      counter := s.clk.counter + counted s (2 * accessCost s la)
      extra := s.clk.extra + counted s (2 * waitCost s la) }
  reload : t.tmr.reload = if reachesRegister s la 3 2 0 then (v &&& 0x7F#8).toNat + 1 else s.tmr.reload
  timerEnabled : t.tmr.enabled = if reachesRegister s la 3 2 1 then v.getLsbD 0 else s.tmr.enabled
  irqEnabled : t.irq.enabled = if reachesRegister s la 5 4 2 then v.setWidth 3 else s.irq.enabled
  pending : s.params.irqExtension = .none →
    t.irq.pending = if reachesRegister s la 5 4 3 then 0b000#3 else s.irq.pending
  time : ¬ reachesRegister s la 3 2 1 → ¬ reachesRegister s la 3 2 0 →
    t.tmr = (ticks (2 * accessCost s la) s).tmr

/-! ## Operands, form by form (spec/30_encoding.md R92) -/

/-- The operand of an LDA form (spec/41_load_store.md R140). -/
def ldaOperand (c : Cpu) : Instr → Option Operand
  | .ldaImm v => some (.imm v)
  | .ldaZp z => some (.addr (zpAddr z))
  | .ldaZpX z => some (.addr (zpAddr (z + c.x)))
  | .ldaAbs a => some (.addr a)
  | .ldaAbsX a => some (.addr (a + zeroExtend16 c.x))
  | .ldaAbsY a => some (.addr (a + zeroExtend16 c.y))
  | _ => none

/-- The operand of an LDX form (spec/41_load_store.md R141). -/
def ldxOperand (c : Cpu) : Instr → Option Operand
  | .ldxImm v => some (.imm v)
  | .ldxZp z => some (.addr (zpAddr z))
  | .ldxZpY z => some (.addr (zpAddr (z + c.y)))
  | .ldxAbs a => some (.addr a)
  | .ldxAbsY a => some (.addr (a + zeroExtend16 c.y))
  | _ => none

/-- The operand of a CMP form (spec/45_compare.md R185). -/
def cmpOperand (c : Cpu) : Instr → Option Operand
  | .cmpImm v => some (.imm v)
  | .cmpZp z => some (.addr (zpAddr z))
  | .cmpZpX z => some (.addr (zpAddr (z + c.x)))
  | .cmpAbs a => some (.addr a)
  | .cmpAbsX a => some (.addr (a + zeroExtend16 c.x))
  | .cmpAbsY a => some (.addr (a + zeroExtend16 c.y))
  | _ => none

/-- The address that an STA form stores to (spec/41_load_store.md R145). -/
def staAddress (c : Cpu) : Instr → Option Word
  | .staZp z => some (zpAddr z)
  | .staZpX z => some (zpAddr (z + c.x))
  | .staAbs a => some a
  | .staAbsX a => some (a + zeroExtend16 c.x)
  | .staAbsY a => some (a + zeroExtend16 c.y)
  | _ => none

/-- The address that an STZ form stores to (spec/41_load_store.md R146). -/
def stzAddress (c : Cpu) : Instr → Option Word
  | .stzZp z => some (zpAddr z)
  | .stzZpX z => some (zpAddr (z + c.x))
  | .stzAbs a => some a
  | .stzAbsX a => some (a + zeroExtend16 c.x)
  | _ => none

/-- The change an implied instruction makes to the register file (spec/47_flag_mode.md R201 to R208); INX follows the
parameter INX_SETS_NZ. -/
def impliedChange (inxSetsNz : Bool) (c : Cpu) : Instr → Option Cpu
  | .sei => some { c with p := { c.p with i := true } }
  | .csh => some { c with fast := true }
  | .csl => some { c with fast := false }
  | .cld => some { c with p := { c.p with d := false } }
  | .cla => some { c with a := 0x00#8 }
  | .clx => some { c with x := 0x00#8 }
  | .txs => some { c with sp := c.x }
  | .inx =>
    some { c with
      x := c.x + 1#8
      p := if inxSetsNz then { c.p with z := c.x + 1#8 == 0#8, n := (c.x + 1#8).getLsbD 7 } else c.p }
  | _ => none

/-- The value of an operand: the immediate, or the byte that the bus answers (spec/40_execute_loop.md R121). -/
def operandValue (s : State) : Operand → Byte
  | .imm v => v
  | .addr a => (memRead a s).1

/-- The ticks of reading an operand. -/
def operandCost (s : State) : Operand → Nat
  | .imm _ => 0
  | .addr a => accessCost s a

/-- The control-page wait ticks of reading an operand. -/
def operandWait (s : State) : Operand → Nat
  | .imm _ => 0
  | .addr a => waitCost s a

/-- The logical addresses that a handler accesses after the instruction's bytes are fetched, in order (the Accesses line of
each instruction rule, spec/40_execute_loop.md R116, R128). `pc` is the PC after those fetches. -/
def handlerAccesses (c : Cpu) : Instr → List Word
  | .ldaZp z | .ldxZp z | .cmpZp z => [zpAddr z]
  | .ldaZpX z | .cmpZpX z => [zpAddr (z + c.x)]
  | .ldxZpY z => [zpAddr (z + c.y)]
  | .ldaAbs a | .ldxAbs a | .cmpAbs a => [a]
  | .ldaAbsX a | .cmpAbsX a => [a + zeroExtend16 c.x]
  | .ldaAbsY a | .ldxAbsY a | .cmpAbsY a => [a + zeroExtend16 c.y]
  | .staZp z | .stzZp z => [zpAddr z, zpAddr z]
  | .staZpX z | .stzZpX z => [zpAddr (z + c.x), zpAddr (z + c.x)]
  | .staAbs a | .stzAbs a => [a, a]
  | .staAbsX a | .stzAbsX a => [a + zeroExtend16 c.x, a + zeroExtend16 c.x]
  | .staAbsY a => [a + zeroExtend16 c.y, a + zeroExtend16 c.y]
  | .jsrAbs _ => [stackAddr c.sp, stackAddr (c.sp - 1#8)]
  | .rts => [stackAddr (c.sp + 1#8), stackAddr (c.sp + 2#8)]
  | .tii src dst len =>
    [stackAddr c.sp, stackAddr (c.sp - 1#8), stackAddr (c.sp - 2#8)]
      ++ (List.range (len.toNat - 1)).flatMap (fun k => [src + BitVec.ofNat 16 k, dst + BitVec.ofNat 16 k])
      ++ [stackAddr (c.sp - 2#8), stackAddr (c.sp - 1#8), stackAddr c.sp]
  | .sei | .csh | .csl | .cld | .cla | .clx | .inx | .txs => [c.pc]
  | .ldaImm _ | .ldxImm _ | .cmpImm _ | .tamMask _ | .beqRel _ | .braRel _ => []

/-- The bare ticks of a taken branch (spec/46_branch.md R192). -/
def branchTicks (s : State) : Instr → Nat
  | .braRel _ => s.params.branchTakenTicks
  | .beqRel _ => if s.cpu.p.z then s.params.branchTakenTicks else 0
  | _ => 0

/-- The ticks of a handler: its accesses and the branch penalty, and nothing else (spec/40_execute_loop.md R127). -/
def handlerCost (s : State) (i : Instr) : Nat :=
  ((handlerAccesses s.cpu i).map (accessCost s)).sum + branchTicks s i

/-- The control-page wait ticks of a handler. -/
def handlerWait (s : State) (i : Instr) : Nat := ((handlerAccesses s.cpu i).map (waitCost s)).sum

/-! ## Pure memory effects -/

/-- The memory after a write of one byte at a logical address, as far as memory goes. -/
def storeMem (s : State) (m : Memory) (la : Word) (v : Byte) : Memory :=
  match storedKey s la with
  | some k => m.write k v
  | none => m

/-- The byte at a logical address in a memory, where the address reaches ROM, RAM or open bus. -/
def loadMem (s : State) (m : Memory) (la : Word) : Byte :=
  match regionAt s la with
  | .rom => m.read (mapAddress s.cpu.mpr la).toNat
  | .ram => m.read (ramKey (offsetAt s la))
  | .openBus | .controlPage => Config.openBusValue

/-- The block copy of spec/44_block_transfer.md R175 on memory alone: one byte after another, both addresses rising. -/
def copyMem (s : State) : Nat → Word → Word → Memory → Memory
  | 0, _, _, m => m
  | n + 1, src, dst, m => copyMem s n (src + 1#16) (dst + 1#16) (storeMem s m dst (loadMem s m src))

/-- The memory after TII's three pushes (spec/44_block_transfer.md R177). -/
def pushedMem (s : State) : Memory :=
  storeMem s (storeMem s (storeMem s s.mem (stackAddr s.cpu.sp) s.cpu.y) (stackAddr (s.cpu.sp - 1#8)) s.cpu.a)
    (stackAddr (s.cpu.sp - 2#8)) s.cpu.x

/-! ## Events -/

/-- The outcome with every event log emptied, to compare runs up to diagnostics (spec/60_exceptions.md R229). -/
def State.quiet (s : State) : State := { s with events := [] }

/-- `State.quiet` on the state that a fault carries. -/
def Fault.quiet : Fault → Fault
  | .unknownOpcode s => .unknownOpcode s.quiet
  | .badSubregion s => .badSubregion s.quiet
  | .writeImmediate s => .writeImmediate s.quiet
  | .unsupportedMode s => .unsupportedMode s.quiet
  | .alreadyFaulted s => .alreadyFaulted s.quiet
  | .halted s => .halted s.quiet

/-- `State.quiet` on the state that a refusal carries; the one without a state, never answered here, is kept. -/
def Refusal.quiet : Refusal → Refusal
  | .tiiZeroLength s => .tiiZeroLength s.quiet
  | .tiiStackClobber s => .tiiStackClobber s.quiet
  | .alreadyRefused s => .alreadyRefused s.quiet
  | r => r

/-- `State.quiet` on an outcome. -/
def quietOutcome : Host.Outcome State Fault Refusal → Host.Outcome State Fault Refusal
  | .next s => .next s.quiet
  | .fault f => .fault f.quiet
  | .refused r => .refused r.quiet

end Sys2Proof.Machine
end

