-- ==== Sys2Proof/Certificates/Slice0/Obligations.lean ====
section
/-! DEFINITION. The statements for the provers: what the spec's rules say the machine does, one definition each. -/

open Sys2Proof Sys2Proof.Machine

/-! ## Encoding -/

/-- Decoding an encoded well-formed instruction gives it back, with the bytes after it untouched, for every form and every
operand value (spec/30_encoding.md R90 to R93, R96).
The opcode bytes and the operand byte order are the spec's own decisions D6 and D12. -/
def Obligations.DecodeOfEncodeIsTheInstruction : Prop :=
  ∀ (set : OpcodeSet) (i : Instr) (rest : List Byte), i.wellFormed set = true →
    decode set (encode i ++ rest) = .ok (i, rest)

/-- Whatever the decoder accepts is the encoding of a well-formed instruction followed by the rest: no two byte strings
decode alike (spec/30_encoding.md R93, R96). The opcode bytes are the spec's own decision D12. -/
def Obligations.DecodedBytesAreTheEncoding : Prop :=
  ∀ (set : OpcodeSet) (bs rest : List Byte) (i : Instr), decode set bs = .ok (i, rest) →
    bs = encode i ++ rest ∧ i.wellFormed set = true

/-- A byte has a row under ALL exactly when it is one of the 40 bytes of R96, and under SHOWN exactly when it is one of the
15 bytes R96 marks shown; any other byte is rejected as an unknown opcode, whatever follows it (R98).
The set of forms and their bytes are the spec's own decisions D11 and D12. -/
def Obligations.OpcodeMapIsExactlyTheTable : Prop :=
  (∀ op : Byte, (lookup .all op).isSome = true ↔
    op ∈ ([0x20#8, 0x53#8, 0x54#8, 0x60#8, 0x62#8, 0x64#8, 0x73#8, 0x74#8, 0x78#8, 0x80#8, 0x82#8, 0x85#8, 0x8D#8,
      0x95#8, 0x99#8, 0x9A#8, 0x9C#8, 0x9D#8, 0x9E#8, 0xA2#8, 0xA5#8, 0xA6#8, 0xA9#8, 0xAD#8, 0xAE#8, 0xB5#8, 0xB6#8,
      0xB9#8, 0xBD#8, 0xBE#8, 0xC5#8, 0xC9#8, 0xCD#8, 0xD4#8, 0xD5#8, 0xD8#8, 0xD9#8, 0xDD#8, 0xE8#8, 0xF0#8] :
        List Byte)) ∧
  (∀ op : Byte, (lookup .shown op).isSome = true ↔
    op ∈ ([0x20#8, 0x53#8, 0x54#8, 0x60#8, 0x62#8, 0x73#8, 0x78#8, 0x80#8, 0x82#8, 0x9A#8, 0xA9#8, 0xD4#8, 0xD8#8,
      0xE8#8, 0xF0#8] : List Byte)) ∧
  (∀ (set : OpcodeSet) (op : Byte) (rest : List Byte), lookup set op = none →
    decode set (op :: rest) = .error (.unknownOpcode op))

/-- A few words written out from R96 and R101 decode to the instructions they stand for.
The bytes are the spec's own decision D12. -/
def Obligations.SampleEncodingsDecode : Prop :=
  decode .all [0xE8#8] = .ok (.inx, []) ∧
  decode .all [0xA9#8, 0x42#8] = .ok (.ldaImm 0x42#8, []) ∧
  decode .all [0x8D#8, 0x10#8, 0x20#8] = .ok (.staAbs 0x2010#16, []) ∧
  decode .all [0xB6#8, 0x10#8] = .ok (.ldxZpY 0x10#8, []) ∧
  decode .all [0xBD#8, 0x00#8, 0xE1#8] = .ok (.ldaAbsX 0xE100#16, []) ∧
  decode .all [0x80#8, 0xFE#8] = .ok (.braRel 0xFE#8, []) ∧
  decode .all [0x53#8, 0x02#8] = .ok (.tamMask 0x02#8, []) ∧
  decode .all [0x73#8, 0x00#8, 0xE0#8, 0x00#8, 0x22#8, 0x04#8, 0x00#8]
    = .ok (.tii 0xE000#16 0x2200#16 0x0004#16, []) ∧
  decode .all [0xFF#8] = .error (.unknownOpcode 0xFF#8) ∧
  decode .shown [0x85#8, 0x10#8] = .error (.unknownOpcode 0x85#8)

/-! ## Mapping, regions, accesses -/

/-- MapAddress (spec/20_memory.md R56): the physical address is the bank that the window's MPR holds, times 8192, plus the
address's low 13 bits; each of the eight windows reads its own MPR; and an access uses the MPRs of the state it is made in.
The last clause says so through the whole access of R59: that the ticks follow the dispatch is the spec's own decision D2, that
the wait comes before it D3. -/
def Obligations.MapAddressUsesTheWindowsMpr : Prop :=
  (∀ (m : Mprs) (la : Word),
    (mapAddress m la).toNat = (m.get (windowOf la)).toNat * 8192 + la.toNat % 8192 ∧
    (windowOf la).toNat = la.toNat / 8192) ∧
  (∀ m : Mprs, m.get 0#3 = m.m0 ∧ m.get 1#3 = m.m1 ∧ m.get 2#3 = m.m2 ∧ m.get 3#3 = m.m3 ∧ m.get 4#3 = m.m4 ∧
    m.get 5#3 = m.m5 ∧ m.get 6#3 = m.m6 ∧ m.get 7#3 = m.m7) ∧
  (∀ (k : Access) (la : Word) (v : Byte) (s : State), access k la v s =
    ((dispatch k (mapAddress s.cpu.mpr la) v (accessWait (mapAddress s.cpu.mpr la) s)).1,
      ticks (accessTicks s.cpu.fast)
        (dispatch k (mapAddress s.cpu.mpr la) v (accessWait (mapAddress s.cpu.mpr la) s)).2))

/-- The physical map (spec/20_memory.md R57): what an access does at its dispatch, by the bank `pa[20:13]`. -/
def Obligations.DispatchFollowsThePhysicalMap : Prop :=
  ∀ (pa : PhysAddr) (v : Byte) (s : State),
    ((bankOf pa).toNat ≤ 0x7F →
      dispatch .read pa v s = (s.mem.read pa.toNat, s) ∧ (dispatch .write pa v s).2 = s) ∧
    (0x80 ≤ (bankOf pa).toNat ∧ (bankOf pa).toNat ≤ 0xF7 →
      dispatch .read pa v s = (0xFF#8, s) ∧ (dispatch .write pa v s).2 = s) ∧
    (0xF8 ≤ (bankOf pa).toNat ∧ (bankOf pa).toNat ≤ 0xFB →
      dispatch .read pa v s = (s.mem.read (ramBase + (offsetOf pa).toNat), s) ∧
      (dispatch .write pa v s).2 = s.setMem (s.mem.write (ramBase + (offsetOf pa).toNat) v)) ∧
    (0xFC ≤ (bankOf pa).toNat ∧ (bankOf pa).toNat ≤ 0xFE →
      dispatch .read pa v s = (0xFF#8, s) ∧ (dispatch .write pa v s).2 = s) ∧
    ((bankOf pa).toNat = 0xFF →
      dispatch .read pa v s = controlPage .read (offsetOf pa) v s ∧
      dispatch .write pa v s = controlPage .write (offsetOf pa) v s)

/-- The access procedure (spec/20_memory.md R59): the wait ticks of bank 0xFF, then the dispatch, then the access ticks, 3
in fast mode and 12 in slow mode; the MPRs and the speed are those at the start; a write answers 0.
The order of the ticks is the spec's own decision D2, the wait its decision D3. -/
def Obligations.AccessWaitsThenDispatchesThenTicks : Prop :=
  ∀ (k : Access) (la : Word) (v : Byte) (s : State),
    (bankOf (mapAddress s.cpu.mpr la) = 0xFF#8 →
      access k la v s =
        ((controlPage k (windowOffset la) v (waitTicks s.params.cpWaitTicks s)).1,
          ticks (if s.cpu.fast then 3 else 12)
            (controlPage k (windowOffset la) v (waitTicks s.params.cpWaitTicks s)).2)) ∧
    (bankOf (mapAddress s.cpu.mpr la) ≠ 0xFF#8 →
      access k la v s =
        ((dispatch k (mapAddress s.cpu.mpr la) v s).1,
          ticks (if s.cpu.fast then 3 else 12) (dispatch k (mapAddress s.cpu.mpr la) v s).2)) ∧
    (access .write la v s).1 = 0#8

/-- The cost of an access (spec/20_memory.md R58, R60, R61): outside a Suppress scope clk.counter grows by 3 or 12 ticks, and
by CP_WAIT_TICKS more in bank 0xFF, which clk.extra counts; inside one neither moves (R52).
That these are all the ticks of an access is the spec's own decision D1, the wait its decision D3. -/
def Obligations.AccessCostsItsTicks : Prop :=
  ∀ (k : Access) (la : Word) (v : Byte) (s : State),
    (s.clk.suppress = 0 →
      (access k la v s).2.clk =
        { s.clk with
          counter := s.clk.counter + (if s.cpu.fast then 3 else 12)
            + (if bankOf (mapAddress s.cpu.mpr la) = 0xFF#8 then s.params.cpWaitTicks else 0)
          extra := s.clk.extra
            + (if bankOf (mapAddress s.cpu.mpr la) = 0xFF#8 then s.params.cpWaitTicks else 0) }) ∧
    (s.clk.suppress ≠ 0 → (access k la v s).2.clk = s.clk)

/-- A RAM byte reads back what was last written to its offset, from any of the four banks, and no other RAM offset changes
(spec/20_memory.md R63). -/
def Obligations.RamReadsBackThroughEveryMirror : Prop :=
  ∀ (la la' : Word) (v : Byte) (s : State), regionAt s la = .ram → regionAt s la' = .ram →
    (memRead la' (memWrite la v s)).1 = if windowOffset la' = windowOffset la then v else (memRead la' s).1

/-- ROM and open bus (spec/20_memory.md R62, R64): a write is discarded and only costs its ticks; open bus reads 0xFF and ROM the
image's byte, each again only costing its ticks: the access is not logged and does not fault.
That the ROM byte of a physical address is the image's byte at that offset is the spec's own decision D31. -/
def Obligations.RomAndOpenBusDiscardWrites : Prop :=
  ∀ (la : Word) (v : Byte) (s : State),
    (regionAt s la = .openBus →
      memRead la s = (0xFF#8, ticks (accessTicks s.cpu.fast) s) ∧
      memWrite la v s = ticks (accessTicks s.cpu.fast) s) ∧
    (regionAt s la = .rom →
      memRead la s = (s.mem.read (mapAddress s.cpu.mpr la).toNat, ticks (accessTicks s.cpu.fast) s) ∧
      memWrite la v s = ticks (accessTicks s.cpu.fast) s ∧
      (memRead la (memWrite la v s)).1 = (memRead la s).1)

/-- A store of one byte keeps memory canonical and within the space, and a read of memory after it sees that byte and no
other change, in every memory. The key under which a RAM byte is listed is the model's choice (log entry 14). -/
def Obligations.MemoryWritesKeepTheCanonicalForm : Prop :=
  (∀ (la : Word) (v : Byte) (s : State), s.mem.wf → s.mem.inSpace →
    (memWrite la v s).mem.wf ∧ (memWrite la v s).mem.inSpace) ∧
  (∀ (la : Word) (v : Byte) (s : State) (k : Nat),
    (memWrite la v s).mem.read k = if storedKey s la = some k then v else s.mem.read k)

/-! ## The control page -/

/-- The latch (spec/20_memory.md R69): a write to offsets 0x0800 to 0x17FF of bank 0xFF sets it whichever sub-device handles
the write; no other write and no read changes it. The range is the spec's own decision D21. -/
def Obligations.LatchTakesWritesInItsRange : Prop :=
  ∀ (off : BankOffset) (v : Byte) (s : State),
    (controlPage .write off v s).2.latch =
      (if 0x0800 ≤ off.toNat ∧ off.toNat ≤ 0x17FF then v else s.latch) ∧
    (controlPage .read off v s).2.latch = s.latch

/-- The unimplemented regions (spec/20_memory.md R72) and interrupt-controller offsets 0 and 1 (spec/60_exceptions.md R242): a
read returns 0xFF, a write does nothing but the latch update, each access is diagnosed.
The regions and offsets 0 and 1 are the spec's own decisions D19 and D23. -/
def Obligations.UnimplementedRegionsReadFF : Prop :=
  ∀ (off : BankOffset) (v : Byte) (s : State) (sub w : Nat),
    (off.toNat / 1024 = sub ∧ (sub = 2 ∨ sub = 4 ∨ sub = 6 ∨ sub = 7) ∧ w = off.toNat % 1024) ∨
      (off.toNat / 1024 = 5 ∧ sub = 5 ∧ w = off.toNat % 4 ∧ w < 2) →
    controlPage .read off v s = (0xFF#8, s.emit (.diag .warning (.notImplemented sub w))) ∧
    (controlPage .write off v s).2 =
      (if 0x0800 ≤ off.toNat ∧ off.toNat ≤ 0x17FF then s.setLatch v else s).emit
        (.diag .warning (.notImplemented sub w))

/-- EXT_DEVICE (spec/20_memory.md R70): reads of Sub 0 and Sub 1 answer a free value and are recorded with their device and
mirrored register; writes are recorded; the core keeps nothing else of them. The value is a draw: the statement holds for
every one (log entry 5).
The regions and the mirroring are the spec's own decisions D19 and D20; the event's form is the model's (log entry 9). -/
def Obligations.ExternalAccessesAreRecorded : Prop :=
  ∀ (off : BankOffset) (v : Byte) (s : State),
    (off.toNat / 1024 = 0 →
      (controlPage .read off v s).2 =
        s.countDraw.emit (.extRead .vdc (off.toNat % 4) (controlPage .read off v s).1) ∧
      (controlPage .write off v s).2 = s.emit (.extWrite .vdc (off.toNat % 4) v)) ∧
    (off.toNat / 1024 = 1 →
      (controlPage .read off v s).2 =
        s.countDraw.emit (.extRead .vce (off.toNat % 8) (controlPage .read off v s).1) ∧
      (controlPage .write off v s).2 = s.emit (.extWrite .vce (off.toNat % 8) v))

/-- The timer's registers (spec/60_exceptions.md R233, R234) at every mirror of Sub 3 (spec/20_memory.md R67).
The region, the mirroring, the read of offset 1 and the prescaler's reset are the spec's own decisions D19, D20, D22 and D24. -/
def Obligations.TimerRegisters : Prop :=
  ∀ (off : BankOffset) (v : Byte) (s : State), off.toNat / 1024 = 3 →
    (off.toNat % 2 = 0 →
      controlPage .read off v s = ((BitVec.ofNat 8 s.tmr.current &&& 0x7F#8) ||| (s.latch &&& 0x80#8), s) ∧
      (controlPage .write off v s).2 =
        (s.setLatch v).setTmr { s.tmr with reload := (v &&& 0x7F#8).toNat + 1 }) ∧
    (off.toNat % 2 = 1 →
      controlPage .read off v s = ((if s.tmr.enabled then 1#8 else 0#8) ||| (s.latch &&& 0x80#8), s) ∧
      (controlPage .write off v s).2 =
        (s.setLatch v).setTmr
          { s.tmr with enabled := v.getLsbD 0, current := s.tmr.reload, acc := 0, coarse := 0 })

/-- The interrupt controller's registers (spec/60_exceptions.md R238 to R241) at every mirror of Sub 5.
The region and the mirroring are the spec's own decisions D19 and D20. -/
def Obligations.InterruptControllerRegisters : Prop :=
  ∀ (off : BankOffset) (v : Byte) (s : State), off.toNat / 1024 = 5 →
    (off.toNat % 4 = 2 →
      controlPage .read off v s = ((s.irq.enabled.setWidth 8 &&& 0x07#8) ||| (s.latch &&& 0xF8#8), s) ∧
      (controlPage .write off v s).2 =
        (s.setLatch v).setIrq { s.irq with enabled := (v &&& 0x07#8).setWidth 3 }) ∧
    (off.toNat % 4 = 3 →
      controlPage .read off v s = ((s.irq.pending.setWidth 8 &&& 0x07#8) ||| (s.latch &&& 0xF8#8), s) ∧
      (controlPage .write off v s).2 = (s.setLatch v).setIrq { s.irq with pending := 0b000#3 })

/-! ## Time -/

/-- `TimerStep()` (spec/60_exceptions.md R231): a counter at 0 reloads and, under VECTORED, sets pending line 2 (R236); any other
counter decrements; TimerTick is emitted. The step at 0 and the pending line are the spec's own decisions D25 and D26. -/
def Obligations.TimerStepReloadsAtZero : Prop :=
  ∀ s : State,
    (s.tmr.current = 0 → (timerStep s).tmr = { s.tmr with current := s.tmr.reload } ∧
      (timerStep s).irq.enabled = s.irq.enabled ∧
      (timerStep s).irq.pending =
        (if s.params.irqExtension = .vectored then s.irq.pending ||| 0b100#3 else s.irq.pending)) ∧
    (s.tmr.current ≠ 0 → (timerStep s).tmr = { s.tmr with current := s.tmr.current - 1 } ∧
      (timerStep s).irq = s.irq) ∧
    (timerStep s).events = .diag .info .timerTick :: s.events

/-- Ticks before the end of a quantum move only the prescaler, and the tick that ends it makes one TimerStep
(spec/60_exceptions.md R230, R235): with the phase `3 * coarse + acc`, the step comes exactly `3072 - phase` ticks on.
The step at 0 is the spec's own decision D25. -/
def Obligations.TimerStepsOncePerQuantum : Prop :=
  ∀ (n : Nat) (s : State), s.clk.suppress = 0 → s.tmr.enabled = true → s.tmr.acc < 3 → s.tmr.coarse < 1024 →
    (3 * s.tmr.coarse + s.tmr.acc + n < 3072 →
      (ticks n s).tmr = { s.tmr with
        acc := (3 * s.tmr.coarse + s.tmr.acc + n) % 3
        coarse := (3 * s.tmr.coarse + s.tmr.acc + n) / 3 } ∧
      (ticks n s).irq = s.irq ∧ (ticks n s).events = s.events) ∧
    (3 * s.tmr.coarse + s.tmr.acc + n = 3072 →
      (ticks n s).tmr = { s.tmr with
        acc := 0
        coarse := 0
        current := if s.tmr.current = 0 then s.tmr.reload else s.tmr.current - 1 } ∧
      (ticks n s).events = .diag .info .timerTick :: s.events)

/-- A timer just enabled comes back to the same state every (R + 1) × 3072 ticks, where R is the reload value
(spec/60_exceptions.md R235). The spec derives the period itself, from R230, R231 and R234. -/
def Obligations.TimerPeriodIsReloadPlusOneQuanta : Prop :=
  ∀ s : State, s.clk.suppress = 0 → s.tmr.enabled = true → s.tmr.acc = 0 → s.tmr.coarse = 0 →
    s.tmr.current = s.tmr.reload → (ticks ((s.tmr.reload + 1) * 3072) s).tmr = s.tmr

/-- A disabled timer and a suppressed Clock stand still (spec/20_memory.md R50, R52; spec/60_exceptions.md R230, R235): a disabled
timer's ticks only count on clk.counter, and suppressed ticks do nothing at all.
That a disabled timer's prescaler stands still is the spec's own decision D24. -/
def Obligations.DisabledTimerAndSuppressedClockStandStill : Prop :=
  ∀ (n : Nat) (s : State),
    (s.clk.suppress = 0 → s.tmr.enabled = false →
      ticks n s = s.setClk { s.clk with counter := s.clk.counter + n }) ∧
    (s.clk.suppress ≠ 0 → ticks n s = s)

/-! ## Loads, stores, compare -/

/-- `SetNZ(v)` (spec/41_load_store.md R142): Z is set exactly when v = 0, N is bit 7 of v, and no other flag changes. -/
def Obligations.SetNzSetsZeroAndNegativeOnly : Prop :=
  ∀ (p : Flags) (v : Byte),
    ((p.setNZ v).z = true ↔ v = 0#8) ∧ (p.setNZ v).n = v.getLsbD 7 ∧
    (p.setNZ v).c = p.c ∧ (p.setNZ v).i = p.i ∧ (p.setNZ v).d = p.d ∧ (p.setNZ v).b = p.b ∧
    (p.setNZ v).t = p.t ∧ (p.setNZ v).v = p.v

/-- LDA in all six forms (spec/41_load_store.md R140): it completes; A takes the operand, Z and N follow it, no other register or
flag changes, and the frame of a read holds: one access for an address, none for an immediate.
The zero page's place and the wraps are the spec's own decisions D7 and D10. -/
def Obligations.LdaLoadsItsOperand : Prop :=
  ∀ (i : Instr) (o : Operand) (s : State), ldaOperand s.cpu i = some o →
    ∃ t, exec i s = .next t ∧
      t.cpu = { s.cpu with
        a := operandValue s o
        p := { s.cpu.p with z := operandValue s o == 0#8, n := (operandValue s o).getLsbD 7 } } ∧
      ReadFrame (operandCost s o) (operandWait s o) s t

/-- LDX in all five forms (spec/41_load_store.md R141): as LDA, into X.
The zero page's place and the wraps are the spec's own decisions D7 and D10. -/
def Obligations.LdxLoadsItsOperand : Prop :=
  ∀ (i : Instr) (o : Operand) (s : State), ldxOperand s.cpu i = some o →
    ∃ t, exec i s = .next t ∧
      t.cpu = { s.cpu with
        x := operandValue s o
        p := { s.cpu.p with z := operandValue s o == 0#8, n := (operandValue s o).getLsbD 7 } } ∧
      ReadFrame (operandCost s o) (operandWait s o) s t

/-- STA in all five forms (spec/41_load_store.md R145): it completes with the dummy read and then the write of A at the form's
address; no register and no flag changes, and the frame of a store holds.
The zero page's place and the wraps are the spec's own decisions D7 and D10. -/
def Obligations.StaStoresTheAccumulator : Prop :=
  ∀ (i : Instr) (a : Word) (s : State), staAddress s.cpu i = some a →
    ∃ t, exec i s = .next t ∧ t = memWrite a s.cpu.a (memRead a s).2 ∧ StoreFrame a s.cpu.a s t

/-- STZ in all four forms (spec/41_load_store.md R146): as STA, with the byte 0x00; Z is not set.
The zero page's place and the wraps are the spec's own decisions D7 and D10. -/
def Obligations.StzStoresZero : Prop :=
  ∀ (i : Instr) (a : Word) (s : State), stzAddress s.cpu i = some a →
    ∃ t, exec i s = .next t ∧ t = memWrite a 0x00#8 (memRead a s).2 ∧ StoreFrame a 0x00#8 s t

/-- CMP in all six forms (spec/45_compare.md R185): it completes; C is A ≥ v unsigned, Z is A = v, N is bit 7 of A - v; A, V and
every other register and flag are unchanged, and the frame of a read holds.
The zero page's place and the wraps are the spec's own decisions D7 and D10. -/
def Obligations.CmpSetsCarryZeroNegative : Prop :=
  ∀ (i : Instr) (o : Operand) (s : State), cmpOperand s.cpu i = some o →
    ∃ t, exec i s = .next t ∧
      t.cpu = { s.cpu with
        p := { s.cpu.p with
          c := decide ((operandValue s o).toNat ≤ s.cpu.a.toNat)
          z := s.cpu.a == operandValue s o
          n := (s.cpu.a - operandValue s o).getLsbD 7 } } ∧
      ReadFrame (operandCost s o) (operandWait s o) s t

/-- The laws of the compare flags (spec/45_compare.md R186): Z implies C, and C with Z excludes N.
The spec derives these laws itself, from R185. -/
def Obligations.CompareFlagTriplesExcluded : Prop :=
  ∀ (p : Flags) (a v : Byte),
    ¬ ((p.compare a v).c = false ∧ (p.compare a v).z = true) ∧
    ¬ ((p.compare a v).c = true ∧ (p.compare a v).z = true ∧ (p.compare a v).n = true) ∧
    ((p.compare a v).z = true ↔ a - v = 0#8) ∧
    ((p.compare a v).c = true ↔ a.toNat = v.toNat + (a - v).toNat)

/-! ## Bank select -/

/-- TAM (spec/42_bank_select.md R160): it completes; MPR[i] takes A for every set bit i of the mask and keeps its value for every
clear bit; nothing else changes but the event log, which records the operand's source.
That the mask is an immediate is the spec's own decision D17. -/
def Obligations.TamLoadsTheMaskedMprs : Prop :=
  ∀ (mask : Byte) (s : State), ∃ t, exec (.tamMask mask) s = .next t ∧
    (∀ i : BitVec 3, t.cpu.mpr.get i = if mask.getLsbD i.toNat then s.cpu.a else s.cpu.mpr.get i) ∧
    t = { s with
      cpu := { s.cpu with mpr := t.cpu.mpr }
      events := .diag .info (.operandSource (.imm mask)) :: s.events }

/-! ## Stack and subroutines -/

/-- `Push(v)` and `Pop()` (spec/40_execute_loop.md R125, R126): Push makes one write at 0x2100 + SP, then SP - 1; Pop makes SP + 1,
then one read at 0x2100 + SP; SP wraps modulo 256. The page and the discipline are the spec's own decisions D7 and D8. -/
def Obligations.PushAndPopFollowTheStackDiscipline : Prop :=
  ∀ (v : Byte) (s : State),
    push v s = (memWrite (0x2100#16 + s.cpu.sp.setWidth 16) v s).setCpu { s.cpu with sp := s.cpu.sp - 1#8 } ∧
    pop s = memRead (0x2100#16 + (s.cpu.sp + 1#8).setWidth 16) (s.setCpu { s.cpu with sp := s.cpu.sp + 1#8 })

/-- JSR (spec/43_subroutine.md R165, R166): it completes; PC is the target and SP is down by two; the return address, PC - 1, is
written to the two stack bytes in the order of RET_PUSH_ORDER where the stack page is RAM; nothing else of memory, no flag and
no other register changes; two accesses of time pass. PC here is the PC after the three bytes are fetched.
The push order, the page and the accesses are the spec's own decisions D9, D8 and D18. -/
def Obligations.JsrPushesTheReturnAddress : Prop :=
  ∀ (target : Word) (s : State), ∃ t, exec (.jsrAbs target) s = .next t ∧
    t.cpu = { s.cpu with pc := target, sp := s.cpu.sp - 2#8 } ∧
    (∀ k, t.mem.read k =
      if storedKey s (stackAddr s.cpu.sp) = some k then
        (if s.params.retPushOrder = .lowFirst then loByte (s.cpu.pc - 1#16) else hiByte (s.cpu.pc - 1#16))
      else if storedKey s (stackAddr (s.cpu.sp - 1#8)) = some k then
        (if s.params.retPushOrder = .lowFirst then hiByte (s.cpu.pc - 1#16) else loByte (s.cpu.pc - 1#16))
      else s.mem.read k) ∧
    Elapsed (2 * accessCost s (stackAddr s.cpu.sp)) (2 * waitCost s (stackAddr s.cpu.sp)) s t ∧
    t.latch = s.latch ∧ SameBook s t

/-- RTS (spec/43_subroutine.md R165, R167): it completes; SP is up by two; PC is one past the word put together from the two bytes
popped, in the reverse of the push order; no flag and no other register changes, and the frame of a read holds.
The pop order, the page and the accesses are the spec's own decisions D9, D8 and D18. -/
def Obligations.RtsPopsTheReturnAddress : Prop :=
  ∀ s : State, ∃ t, exec .rts s = .next t ∧
    t.cpu = { s.cpu with
      sp := s.cpu.sp + 2#8
      pc := (if s.params.retPushOrder = .lowFirst then wordOf (pop s).1 (pop (pop s).2).1
        else wordOf (pop (pop s).2).1 (pop s).1) + 1#16 } ∧
    (regionAt s (stackAddr s.cpu.sp) ≠ .controlPage →
      (pop s).1 = peek (stackAddr (s.cpu.sp + 1#8)) s ∧
      (pop (pop s).2).1 = peek (stackAddr (s.cpu.sp + 2#8)) s) ∧
    ReadFrame (2 * accessCost s (stackAddr s.cpu.sp)) (2 * waitCost s (stackAddr s.cpu.sp)) s t

/-- The round trip (spec/43_subroutine.md R168): a JSR, then an RTS executed with SP and the two stack bytes as the JSR left them
and the stack page in RAM, goes to the instruction after the JSR with SP restored.
The push order and the page are the spec's own decisions D9 and D8. -/
def Obligations.JsrThenRtsReturns : Prop :=
  ∀ (target : Word) (s t u : State), exec (.jsrAbs target) s = .next t →
    regionAt s (stackAddr s.cpu.sp) = .ram → regionAt u (stackAddr u.cpu.sp) = .ram →
    u.cpu.sp = t.cpu.sp → u.params = t.params →
    (∀ k, (storedKey s (stackAddr s.cpu.sp) = some k ∨ storedKey s (stackAddr (s.cpu.sp - 1#8)) = some k) →
      u.mem.read k = t.mem.read k) →
    ∃ r, exec .rts u = .next r ∧ r.cpu.pc = s.cpu.pc ∧ r.cpu.sp = s.cpu.sp

/-! ## Block transfer -/

/-- TII completes (spec/44_block_transfer.md R175, R177) for every nonzero length when the stack page is RAM and no destination
address stores to the three saved bytes: every register and flag is unchanged; the stack bytes hold Y, A and X; every byte that
is neither a stack byte nor a destination byte is unchanged; and the latch changes only through a destination on the control
page. Wherever the stack page lies, the control page too, and wherever the destination, a nonzero length either completes with
every register and flag unchanged or is refused with TII_STACK_CLOBBER (R178), and no byte but a stack or destination byte has
changed. The push order and the refusal are the spec's own decision D16. -/
def Obligations.TiiCompletesAndRestoresRegisters : Prop :=
  (∀ (src dst len : Word) (s : State), len ≠ 0#16 →
    regionAt s (stackAddr s.cpu.sp) = .ram →
    (∀ j < len.toNat - 1, ∀ d ∈ [0#8, 1#8, 2#8],
      storedKey s (dst + BitVec.ofNat 16 j) ≠ storedKey s (stackAddr (s.cpu.sp - d))) →
    ∃ t, exec (.tii src dst len) s = .next t ∧ t.cpu = s.cpu ∧
      t.mem.read (ramKey (windowOffset (stackAddr s.cpu.sp))) = s.cpu.y ∧
      t.mem.read (ramKey (windowOffset (stackAddr (s.cpu.sp - 1#8)))) = s.cpu.a ∧
      t.mem.read (ramKey (windowOffset (stackAddr (s.cpu.sp - 2#8)))) = s.cpu.x ∧
      (∀ k, (∀ d ∈ [0#8, 1#8, 2#8], storedKey s (stackAddr (s.cpu.sp - d)) ≠ some k) →
        (∀ j < len.toNat - 1, storedKey s (dst + BitVec.ofNat 16 j) ≠ some k) →
        t.mem.read k = s.mem.read k) ∧
      ((∀ j < len.toNat - 1, regionAt s (dst + BitVec.ofNat 16 j) ≠ .controlPage) →
        t.latch = s.latch ∧ t.irq.enabled = s.irq.enabled ∧ t.tmr.reload = s.tmr.reload ∧
        t.tmr.enabled = s.tmr.enabled) ∧
      SameBook s t) ∧
  (∀ (src dst len : Word) (s : State), len ≠ 0#16 → ∃ t,
    ((exec (.tii src dst len) s = .next t ∧ t.cpu = s.cpu ∧ SameBook s t) ∨
      (exec (.tii src dst len) s = .refused (.tiiStackClobber t) ∧ t.refused = some .tiiStackClobber)) ∧
    (∀ k, (∀ d ∈ [0#8, 1#8, 2#8], storedKey s (stackAddr (s.cpu.sp - d)) ≠ some k) →
      (∀ j < len.toNat - 1, storedKey s (dst + BitVec.ofNat 16 j) ≠ some k) →
      t.mem.read k = s.mem.read k))

/-- TII is the sequential byte copy of spec/44_block_transfer.md R175 and R176 between its pushes and its pops, for every nonzero
length when no stack, source or destination address is on the control page: with `m` the memory after the pushes and `len - 1`
byte copies, it completes exactly when the three stack addresses read Y, A and X in `m`, be the stack page RAM, ROM or open bus;
memory is then `m`, and otherwise it is refused as R178 says, with memory `m`.
The push order and the refusal are the spec's own decision D16. -/
def Obligations.TiiRefinesTheSequentialCopy : Prop :=
  ∀ (src dst len : Word) (s : State) (m : Memory), len ≠ 0#16 →
    regionAt s (stackAddr s.cpu.sp) ≠ .controlPage →
    (∀ j < len.toNat - 1, regionAt s (src + BitVec.ofNat 16 j) ≠ .controlPage ∧
      regionAt s (dst + BitVec.ofNat 16 j) ≠ .controlPage) →
    m = copyMem s (len.toNat - 1) src dst (pushedMem s) →
    (loadMem s m (stackAddr s.cpu.sp) = s.cpu.y ∧
        loadMem s m (stackAddr (s.cpu.sp - 1#8)) = s.cpu.a ∧
        loadMem s m (stackAddr (s.cpu.sp - 2#8)) = s.cpu.x →
      ∃ t, exec (.tii src dst len) s = .next t ∧ t.cpu = s.cpu ∧ t.mem = m ∧ t.latch = s.latch ∧
        Elapsed (2 * (len.toNat + 2) * accessTicks s.cpu.fast) 0 s t ∧ SameBook s t) ∧
    (¬ (loadMem s m (stackAddr s.cpu.sp) = s.cpu.y ∧
        loadMem s m (stackAddr (s.cpu.sp - 1#8)) = s.cpu.a ∧
        loadMem s m (stackAddr (s.cpu.sp - 2#8)) = s.cpu.x) →
      ∃ t, exec (.tii src dst len) s = .refused (.tiiStackClobber t) ∧ t.refused = some .tiiStackClobber ∧ t.mem = m)

/-- TII copies exactly `len - 1` bytes (spec/44_block_transfer.md R176): where every source byte lies in ROM, RAM or open bus, every
destination byte in RAM, the destination bytes are distinct, and neither destination nor stack bytes overlap the source or one
another, each destination byte holds its source byte, and every byte that is neither a stack byte nor one of the `len - 1`
destination bytes is unchanged. The push order is the spec's own decision D16. -/
def Obligations.TiiCopiesLengthMinusOneBytes : Prop :=
  ∀ (src dst len : Word) (s : State), len ≠ 0#16 →
    regionAt s (stackAddr s.cpu.sp) = .ram →
    (∀ j < len.toNat - 1, regionAt s (dst + BitVec.ofNat 16 j) = .ram ∧
      regionAt s (src + BitVec.ofNat 16 j) ≠ .controlPage) →
    (∀ j < len.toNat - 1, ∀ d ∈ [0#8, 1#8, 2#8],
      storedKey s (dst + BitVec.ofNat 16 j) ≠ storedKey s (stackAddr (s.cpu.sp - d)) ∧
      storedKey s (src + BitVec.ofNat 16 j) ≠ storedKey s (stackAddr (s.cpu.sp - d))) →
    (∀ j < len.toNat - 1, ∀ k < len.toNat - 1,
      storedKey s (src + BitVec.ofNat 16 j) ≠ storedKey s (dst + BitVec.ofNat 16 k) ∧
      (j ≠ k → storedKey s (dst + BitVec.ofNat 16 j) ≠ storedKey s (dst + BitVec.ofNat 16 k))) →
    ∃ t, exec (.tii src dst len) s = .next t ∧
      (∀ j < len.toNat - 1, peek (dst + BitVec.ofNat 16 j) t = peek (src + BitVec.ofNat 16 j) s) ∧
      (∀ k, (∀ d ∈ [0#8, 1#8, 2#8], storedKey s (stackAddr (s.cpu.sp - d)) ≠ some k) →
        (∀ j < len.toNat - 1, storedKey s (dst + BitVec.ofNat 16 j) ≠ some k) →
        t.mem.read k = s.mem.read k)

/-- A zero length is refused (spec/44_block_transfer.md R176) with nothing done by the handler but the refusal's mark.
The refusal is the spec's own decision D16. -/
def Obligations.TiiRefusesZeroLength : Prop :=
  ∀ (src dst : Word) (s : State),
    ∃ t, exec (.tii src dst 0#16) s = .refused (.tiiZeroLength t) ∧ t = s.setRefused .tiiZeroLength

/-! ## Branches -/

/-- BEQ (spec/46_branch.md R190, R192): it completes; with Z set PC moves by the signed displacement and BRANCH_TAKEN_TICKS bare ticks
pass, with Z clear nothing changes. PC here is the PC after the displacement is fetched.
The penalty is the spec's own decision D4. -/
def Obligations.BeqBranchesOnZero : Prop :=
  ∀ (d : Byte) (s : State),
    (s.cpu.p.z = true → exec (.beqRel d) s =
      .next ((ticks s.params.branchTakenTicks s).setCpu
        { s.cpu with pc := BitVec.ofInt 16 (s.cpu.pc.toNat + d.toInt) })) ∧
    (s.cpu.p.z = false → exec (.beqRel d) s = .next s)

/-- BRA (spec/46_branch.md R191, R192): it completes with the branch taken always.
The penalty is the spec's own decision D4. -/
def Obligations.BraAlwaysBranches : Prop :=
  ∀ (d : Byte) (s : State), exec (.braRel d) s =
    .next ((ticks s.params.branchTakenTicks s).setCpu
      { s.cpu with pc := BitVec.ofInt 16 (s.cpu.pc.toNat + d.toInt) })

/-! ## Flag, mode and register instructions -/

/-- SEI, CSH, CSL, CLD, CLA, CLX, INX and TXS (spec/47_flag_mode.md R200 to R208): each completes with its own change of the register
file and no other, after one dummy read at PC at the speed in force before the change; the frame of a read holds. INX sets Z and
N exactly when INX_SETS_NZ.
The dummy read's address, its place before the change and the flags are the spec's own decisions D13, D14 and D15. -/
def Obligations.ImpliedInstructionsMakeOneChange : Prop :=
  ∀ (i : Instr) (c : Cpu) (s : State), impliedChange s.params.inxSetsNz s.cpu i = some c →
    ∃ t, exec i s = .next t ∧ t.cpu = c ∧ ReadFrame (accessCost s s.cpu.pc) (waitCost s s.cpu.pc) s t

/-! ## Handlers as a whole -/

/-- Every handler that completes takes exactly the ticks of the accesses its rule lists, plus the branch penalty, whatever regions
they reach (spec/40_execute_loop.md R116, R127). The spec derives the cost of an instruction itself, in R127. -/
def Obligations.HandlerTicksAreItsAccesses : Prop :=
  ∀ (i : Instr) (s t : State), exec i s = .next t →
    t.clk.counter = s.clk.counter + counted s (handlerCost s i) ∧
    t.clk.extra = s.clk.extra + counted s (handlerWait s i)

/-- Reading an operand logs its source (spec/40_execute_loop.md R121) in every form of LDA, LDX and CMP and in TAM.
The place of the event before the access is the model's choice (log entry 8), and nothing is said of it here. -/
def Obligations.ReadingAnOperandLogsItsSource : Prop :=
  ∀ (i : Instr) (o : Operand) (s t : State),
    (ldaOperand s.cpu i = some o ∨ ldxOperand s.cpu i = some o ∨ cmpOperand s.cpu i = some o ∨
      ∃ m, i = .tamMask m ∧ o = .imm m) →
    exec i s = .next t →
    ∃ l, t.events = l ++ s.events ∧ Event.diag .info (.operandSource o) ∈ l

/-! ## Step -/

/-- A step runs the fetched instruction (spec/40_execute_loop.md R111): in a running state with no interrupt due, when the fetch
gives an instruction, step is exec of it on the state after the fetch, followed by steps 6 and 7.
That a step fetches the operand bytes before exec runs is the model's own cut (log entry 13). -/
def Obligations.StepRunsTheFetchedInstruction : Prop :=
  ∀ (s s' : State) (row : Row) (i : Instr), s.Running → dueLine (pollLines s) = none →
    fetchInstr (beginInstr (pollLines s)) = .got row i s' → step s = complete row (exec i s')

/-- A step runs the instruction whose bytes stand at PC (spec/40_execute_loop.md R111, R113 to R116): where the encoding of a
well-formed instruction stands at PC in ROM, RAM or open bus, step is exec of that instruction on the state with InstrPC = PC, PC
past the instruction, T clear, the counters of step 1 noted and the ticks of the fetches passed, followed by steps 6 and 7.
That a step fetches the operand bytes before exec runs is the model's own cut (log entry 13). -/
def Obligations.StepRunsTheBytesAtPc : Prop :=
  ∀ (s : State) (i : Instr), s.Running → dueLine (pollLines s) = none → i.wellFormed s.params.opcodeSet = true →
    (∀ k b, (encode i)[k]? = some b →
      regionAt s (s.cpu.pc + BitVec.ofNat 16 k) ≠ .controlPage ∧ peek (s.cpu.pc + BitVec.ofNat 16 k) s = b) →
    ∃ row, lookup s.params.opcodeSet ((encode i).headD 0#8) = some row ∧
      step s = complete row (exec i
        (ticks ((encode i).length * accessTicks s.cpu.fast)
          (((pollLines s).setCpu { s.cpu with
            instrPC := s.cpu.pc
            pc := s.cpu.pc + BitVec.ofNat 16 (encode i).length
            p := { s.cpu.p with t := false } }).setPre s.clk.counter s.clk.extra)))

/-- Steps 6 and 7 (spec/40_execute_loop.md R117, R118): clk.extra becomes 0; when the row's reference count is nonzero and `consumed`
is not `ref * 3 * (Fast ? 1 : 4)`, a CycleMismatch warning is emitted; nothing else changes, and execution goes on.
The unit of the check is the spec's own decision D5; pre and extraPre are held in the state (log entry 16). -/
def Obligations.EpilogueOnlyResetsExtraAndDiagnoses : Prop :=
  ∀ (row : Row) (t : State), t.fault = none →
    complete row (.next t) = .next { t with
      clk := { t.clk with extra := 0 }
      events :=
        if row.ref ≠ 0 ∧
            t.clk.counter - t.pre - (t.clk.extra - t.extraPre) ≠ row.ref * 3 * (if t.cpu.fast then 1 else 4) then
          .diag .warning (.cycleMismatch row.opcode t.cpu.instrPC
            (t.clk.counter - t.pre - (t.clk.extra - t.extraPre))
            (row.ref * 3 * (if t.cpu.fast then 1 else 4))) :: t.events
        else t.events }

/-- An unknown opcode faults (spec/60_exceptions.md R221, spec/40_execute_loop.md R114): in a running state with no interrupt due, when
the byte fetched at PC has no row, the step stops with UNKNOWN_OPCODE; the record holds the byte, the address and clk.counter; PC
is one on, the fetch's ticks have passed, T is not cleared and nothing else has changed; no further step is taken from there.
The state left is the spec's own decision D42. -/
def Obligations.UnknownOpcodeFaultsAfterItsFetch : Prop :=
  ∀ (s : State) (b : Byte), s.Running → dueLine (pollLines s) = none →
    b = (memRead s.cpu.pc (pollLines s)).1 → lookup s.params.opcodeSet b = none →
    ∃ t, step s = .fault (.unknownOpcode t) ∧
      t.fault = some ⟨.unknownOpcode, .opcode b, s.cpu.pc, t.clk.counter⟩ ∧
      t.cpu = { s.cpu with instrPC := s.cpu.pc, pc := s.cpu.pc + 1#16 } ∧
      Elapsed (accessCost s s.cpu.pc) (waitCost s s.cpu.pc) (pollLines s) t ∧
      (∀ k, t.mem.read k = s.mem.read k) ∧ t.latch = s.latch ∧ t.refused = none ∧ t.params = s.params ∧
      (∃ l, t.events = .diag .unrecoverableFault (.fault ⟨.unknownOpcode, .opcode b, s.cpu.pc, t.clk.counter⟩)
        :: (l ++ s.events)) ∧
      ∀ u, step t ≠ .next u

/-- A stopped machine takes no further step (spec/40_execute_loop.md R110; spec/60_exceptions.md R220, R228; spec/20_memory.md R53): a
halted, faulted or refused state answers no next state.
That such a step answers a fault or a refusal is the model's (log entry 10). -/
def Obligations.StoppedMachineTakesNoStep : Prop :=
  ∀ s : State, ¬ s.Running → ∀ t, step s ≠ .next t

/-- From a running state only UNKNOWN_OPCODE faults, and only TII refuses (spec/60_exceptions.md R225, R226, R228, R249): a step that
faults does so in the fetch of a byte without a row, and a step that refuses runs a fetched TII that refuses, with
TII_ZERO_LENGTH exactly for the length 0 (spec/44_block_transfer.md R176, R178) and else with TII_STACK_CLOBBER; no interrupt is
due in either. The spec derives this itself, in R226 and R249; the refusals are its own decision D16. -/
def Obligations.OnlyUnknownOpcodeFaultsAndOnlyTiiRefuses : Prop :=
  ∀ s : State, s.Running →
    (∀ f, step s = .fault f → dueLine (pollLines s) = none ∧
      ∃ t, f = .unknownOpcode t ∧ fetchInstr (beginInstr (pollLines s)) = .unknown t) ∧
    (∀ r, step s = .refused r → dueLine (pollLines s) = none ∧
      ∃ (row : Row) (src dst len : Word) (s' t : State),
        fetchInstr (beginInstr (pollLines s)) = .got row (.tii src dst len) s' ∧
        exec (.tii src dst len) s' = .refused r ∧
        ((len = 0#16 ∧ r = .tiiZeroLength t) ∨ (len ≠ 0#16 ∧ r = .tiiStackClobber t)))

/-! ## Interrupts -/

/-- The priority encoder (spec/60_exceptions.md R243, R244): the highest line both enabled and pending, line 2 first; its vector is
0xFFFA, 0xFFF8 or 0xFFF6. The order, the names and the vectors are the spec's own decision D27. -/
def Obligations.PriorityEncoderPicksTheHighestLine : Prop :=
  ∀ q : Irq,
    (∀ l, hasInterrupt q l = (q.enabled.getLsbD l.number && q.pending.getLsbD l.number)) ∧
    Line.tiq.number = 2 ∧ Line.irq1.number = 1 ∧ Line.irq2.number = 0 ∧
    ((q.enabled.getLsbD 2 && q.pending.getLsbD 2) = true → highest q = some .tiq) ∧
    ((q.enabled.getLsbD 2 && q.pending.getLsbD 2) = false → (q.enabled.getLsbD 1 && q.pending.getLsbD 1) = true →
      highest q = some .irq1) ∧
    ((q.enabled.getLsbD 2 && q.pending.getLsbD 2) = false → (q.enabled.getLsbD 1 && q.pending.getLsbD 1) = false →
      (q.enabled.getLsbD 0 && q.pending.getLsbD 0) = true → highest q = some .irq2) ∧
    (q.enabled &&& q.pending = 0#3 → highest q = none) ∧
    Line.tiq.vector = 0xFFFA#16 ∧ Line.irq1.vector = 0xFFF8#16 ∧ Line.irq2.vector = 0xFFF6#16

/-- Taking an interrupt (spec/60_exceptions.md R245, R246, R249): in a running state under VECTORED with P.I clear and a line due after
the external lines are polled, the step is the entry: SP is down by three; where the stack page is RAM the return address and the
flags byte, with B as 0, are pushed; I is set, D and T are cleared, B and the rest are kept; PC is the line's vector; clk.extra is 0;
nothing pending is acknowledged but time goes on.
The entry is the spec's own decision D26; InstrPC and the counters of step 1 are kept (log entry 17). -/
def Obligations.DueInterruptIsTaken : Prop :=
  ∀ (s : State) (l : Line), s.Running → s.params.irqExtension = .vectored → s.cpu.p.i = false →
    highest (pollLines s).irq = some l →
    ∃ (t : State) (flags : Byte), step s = .next t ∧
      t.cpu = { s.cpu with
        sp := s.cpu.sp - 3#8
        pc := wordOf (peek (l.vector + 1#16) s) (peek l.vector s)
        p := { s.cpu.p with i := true, d := false, t := false } } ∧
      flags.getLsbD 7 = s.cpu.p.n ∧ flags.getLsbD 6 = s.cpu.p.v ∧ flags.getLsbD 5 = s.cpu.p.t ∧
      flags.getLsbD 4 = false ∧ flags.getLsbD 3 = s.cpu.p.d ∧ flags.getLsbD 2 = s.cpu.p.i ∧
      flags.getLsbD 1 = s.cpu.p.z ∧ flags.getLsbD 0 = s.cpu.p.c ∧
      (∀ k, t.mem.read k =
        if storedKey s (stackAddr s.cpu.sp) = some k then
          (if s.params.retPushOrder = .lowFirst then loByte s.cpu.pc else hiByte s.cpu.pc)
        else if storedKey s (stackAddr (s.cpu.sp - 1#8)) = some k then
          (if s.params.retPushOrder = .lowFirst then hiByte s.cpu.pc else loByte s.cpu.pc)
        else if storedKey s (stackAddr (s.cpu.sp - 2#8)) = some k then flags
        else s.mem.read k) ∧
      t.clk = { s.clk with
        counter := s.clk.counter
          + counted s (3 * accessCost s (stackAddr s.cpu.sp) + 2 * accessCost s l.vector)
        extra := 0 } ∧
      t.irq = (ticks (3 * accessCost s (stackAddr s.cpu.sp) + 2 * accessCost s l.vector) (pollLines s)).irq ∧
      t.tmr = (ticks (3 * accessCost s (stackAddr s.cpu.sp) + 2 * accessCost s l.vector) (pollLines s)).tmr ∧
      t.latch = s.latch ∧ SameBook s t

/-- The external lines (spec/60_exceptions.md R247): without delivery nothing is polled; under VECTORED a boundary may set pending
bits 0 and 1, never clears a pending bit, never sets bit 2, and changes nothing else but the model's own draw count. Which bits it
sets is a free value: the statement holds for every one (log entry 6). The lines are the spec's own decision D26. -/
def Obligations.ExternalLinesSetOnlyTheirPendingBits : Prop :=
  ∀ s : State,
    (s.params.irqExtension = .none → pollLines s = s) ∧
    (s.params.irqExtension = .vectored → ∃ bits : BitVec 2,
      pollLines s = (s.setIrq { s.irq with pending := s.irq.pending ||| bits.setWidth 3 }).countDraw ∧
      (pollLines s).irq.pending.getLsbD 2 = s.irq.pending.getLsbD 2 ∧
      ∀ k, s.irq.pending.getLsbD k = true → (pollLines s).irq.pending.getLsbD k = true)

/-- Without delivery (spec/40_execute_loop.md R112) or with interrupts masked (spec/60_exceptions.md R245) no interrupt is due.
The delivery is the spec's own decisions D26 and D43. -/
def Obligations.MaskedOrUndeliveredInterruptsAreNotDue : Prop :=
  ∀ s : State, s.params.irqExtension = .none ∨ s.cpu.p.i = true → dueLine (pollLines s) = none

/-! ## Reset -/

/-- Reset (spec/70_reset_and_hazards.md R270): for every value of the parameters, the registers and flags are as given, P.I = 1, P.D = P.T
= 0, slow speed, MPR[7] = 0, the counters 0, the timer disabled, no line enabled or pending, nothing logged, and PC and InstrPC are
the little-endian word at physical 0x001FFE, read without a tick.
The reset and its values are the spec's own decisions D28 and D29. -/
def Obligations.ResetReadsTheVectorWithoutTicks : Prop :=
  ∀ r : ResetParams,
    (resetWith r).cpu = {
      a := r.a, x := r.x, y := r.y, sp := r.sp
      pc := wordOf (r.mem.read 0x1FFF) (r.mem.read 0x1FFE)
      instrPC := wordOf (r.mem.read 0x1FFF) (r.mem.read 0x1FFE)
      p := { c := r.c, z := r.z, i := true, d := false, b := r.b, t := false, v := r.v, n := r.n }
      fast := false
      mpr := { r.mprInit with m7 := 0x00#8 } } ∧
    (resetWith r).clk = { counter := 0, extra := 0, halted := false, suppress := 0 } ∧
    (resetWith r).latch = r.latch ∧
    (resetWith r).tmr =
      { reload := r.timerReload, current := r.timerCounter, enabled := false, acc := 0, coarse := 0 } ∧
    (resetWith r).irq = { enabled := 0b000#3, pending := 0b000#3 } ∧
    (resetWith r).mem = r.mem ∧ (resetWith r).fault = none ∧ (resetWith r).refused = none ∧
    (resetWith r).events = [] ∧ (resetWith r).params = r.params

/-- The state after reset is Reset with the values that log entries 1 to 4 name (the model's choice), and meets the invariant. -/
def Obligations.InvariantHoldsAtReset : Prop :=
  State.reset = resetWith ResetParams.default ∧ State.reset.Inv

/-- Reset with any parameters in the ranges of spec/00_scope.md R5 and a canonical memory meets the invariant.
The invariant is the model's own. -/
def Obligations.InvariantHoldsAfterEveryReset : Prop :=
  ∀ r : ResetParams, r.mem.wf → r.mem.inSpace → 1 ≤ r.timerReload → r.timerReload ≤ 128 → r.timerCounter ≤ 128 →
    (resetWith r).Inv

/-! ## Whole-machine rules -/

/-- Every step keeps the invariant: memory stays canonical and within the space, the timer in range, clk.extra and clk.suppress 0 at
the boundary, T clear, nothing pending without delivery, and the machine running (spec/10_state.md R32, R38, R40, R42, R43).
The invariant is the model's own. -/
def Obligations.StepKeepsTheInvariant : Prop :=
  ∀ s t : State, s.Inv → step s = .next t → t.Inv

/-- What no step changes (spec/10_state.md R22, R29, R30, R31, R33, R39, R45; spec/20_memory.md R62): ROM, the parameters, Y, V, B, halted
and suppress are as before; I is never cleared and D never set; clk.counter never falls; the event log only grows.
The list is put together from the spec's sentences about each register. -/
def Obligations.WhatNoStepChanges : Prop :=
  ∀ s t : State, step s = .next t →
    (∀ k < romTop, t.mem.read k = s.mem.read k) ∧ t.params = s.params ∧
    t.cpu.y = s.cpu.y ∧ t.cpu.p.v = s.cpu.p.v ∧ t.cpu.p.b = s.cpu.p.b ∧
    (s.cpu.p.i = true → t.cpu.p.i = true) ∧ (s.cpu.p.d = false → t.cpu.p.d = false) ∧
    t.clk.halted = s.clk.halted ∧ t.clk.suppress = s.clk.suppress ∧
    s.clk.counter ≤ t.clk.counter ∧ ∃ l, t.events = l ++ s.events

/-- Every step that gives a next state leaves T clear (spec/40_execute_loop.md R115; spec/10_state.md R32).
That no admitted instruction is an exception is the spec's own decision D41. -/
def Obligations.EveryStepLeavesTClear : Prop :=
  ∀ s t : State, step s = .next t → t.cpu.p.t = false ∧ t.clk.extra = 0

/-- No step emits a cycle mismatch (spec/70_reset_and_hazards.md R282; spec/30_encoding.md R97): every nonzero reference count is the
access count of its instruction, wait ticks apart, whatever regions its accesses reach.
The reference counts are the spec's own decision D45, and it derives this property itself in R282. -/
def Obligations.NoStepEmitsACycleMismatch : Prop :=
  ∀ s t : State, s.clk.suppress = 0 → step s = .next t →
    ∃ l, t.events = l ++ s.events ∧
      ∀ op pc consumed expected, Event.diag .warning (.cycleMismatch op pc consumed expected) ∉ l

/-- InstrPC does not influence execution (spec/10_state.md R25): with no interrupt due, a running state steps alike whatever InstrPC
holds. -/
def Obligations.InstrPcDoesNotInfluenceExecution : Prop :=
  ∀ (s : State) (w : Word), s.Running → dueLine (pollLines s) = none →
    step (s.setCpu { s.cpu with instrPC := w }) = step s

/-- Diagnostics are not architectural (spec/60_exceptions.md R229): two states that differ only in their event log step to outcomes that
differ only in the event log. That diagnostics are not architectural is the spec's own decision D40. -/
def Obligations.DiagnosticsDoNotInfluenceExecution : Prop :=
  ∀ (s : State) (log : List Event), quietOutcome (step { s with events := log }) = quietOutcome (step s)
end

