-- ==== Sys2Proof/Laws/State.lean ====
section
/-! SUPPORT. One lemma per field per setter of `State`, true by definition. -/

namespace Sys2Proof.Machine

variable (s : State)

@[simp] theorem State.setCpu_cpu (c : Cpu) : (s.setCpu c).cpu = c := rfl
@[simp] theorem State.setCpu_clk (c : Cpu) : (s.setCpu c).clk = s.clk := rfl
@[simp] theorem State.setCpu_latch (c : Cpu) : (s.setCpu c).latch = s.latch := rfl
@[simp] theorem State.setCpu_tmr (c : Cpu) : (s.setCpu c).tmr = s.tmr := rfl
@[simp] theorem State.setCpu_irq (c : Cpu) : (s.setCpu c).irq = s.irq := rfl
@[simp] theorem State.setCpu_mem (c : Cpu) : (s.setCpu c).mem = s.mem := rfl
@[simp] theorem State.setCpu_fault (c : Cpu) : (s.setCpu c).fault = s.fault := rfl
@[simp] theorem State.setCpu_refused (c : Cpu) : (s.setCpu c).refused = s.refused := rfl
@[simp] theorem State.setCpu_events (c : Cpu) : (s.setCpu c).events = s.events := rfl
@[simp] theorem State.setCpu_pre (c : Cpu) : (s.setCpu c).pre = s.pre := rfl
@[simp] theorem State.setCpu_extraPre (c : Cpu) : (s.setCpu c).extraPre = s.extraPre := rfl
@[simp] theorem State.setCpu_draws (c : Cpu) : (s.setCpu c).draws = s.draws := rfl
@[simp] theorem State.setCpu_params (c : Cpu) : (s.setCpu c).params = s.params := rfl

@[simp] theorem State.setClk_cpu (c : Clock) : (s.setClk c).cpu = s.cpu := rfl
@[simp] theorem State.setClk_clk (c : Clock) : (s.setClk c).clk = c := rfl
@[simp] theorem State.setClk_latch (c : Clock) : (s.setClk c).latch = s.latch := rfl
@[simp] theorem State.setClk_tmr (c : Clock) : (s.setClk c).tmr = s.tmr := rfl
@[simp] theorem State.setClk_irq (c : Clock) : (s.setClk c).irq = s.irq := rfl
@[simp] theorem State.setClk_mem (c : Clock) : (s.setClk c).mem = s.mem := rfl
@[simp] theorem State.setClk_fault (c : Clock) : (s.setClk c).fault = s.fault := rfl
@[simp] theorem State.setClk_refused (c : Clock) : (s.setClk c).refused = s.refused := rfl
@[simp] theorem State.setClk_events (c : Clock) : (s.setClk c).events = s.events := rfl
@[simp] theorem State.setClk_pre (c : Clock) : (s.setClk c).pre = s.pre := rfl
@[simp] theorem State.setClk_extraPre (c : Clock) : (s.setClk c).extraPre = s.extraPre := rfl
@[simp] theorem State.setClk_draws (c : Clock) : (s.setClk c).draws = s.draws := rfl
@[simp] theorem State.setClk_params (c : Clock) : (s.setClk c).params = s.params := rfl

@[simp] theorem State.setLatch_cpu (v : Byte) : (s.setLatch v).cpu = s.cpu := rfl
@[simp] theorem State.setLatch_clk (v : Byte) : (s.setLatch v).clk = s.clk := rfl
@[simp] theorem State.setLatch_latch (v : Byte) : (s.setLatch v).latch = v := rfl
@[simp] theorem State.setLatch_tmr (v : Byte) : (s.setLatch v).tmr = s.tmr := rfl
@[simp] theorem State.setLatch_irq (v : Byte) : (s.setLatch v).irq = s.irq := rfl
@[simp] theorem State.setLatch_mem (v : Byte) : (s.setLatch v).mem = s.mem := rfl
@[simp] theorem State.setLatch_fault (v : Byte) : (s.setLatch v).fault = s.fault := rfl
@[simp] theorem State.setLatch_refused (v : Byte) : (s.setLatch v).refused = s.refused := rfl
@[simp] theorem State.setLatch_events (v : Byte) : (s.setLatch v).events = s.events := rfl
@[simp] theorem State.setLatch_pre (v : Byte) : (s.setLatch v).pre = s.pre := rfl
@[simp] theorem State.setLatch_extraPre (v : Byte) : (s.setLatch v).extraPre = s.extraPre := rfl
@[simp] theorem State.setLatch_draws (v : Byte) : (s.setLatch v).draws = s.draws := rfl
@[simp] theorem State.setLatch_params (v : Byte) : (s.setLatch v).params = s.params := rfl

@[simp] theorem State.setTmr_cpu (t : Timer) : (s.setTmr t).cpu = s.cpu := rfl
@[simp] theorem State.setTmr_clk (t : Timer) : (s.setTmr t).clk = s.clk := rfl
@[simp] theorem State.setTmr_latch (t : Timer) : (s.setTmr t).latch = s.latch := rfl
@[simp] theorem State.setTmr_tmr (t : Timer) : (s.setTmr t).tmr = t := rfl
@[simp] theorem State.setTmr_irq (t : Timer) : (s.setTmr t).irq = s.irq := rfl
@[simp] theorem State.setTmr_mem (t : Timer) : (s.setTmr t).mem = s.mem := rfl
@[simp] theorem State.setTmr_fault (t : Timer) : (s.setTmr t).fault = s.fault := rfl
@[simp] theorem State.setTmr_refused (t : Timer) : (s.setTmr t).refused = s.refused := rfl
@[simp] theorem State.setTmr_events (t : Timer) : (s.setTmr t).events = s.events := rfl
@[simp] theorem State.setTmr_pre (t : Timer) : (s.setTmr t).pre = s.pre := rfl
@[simp] theorem State.setTmr_extraPre (t : Timer) : (s.setTmr t).extraPre = s.extraPre := rfl
@[simp] theorem State.setTmr_draws (t : Timer) : (s.setTmr t).draws = s.draws := rfl
@[simp] theorem State.setTmr_params (t : Timer) : (s.setTmr t).params = s.params := rfl

@[simp] theorem State.setIrq_cpu (q : Irq) : (s.setIrq q).cpu = s.cpu := rfl
@[simp] theorem State.setIrq_clk (q : Irq) : (s.setIrq q).clk = s.clk := rfl
@[simp] theorem State.setIrq_latch (q : Irq) : (s.setIrq q).latch = s.latch := rfl
@[simp] theorem State.setIrq_tmr (q : Irq) : (s.setIrq q).tmr = s.tmr := rfl
@[simp] theorem State.setIrq_irq (q : Irq) : (s.setIrq q).irq = q := rfl
@[simp] theorem State.setIrq_mem (q : Irq) : (s.setIrq q).mem = s.mem := rfl
@[simp] theorem State.setIrq_fault (q : Irq) : (s.setIrq q).fault = s.fault := rfl
@[simp] theorem State.setIrq_refused (q : Irq) : (s.setIrq q).refused = s.refused := rfl
@[simp] theorem State.setIrq_events (q : Irq) : (s.setIrq q).events = s.events := rfl
@[simp] theorem State.setIrq_pre (q : Irq) : (s.setIrq q).pre = s.pre := rfl
@[simp] theorem State.setIrq_extraPre (q : Irq) : (s.setIrq q).extraPre = s.extraPre := rfl
@[simp] theorem State.setIrq_draws (q : Irq) : (s.setIrq q).draws = s.draws := rfl
@[simp] theorem State.setIrq_params (q : Irq) : (s.setIrq q).params = s.params := rfl

@[simp] theorem State.setMem_cpu (m : Memory) : (s.setMem m).cpu = s.cpu := rfl
@[simp] theorem State.setMem_clk (m : Memory) : (s.setMem m).clk = s.clk := rfl
@[simp] theorem State.setMem_latch (m : Memory) : (s.setMem m).latch = s.latch := rfl
@[simp] theorem State.setMem_tmr (m : Memory) : (s.setMem m).tmr = s.tmr := rfl
@[simp] theorem State.setMem_irq (m : Memory) : (s.setMem m).irq = s.irq := rfl
@[simp] theorem State.setMem_mem (m : Memory) : (s.setMem m).mem = m := rfl
@[simp] theorem State.setMem_fault (m : Memory) : (s.setMem m).fault = s.fault := rfl
@[simp] theorem State.setMem_refused (m : Memory) : (s.setMem m).refused = s.refused := rfl
@[simp] theorem State.setMem_events (m : Memory) : (s.setMem m).events = s.events := rfl
@[simp] theorem State.setMem_pre (m : Memory) : (s.setMem m).pre = s.pre := rfl
@[simp] theorem State.setMem_extraPre (m : Memory) : (s.setMem m).extraPre = s.extraPre := rfl
@[simp] theorem State.setMem_draws (m : Memory) : (s.setMem m).draws = s.draws := rfl
@[simp] theorem State.setMem_params (m : Memory) : (s.setMem m).params = s.params := rfl

@[simp] theorem State.setFault_cpu (r : FaultRecord) : (s.setFault r).cpu = s.cpu := rfl
@[simp] theorem State.setFault_clk (r : FaultRecord) : (s.setFault r).clk = s.clk := rfl
@[simp] theorem State.setFault_latch (r : FaultRecord) : (s.setFault r).latch = s.latch := rfl
@[simp] theorem State.setFault_tmr (r : FaultRecord) : (s.setFault r).tmr = s.tmr := rfl
@[simp] theorem State.setFault_irq (r : FaultRecord) : (s.setFault r).irq = s.irq := rfl
@[simp] theorem State.setFault_mem (r : FaultRecord) : (s.setFault r).mem = s.mem := rfl
@[simp] theorem State.setFault_fault (r : FaultRecord) : (s.setFault r).fault = some r := rfl
@[simp] theorem State.setFault_refused (r : FaultRecord) : (s.setFault r).refused = s.refused := rfl
@[simp] theorem State.setFault_events (r : FaultRecord) : (s.setFault r).events = s.events := rfl
@[simp] theorem State.setFault_pre (r : FaultRecord) : (s.setFault r).pre = s.pre := rfl
@[simp] theorem State.setFault_extraPre (r : FaultRecord) : (s.setFault r).extraPre = s.extraPre := rfl
@[simp] theorem State.setFault_draws (r : FaultRecord) : (s.setFault r).draws = s.draws := rfl
@[simp] theorem State.setFault_params (r : FaultRecord) : (s.setFault r).params = s.params := rfl

@[simp] theorem State.setRefused_cpu (r : RefusalReason) : (s.setRefused r).cpu = s.cpu := rfl
@[simp] theorem State.setRefused_clk (r : RefusalReason) : (s.setRefused r).clk = s.clk := rfl
@[simp] theorem State.setRefused_latch (r : RefusalReason) : (s.setRefused r).latch = s.latch := rfl
@[simp] theorem State.setRefused_tmr (r : RefusalReason) : (s.setRefused r).tmr = s.tmr := rfl
@[simp] theorem State.setRefused_irq (r : RefusalReason) : (s.setRefused r).irq = s.irq := rfl
@[simp] theorem State.setRefused_mem (r : RefusalReason) : (s.setRefused r).mem = s.mem := rfl
@[simp] theorem State.setRefused_fault (r : RefusalReason) : (s.setRefused r).fault = s.fault := rfl
@[simp] theorem State.setRefused_refused (r : RefusalReason) : (s.setRefused r).refused = some r := rfl
@[simp] theorem State.setRefused_events (r : RefusalReason) : (s.setRefused r).events = s.events := rfl
@[simp] theorem State.setRefused_pre (r : RefusalReason) : (s.setRefused r).pre = s.pre := rfl
@[simp] theorem State.setRefused_extraPre (r : RefusalReason) : (s.setRefused r).extraPre = s.extraPre := rfl
@[simp] theorem State.setRefused_draws (r : RefusalReason) : (s.setRefused r).draws = s.draws := rfl
@[simp] theorem State.setRefused_params (r : RefusalReason) : (s.setRefused r).params = s.params := rfl

@[simp] theorem State.emit_cpu (e : Event) : (s.emit e).cpu = s.cpu := rfl
@[simp] theorem State.emit_clk (e : Event) : (s.emit e).clk = s.clk := rfl
@[simp] theorem State.emit_latch (e : Event) : (s.emit e).latch = s.latch := rfl
@[simp] theorem State.emit_tmr (e : Event) : (s.emit e).tmr = s.tmr := rfl
@[simp] theorem State.emit_irq (e : Event) : (s.emit e).irq = s.irq := rfl
@[simp] theorem State.emit_mem (e : Event) : (s.emit e).mem = s.mem := rfl
@[simp] theorem State.emit_fault (e : Event) : (s.emit e).fault = s.fault := rfl
@[simp] theorem State.emit_refused (e : Event) : (s.emit e).refused = s.refused := rfl
@[simp] theorem State.emit_events (e : Event) : (s.emit e).events = e :: s.events := rfl
@[simp] theorem State.emit_pre (e : Event) : (s.emit e).pre = s.pre := rfl
@[simp] theorem State.emit_extraPre (e : Event) : (s.emit e).extraPre = s.extraPre := rfl
@[simp] theorem State.emit_draws (e : Event) : (s.emit e).draws = s.draws := rfl
@[simp] theorem State.emit_params (e : Event) : (s.emit e).params = s.params := rfl

@[simp] theorem State.countDraw_cpu : (s.countDraw).cpu = s.cpu := rfl
@[simp] theorem State.countDraw_clk : (s.countDraw).clk = s.clk := rfl
@[simp] theorem State.countDraw_latch : (s.countDraw).latch = s.latch := rfl
@[simp] theorem State.countDraw_tmr : (s.countDraw).tmr = s.tmr := rfl
@[simp] theorem State.countDraw_irq : (s.countDraw).irq = s.irq := rfl
@[simp] theorem State.countDraw_mem : (s.countDraw).mem = s.mem := rfl
@[simp] theorem State.countDraw_fault : (s.countDraw).fault = s.fault := rfl
@[simp] theorem State.countDraw_refused : (s.countDraw).refused = s.refused := rfl
@[simp] theorem State.countDraw_events : (s.countDraw).events = s.events := rfl
@[simp] theorem State.countDraw_pre : (s.countDraw).pre = s.pre := rfl
@[simp] theorem State.countDraw_extraPre : (s.countDraw).extraPre = s.extraPre := rfl
@[simp] theorem State.countDraw_draws : (s.countDraw).draws = s.draws + 1 := rfl
@[simp] theorem State.countDraw_params : (s.countDraw).params = s.params := rfl

@[simp] theorem State.setPre_cpu (p q : Nat) : (s.setPre p q).cpu = s.cpu := rfl
@[simp] theorem State.setPre_clk (p q : Nat) : (s.setPre p q).clk = s.clk := rfl
@[simp] theorem State.setPre_latch (p q : Nat) : (s.setPre p q).latch = s.latch := rfl
@[simp] theorem State.setPre_tmr (p q : Nat) : (s.setPre p q).tmr = s.tmr := rfl
@[simp] theorem State.setPre_irq (p q : Nat) : (s.setPre p q).irq = s.irq := rfl
@[simp] theorem State.setPre_mem (p q : Nat) : (s.setPre p q).mem = s.mem := rfl
@[simp] theorem State.setPre_fault (p q : Nat) : (s.setPre p q).fault = s.fault := rfl
@[simp] theorem State.setPre_refused (p q : Nat) : (s.setPre p q).refused = s.refused := rfl
@[simp] theorem State.setPre_events (p q : Nat) : (s.setPre p q).events = s.events := rfl
@[simp] theorem State.setPre_pre (p q : Nat) : (s.setPre p q).pre = p := rfl
@[simp] theorem State.setPre_extraPre (p q : Nat) : (s.setPre p q).extraPre = q := rfl
@[simp] theorem State.setPre_draws (p q : Nat) : (s.setPre p q).draws = s.draws := rfl
@[simp] theorem State.setPre_params (p q : Nat) : (s.setPre p q).params = s.params := rfl

end Sys2Proof.Machine
end

