-- ==== Sys2Proof/Laws/Clock.lean ====
section
/-! SUPPORT. The Clock and the timer: what a tick may change, said once. -/

namespace Sys2Proof.Machine

variable (s : State)

/-! ## What diagnostics leave alone -/

@[simp] theorem diag_cpu (sev : Severity) (d : Diagnostic) : (diag sev d s).cpu = s.cpu := rfl
@[simp] theorem diag_clk (sev : Severity) (d : Diagnostic) : (diag sev d s).clk = s.clk := rfl
@[simp] theorem diag_latch (sev : Severity) (d : Diagnostic) : (diag sev d s).latch = s.latch := rfl
@[simp] theorem diag_tmr (sev : Severity) (d : Diagnostic) : (diag sev d s).tmr = s.tmr := rfl
@[simp] theorem diag_irq (sev : Severity) (d : Diagnostic) : (diag sev d s).irq = s.irq := rfl
@[simp] theorem diag_mem (sev : Severity) (d : Diagnostic) : (diag sev d s).mem = s.mem := rfl
@[simp] theorem diag_fault (sev : Severity) (d : Diagnostic) : (diag sev d s).fault = s.fault := rfl
@[simp] theorem diag_refused (sev : Severity) (d : Diagnostic) : (diag sev d s).refused = s.refused := rfl
@[simp] theorem diag_pre (sev : Severity) (d : Diagnostic) : (diag sev d s).pre = s.pre := rfl
@[simp] theorem diag_extraPre (sev : Severity) (d : Diagnostic) : (diag sev d s).extraPre = s.extraPre := rfl
@[simp] theorem diag_draws (sev : Severity) (d : Diagnostic) : (diag sev d s).draws = s.draws := rfl
@[simp] theorem diag_params (sev : Severity) (d : Diagnostic) : (diag sev d s).params = s.params := rfl
@[simp] theorem diag_events (sev : Severity) (d : Diagnostic) :
    (diag sev d s).events = .diag sev d :: s.events := rfl

/-! ## What a tick leaves alone -/

theorem cycle_cpu : (cycle s).cpu = s.cpu := by unfold cycle timerStep; split_ifs <;> rfl
theorem cycle_latch : (cycle s).latch = s.latch := by unfold cycle timerStep; split_ifs <;> rfl
theorem cycle_mem : (cycle s).mem = s.mem := by unfold cycle timerStep; split_ifs <;> rfl
theorem cycle_fault : (cycle s).fault = s.fault := by unfold cycle timerStep; split_ifs <;> rfl
theorem cycle_refused : (cycle s).refused = s.refused := by unfold cycle timerStep; split_ifs <;> rfl
theorem cycle_pre : (cycle s).pre = s.pre := by unfold cycle timerStep; split_ifs <;> rfl
theorem cycle_extraPre : (cycle s).extraPre = s.extraPre := by unfold cycle timerStep; split_ifs <;> rfl
theorem cycle_draws : (cycle s).draws = s.draws := by unfold cycle timerStep; split_ifs <;> rfl
theorem cycle_params : (cycle s).params = s.params := by unfold cycle timerStep; split_ifs <;> rfl
theorem cycle_clk : (cycle s).clk = s.clk := by unfold cycle timerStep; split_ifs <;> rfl

@[simp] theorem tick_cpu : (tick s).cpu = s.cpu := by unfold tick; split_ifs <;> simp [cycle_cpu]
@[simp] theorem tick_latch : (tick s).latch = s.latch := by unfold tick; split_ifs <;> simp [cycle_latch]
@[simp] theorem tick_mem : (tick s).mem = s.mem := by unfold tick; split_ifs <;> simp [cycle_mem]
@[simp] theorem tick_fault : (tick s).fault = s.fault := by unfold tick; split_ifs <;> simp [cycle_fault]
@[simp] theorem tick_refused : (tick s).refused = s.refused := by unfold tick; split_ifs <;> simp [cycle_refused]
@[simp] theorem tick_pre : (tick s).pre = s.pre := by unfold tick; split_ifs <;> simp [cycle_pre]
@[simp] theorem tick_extraPre : (tick s).extraPre = s.extraPre := by unfold tick; split_ifs <;> simp [cycle_extraPre]
@[simp] theorem tick_draws : (tick s).draws = s.draws := by unfold tick; split_ifs <;> simp [cycle_draws]
@[simp] theorem tick_params : (tick s).params = s.params := by unfold tick; split_ifs <;> simp [cycle_params]

@[simp] theorem ticks_cpu (n : Nat) : (ticks n s).cpu = s.cpu := by
  induction n generalizing s with
  | zero => rfl
  | succ n ih => simp [ticks, ih]
@[simp] theorem ticks_latch (n : Nat) : (ticks n s).latch = s.latch := by
  induction n generalizing s with
  | zero => rfl
  | succ n ih => simp [ticks, ih]
@[simp] theorem ticks_mem (n : Nat) : (ticks n s).mem = s.mem := by
  induction n generalizing s with
  | zero => rfl
  | succ n ih => simp [ticks, ih]
@[simp] theorem ticks_fault (n : Nat) : (ticks n s).fault = s.fault := by
  induction n generalizing s with
  | zero => rfl
  | succ n ih => simp [ticks, ih]
@[simp] theorem ticks_refused (n : Nat) : (ticks n s).refused = s.refused := by
  induction n generalizing s with
  | zero => rfl
  | succ n ih => simp [ticks, ih]
@[simp] theorem ticks_pre (n : Nat) : (ticks n s).pre = s.pre := by
  induction n generalizing s with
  | zero => rfl
  | succ n ih => simp [ticks, ih]
@[simp] theorem ticks_extraPre (n : Nat) : (ticks n s).extraPre = s.extraPre := by
  induction n generalizing s with
  | zero => rfl
  | succ n ih => simp [ticks, ih]
@[simp] theorem ticks_draws (n : Nat) : (ticks n s).draws = s.draws := by
  induction n generalizing s with
  | zero => rfl
  | succ n ih => simp [ticks, ih]
@[simp] theorem ticks_params (n : Nat) : (ticks n s).params = s.params := by
  induction n generalizing s with
  | zero => rfl
  | succ n ih => simp [ticks, ih]

/-! ## The Clock -/

@[simp] theorem ticks_zero : ticks 0 s = s := rfl

theorem ticks_succ (n : Nat) : ticks (n + 1) s = ticks n (tick s) := rfl

theorem ticks_add (m n : Nat) : ticks (m + n) s = ticks n (ticks m s) := by
  induction m generalizing s with
  | zero => simp
  | succ m ih => rw [Nat.succ_add, ticks_succ, ih, ticks_succ]

theorem counted_add (m n : Nat) : counted s (m + n) = counted s m + counted s n := by
  unfold counted; split_ifs <;> rfl

@[simp] theorem counted_zero : counted s 0 = 0 := by unfold counted; split_ifs <;> rfl

theorem counted_congr {s t : State} (h : s.clk.suppress = t.clk.suppress) (n : Nat) : counted s n = counted t n := by
  unfold counted; rw [h]

theorem tick_clk : (tick s).clk = { s.clk with counter := s.clk.counter + counted s 1 } := by
  unfold tick counted; split_ifs <;> simp [cycle_clk]

/-- A number of ticks advances clk.counter by what is counted and leaves the rest of the Clock alone (R50). -/
theorem ticks_clk (n : Nat) :
    (ticks n s).clk = { s.clk with counter := s.clk.counter + counted s n } := by
  induction n generalizing s with
  | zero => simp
  | succ n ih =>
    rw [ticks_succ, ih, counted_congr (t := s) (by rw [tick_clk]), tick_clk]
    simp only [counted_add, Nat.add_assoc, Nat.add_comm (counted s n)]

@[simp] theorem ticks_suppress (n : Nat) : (ticks n s).clk.suppress = s.clk.suppress := by rw [ticks_clk]

@[simp] theorem ticks_halted (n : Nat) : (ticks n s).clk.halted = s.clk.halted := by rw [ticks_clk]

/-! ## The timer and the interrupt controller see only time -/

/-- Two states whose timer, interrupt controller, suppress count and parameters agree. -/
structure SameTime (s t : State) : Prop where
  tmr : t.tmr = s.tmr
  irq : t.irq = s.irq
  suppress : t.clk.suppress = s.clk.suppress
  params : t.params = s.params

theorem SameTime.symm {s t : State} (h : SameTime s t) : SameTime t s :=
  ⟨h.tmr.symm, h.irq.symm, h.suppress.symm, h.params.symm⟩

theorem SameTime.trans {s t u : State} (h : SameTime s t) (g : SameTime t u) : SameTime s u :=
  ⟨g.tmr.trans h.tmr, g.irq.trans h.irq, g.suppress.trans h.suppress, g.params.trans h.params⟩

theorem SameTime.cycle {s t : State} (h : SameTime s t) : SameTime (cycle s) (cycle t) := by
  obtain ⟨h1, h2, h3, h4⟩ := h
  refine ⟨?_, ?_, ?_, ?_⟩
  · unfold Machine.cycle timerStep; rw [h1]; split_ifs <;> simp_all
  · unfold Machine.cycle timerStep; rw [h1]; split_ifs <;> simp_all
  · simp [cycle_clk, h3]
  · simp [cycle_params, h4]

theorem SameTime.tick {s t : State} (h : SameTime s t) : SameTime (tick s) (tick t) := by
  unfold Machine.tick
  rw [h.suppress]
  split_ifs
  · exact SameTime.cycle ⟨h.tmr, h.irq, h.suppress, h.params⟩
  · exact h

theorem SameTime.ticks {s t : State} (h : SameTime s t) (n : Nat) : SameTime (ticks n s) (ticks n t) := by
  induction n generalizing s t with
  | zero => exact h
  | succ n ih => exact ih h.tick

/-! ## Wait ticks -/

@[simp] theorem waitTick_cpu : (waitTick s).cpu = s.cpu := by unfold waitTick; split_ifs <;> simp
@[simp] theorem waitTick_latch : (waitTick s).latch = s.latch := by unfold waitTick; split_ifs <;> simp
@[simp] theorem waitTick_mem : (waitTick s).mem = s.mem := by unfold waitTick; split_ifs <;> simp
@[simp] theorem waitTick_fault : (waitTick s).fault = s.fault := by unfold waitTick; split_ifs <;> simp
@[simp] theorem waitTick_refused : (waitTick s).refused = s.refused := by unfold waitTick; split_ifs <;> simp
@[simp] theorem waitTick_pre : (waitTick s).pre = s.pre := by unfold waitTick; split_ifs <;> simp
@[simp] theorem waitTick_extraPre : (waitTick s).extraPre = s.extraPre := by unfold waitTick; split_ifs <;> simp
@[simp] theorem waitTick_draws : (waitTick s).draws = s.draws := by unfold waitTick; split_ifs <;> simp
@[simp] theorem waitTick_params : (waitTick s).params = s.params := by unfold waitTick; split_ifs <;> simp

@[simp] theorem waitTicks_cpu (n : Nat) : (waitTicks n s).cpu = s.cpu := by
  induction n generalizing s with
  | zero => rfl
  | succ n ih => simp [waitTicks, ih]
@[simp] theorem waitTicks_latch (n : Nat) : (waitTicks n s).latch = s.latch := by
  induction n generalizing s with
  | zero => rfl
  | succ n ih => simp [waitTicks, ih]
@[simp] theorem waitTicks_mem (n : Nat) : (waitTicks n s).mem = s.mem := by
  induction n generalizing s with
  | zero => rfl
  | succ n ih => simp [waitTicks, ih]
@[simp] theorem waitTicks_fault (n : Nat) : (waitTicks n s).fault = s.fault := by
  induction n generalizing s with
  | zero => rfl
  | succ n ih => simp [waitTicks, ih]
@[simp] theorem waitTicks_refused (n : Nat) : (waitTicks n s).refused = s.refused := by
  induction n generalizing s with
  | zero => rfl
  | succ n ih => simp [waitTicks, ih]
@[simp] theorem waitTicks_pre (n : Nat) : (waitTicks n s).pre = s.pre := by
  induction n generalizing s with
  | zero => rfl
  | succ n ih => simp [waitTicks, ih]
@[simp] theorem waitTicks_extraPre (n : Nat) : (waitTicks n s).extraPre = s.extraPre := by
  induction n generalizing s with
  | zero => rfl
  | succ n ih => simp [waitTicks, ih]
@[simp] theorem waitTicks_draws (n : Nat) : (waitTicks n s).draws = s.draws := by
  induction n generalizing s with
  | zero => rfl
  | succ n ih => simp [waitTicks, ih]
@[simp] theorem waitTicks_params (n : Nat) : (waitTicks n s).params = s.params := by
  induction n generalizing s with
  | zero => rfl
  | succ n ih => simp [waitTicks, ih]

theorem waitTick_clk : (waitTick s).clk =
    { s.clk with counter := s.clk.counter + counted s 1, extra := s.clk.extra + counted s 1 } := by
  unfold waitTick
  split_ifs with h <;> simp [tick_clk, counted, h]

/-- Wait ticks advance clk.counter and clk.extra alike (R61). -/
theorem waitTicks_clk (n : Nat) : (waitTicks n s).clk =
    { s.clk with counter := s.clk.counter + counted s n, extra := s.clk.extra + counted s n } := by
  induction n generalizing s with
  | zero => simp [waitTicks]
  | succ n ih =>
    rw [waitTicks, ih, counted_congr (t := s) (by rw [waitTick_clk]), waitTick_clk]
    simp only [counted_add, Nat.add_assoc, Nat.add_comm (counted s n)]

@[simp] theorem waitTicks_suppress (n : Nat) : (waitTicks n s).clk.suppress = s.clk.suppress := by rw [waitTicks_clk]

theorem waitTick_sameTime : SameTime (tick s) (waitTick s) := by
  unfold waitTick
  split_ifs
  · exact ⟨rfl, rfl, rfl, rfl⟩
  · exact ⟨rfl, rfl, rfl, rfl⟩

/-- Wait ticks drive the timer exactly like any other tick (R61). -/
theorem waitTicks_sameTime (n : Nat) : SameTime (ticks n s) (waitTicks n s) := by
  induction n generalizing s with
  | zero => exact ⟨rfl, rfl, rfl, rfl⟩
  | succ n ih => exact ((waitTick_sameTime s).ticks n).trans (ih _)

/-! ## Events: a tick emits TimerTick and nothing else -/

/-- `t`'s log is `s`'s log with events that all satisfy `P` added. -/
def EmitsOnly (P : Event → Prop) (s t : State) : Prop := ∃ l, t.events = l ++ s.events ∧ ∀ e ∈ l, P e

theorem EmitsOnly.refl (P : Event → Prop) : EmitsOnly P s s := ⟨[], rfl, by simp⟩

theorem EmitsOnly.trans {P : Event → Prop} {s t u : State} (h : EmitsOnly P s t) (g : EmitsOnly P t u) :
    EmitsOnly P s u := by
  obtain ⟨l, hl, hP⟩ := h
  obtain ⟨k, hk, hQ⟩ := g
  refine ⟨k ++ l, by simp [hk, hl], ?_⟩
  intro e he
  rcases List.mem_append.1 he with he | he
  · exact hQ e he
  · exact hP e he

theorem EmitsOnly.mono {P Q : Event → Prop} {s t : State} (h : EmitsOnly P s t) (hPQ : ∀ e, P e → Q e) :
    EmitsOnly Q s t := by
  obtain ⟨l, hl, hP⟩ := h
  exact ⟨l, hl, fun e he => hPQ e (hP e he)⟩

theorem EmitsOnly.of_events {P : Event → Prop} {s t : State} (h : t.events = s.events) : EmitsOnly P s t :=
  ⟨[], by simpa using h, by simp⟩

theorem EmitsOnly.one {P : Event → Prop} {s t : State} {e : Event} (h : t.events = e :: s.events) (he : P e) :
    EmitsOnly P s t := ⟨[e], by simpa using h, by simpa using he⟩

theorem cycle_emits : EmitsOnly (· = .diag .info .timerTick) s (cycle s) := by
  unfold cycle timerStep
  split_ifs
  all_goals first | exact .of_events rfl | exact .one rfl rfl

theorem tick_emits : EmitsOnly (· = .diag .info .timerTick) s (tick s) := by
  unfold tick
  split_ifs
  · exact cycle_emits _
  · exact .refl _ _

theorem ticks_emits (n : Nat) : EmitsOnly (· = .diag .info .timerTick) s (ticks n s) := by
  induction n generalizing s with
  | zero => exact .refl _ _
  | succ n ih => exact (tick_emits s).trans (ih _)

theorem waitTick_emits : EmitsOnly (· = .diag .info .timerTick) s (waitTick s) := by
  unfold waitTick
  split_ifs
  · exact (tick_emits s).trans (.of_events rfl)
  · exact tick_emits s

theorem waitTicks_emits (n : Nat) : EmitsOnly (· = .diag .info .timerTick) s (waitTicks n s) := by
  induction n generalizing s with
  | zero => exact .refl _ _
  | succ n ih => exact (waitTick_emits s).trans (ih _)

/-! ## Ranges that time keeps -/

theorem cycle_inRange (h : s.tmr.InRange) : (cycle s).tmr.InRange := by
  obtain ⟨h1, h2, h3, h4, h5⟩ := h
  unfold cycle timerStep
  simp only [Config.timerPrescale, Config.timerQuantum] at *
  split_ifs <;> simp [Timer.InRange, Config.timerPrescale, Config.timerQuantum] <;> omega

theorem tick_inRange (h : s.tmr.InRange) : (tick s).tmr.InRange := by
  unfold tick
  split_ifs
  · exact cycle_inRange _ h
  · exact h

theorem ticks_inRange (n : Nat) (h : s.tmr.InRange) : (ticks n s).tmr.InRange := by
  induction n generalizing s with
  | zero => exact h
  | succ n ih => exact ih _ (tick_inRange s h)

/-- Without delivery, time never sets a pending line (spec/60_exceptions.md R236). -/
theorem cycle_pending (h : s.params.irqExtension = .none) : (cycle s).irq = s.irq := by
  unfold cycle timerStep
  split_ifs <;> simp_all

theorem ticks_pending (n : Nat) (h : s.params.irqExtension = .none) : (ticks n s).irq = s.irq := by
  induction n generalizing s with
  | zero => rfl
  | succ n ih =>
    rw [ticks_succ, ih _ (by simpa using h)]
    unfold tick
    split_ifs
    · exact cycle_pending _ h
    · rfl

theorem cycle_irqEnabled : (cycle s).irq.enabled = s.irq.enabled := by
  unfold cycle timerStep; split_ifs <;> rfl

@[simp] theorem ticks_irqEnabled (n : Nat) : (ticks n s).irq.enabled = s.irq.enabled := by
  induction n generalizing s with
  | zero => rfl
  | succ n ih =>
    rw [ticks_succ, ih]
    unfold tick
    split_ifs
    · exact cycle_irqEnabled _
    · rfl

end Sys2Proof.Machine
end

