-- ==== Sys2Proof/Laws/Memory.lean ====
section
/-! SUPPORT. Memory: a read after a write, and that every memory operation keeps the canonical form. -/

namespace Sys2Proof.Machine

@[simp] theorem Memory.read_nil (a : Nat) : Memory.read [] a = Memory.unlisted a := rfl

theorem Memory.read_cons (c : Host.Cell) (m : Memory) (a : Nat) :
    Memory.read (c :: m) a = if a = c.1 then c.2 else Memory.read m a := rfl

theorem Memory.read_insertCell_same (a : Nat) (v : Byte) (m : Memory) (h : ∀ c ∈ m, c.1 ≠ a) :
    Memory.read (Memory.insertCell a v m) a = v := by
  induction m with
  | nil => simp [insertCell, read]
  | cons c m ih =>
    simp only [List.mem_cons, forall_eq_or_imp] at h
    by_cases hlt : a < c.1
    · simp [insertCell, hlt, read]
    · simp [insertCell, hlt, read, Ne.symm h.1, ih h.2]

theorem Memory.read_insertCell_other (a b : Nat) (v : Byte) (m : Memory) (h : b ≠ a) :
    Memory.read (Memory.insertCell a v m) b = Memory.read m b := by
  induction m with
  | nil => simp [insertCell, read, h]
  | cons c m ih =>
    by_cases hlt : a < c.1
    · simp [insertCell, hlt, read, h]
    · simp [insertCell, hlt, read, ih]

theorem Memory.read_erase_same (m : Memory) (a : Nat) : Memory.read (Memory.erase m a) a = Memory.unlisted a := by
  induction m with
  | nil => rfl
  | cons c m ih =>
    by_cases hc : c.1 = a
    · simpa [erase, hc] using ih
    · simpa [erase, hc, read, Ne.symm hc] using ih

theorem Memory.read_erase_other (m : Memory) (a b : Nat) (h : b ≠ a) :
    Memory.read (Memory.erase m a) b = Memory.read m b := by
  induction m with
  | nil => rfl
  | cons c m ih =>
    by_cases hc : c.1 = a
    · subst hc
      simpa [erase, read, h] using ih
    · by_cases hb : b = c.1
      · simp [erase, hc, read, hb]
      · simpa [erase, hc, read, hb] using ih

/-- A read after a write gives the value written at that address and leaves every other address alone, in every memory,
canonical or not (spec/20_memory.md R63). -/
theorem Memory.read_write (m : Memory) (a b : Nat) (v : Byte) :
    Memory.read (Memory.write m a v) b = if b = a then v else Memory.read m b := by
  by_cases hv : v = unlisted a <;> by_cases hb : b = a
  · subst hb; simp [write, ← hv, read_erase_same]
  · simp [write, hv, hb, read_erase_other]
  · subst hb
    rw [write, if_neg hv, if_pos rfl, read_insertCell_same]
    intro c hc
    simp only [erase, List.mem_filter, bne_iff_ne] at hc
    exact hc.2
  · simp [write, hv, hb, read_insertCell_other, read_erase_other]

@[simp] theorem Memory.read_write_same (m : Memory) (a : Nat) (v : Byte) :
    Memory.read (Memory.write m a v) a = v := by simp [read_write]

theorem Memory.read_write_other (m : Memory) {a b : Nat} (v : Byte) (h : b ≠ a) :
    Memory.read (Memory.write m a v) b = Memory.read m b := by simp [read_write, h]

theorem Memory.mem_insertCell (a : Nat) (v : Byte) (m : Memory) (c : Host.Cell) :
    c ∈ Memory.insertCell a v m ↔ c = (a, v) ∨ c ∈ m := by
  induction m with
  | nil => simp [insertCell]
  | cons d m ih =>
    by_cases hlt : a < d.1
    · simp [insertCell, hlt]
    · simp only [insertCell, hlt, if_false, List.mem_cons, ih]; tauto

theorem Memory.erase_wf (m : Memory) (a : Nat) (h : m.wf) : (Memory.erase m a).wf :=
  ⟨h.1.filter _, fun c hc => h.2 c (List.mem_of_mem_filter hc)⟩

theorem Memory.insertCell_wf (m : Memory) (a : Nat) (v : Byte) (h : m.wf) (ha : ∀ c ∈ m, c.1 ≠ a)
    (hv : v ≠ Memory.unlisted a) : (Memory.insertCell a v m).wf := by
  refine ⟨?_, ?_⟩
  · induction m with
    | nil => simp [insertCell]
    | cons d m ih =>
      simp only [List.mem_cons, forall_eq_or_imp] at ha
      obtain ⟨hp, hu⟩ := h
      rw [List.pairwise_cons] at hp
      by_cases hlt : a < d.1
      · simp only [insertCell, hlt, if_true]
        refine List.pairwise_cons.2 ⟨?_, List.pairwise_cons.2 hp⟩
        intro c hc
        rcases List.mem_cons.1 hc with rfl | hc
        · exact hlt
        · exact lt_trans hlt (hp.1 c hc)
      · simp only [insertCell, hlt, if_false]
        refine List.pairwise_cons.2 ⟨?_, ih ⟨hp.2, fun c hc => hu c (List.mem_cons_of_mem _ hc)⟩ ha.2⟩
        intro c hc
        rcases (mem_insertCell a v m c).1 hc with rfl | hc
        · have := ha.1; simp only; omega
        · exact hp.1 c hc
  · intro c hc
    rcases (mem_insertCell a v m c).1 hc with rfl | hc
    · exact hv
    · exact h.2 c hc

/-- A write keeps the canonical form. -/
theorem Memory.write_wf (m : Memory) (a : Nat) (v : Byte) (h : m.wf) : (Memory.write m a v).wf := by
  by_cases hv : v = unlisted a
  · simpa [write, hv] using erase_wf m a h
  · rw [write, if_neg hv]
    refine insertCell_wf _ _ _ (erase_wf m a h) ?_ hv
    intro c hc
    simp only [erase, List.mem_filter, bne_iff_ne] at hc
    exact hc.2

/-- A write to an address that exists lists only addresses that exist. -/
theorem Memory.write_inSpace (m : Memory) (a : Nat) (v : Byte) (h : m.inSpace)
    (ha : a < romTop ∨ (ramBase ≤ a ∧ a < ramBase + ramSize)) : (Memory.write m a v).inSpace := by
  intro c hc
  by_cases hv : v = unlisted a
  · rw [write, if_pos hv] at hc
    exact h c (List.mem_of_mem_filter hc)
  · rw [write, if_neg hv, mem_insertCell] at hc
    rcases hc with rfl | hc
    · exact ha
    · exact h c (List.mem_of_mem_filter hc)

end Sys2Proof.Machine
end

