-- ==== Sys2Proof/Laws/Bus.lean ====
section
/-! SUPPORT. Address mapping, the control page, the dispatch and the access procedure: what each may change, said once. -/

namespace Sys2Proof.Machine

variable (s : State)

/-! ## Address mapping -/

@[simp] theorem bankOf_mapAddress (m : Mprs) (la : Word) : bankOf (mapAddress m la) = m.get (windowOf la) := by
  apply BitVec.eq_of_getLsbD_eq
  intro i hi
  have h : (mapAddress m la).getLsbD (13 + i) = _ :=
    BitVec.getLsbD_append (x := m.get (windowOf la)) (y := windowOffset la) (i := 13 + i)
  simp [bankOf, hi, h]

@[simp] theorem offsetOf_mapAddress (m : Mprs) (la : Word) : offsetOf (mapAddress m la) = windowOffset la := by
  apply BitVec.eq_of_getLsbD_eq
  intro i hi
  have h : (mapAddress m la).getLsbD i = _ :=
    BitVec.getLsbD_append (x := m.get (windowOf la)) (y := windowOffset la) (i := i)
  simp [offsetOf, hi, h]

theorem regionAt_eq (la : Word) : regionAt s la = regionOf (s.cpu.mpr.get (windowOf la)) := by
  simp [regionAt]

@[simp] theorem offsetAt_eq (la : Word) : offsetAt s la = windowOffset la := by
  simp [offsetAt]

theorem regionAt_congr {s t : State} (h : t.cpu.mpr = s.cpu.mpr) (la : Word) : regionAt t la = regionAt s la := by
  simp [regionAt, h]

/-! ## The control page -/

/-- Every 13-bit offset names a sub-device (spec/20_memory.md R68). -/
theorem subDevice_ne_none (off : BankOffset) : subDevice (off.toNat / 1024) ≠ none := by
  have h : off.toNat < 8192 := off.isLt
  have h8 : off.toNat / 1024 < 8 := by omega
  generalize off.toNat / 1024 = k at h8
  interval_cases k <;> simp [subDevice]

@[simp] theorem latchWrite_cpu (k : Access) (off : BankOffset) (v : Byte) : (latchWrite k off v s).cpu = s.cpu := by
  unfold latchWrite; split_ifs <;> rfl

@[simp] theorem controlPage_cpu (k : Access) (off : BankOffset) (v : Byte) : (controlPage k off v s).2.cpu = s.cpu := by
  have hsub := subDevice_ne_none off
  unfold controlPage
  split
  · contradiction
  all_goals
    cases k <;> simp only [extAccess, unimplemented, timerAccess, irqAccess]
    all_goals (try split_ifs) <;> simp

@[simp] theorem accessWait_cpu (pa : PhysAddr) : (accessWait pa s).cpu = s.cpu := by
  unfold accessWait; split_ifs <;> simp

@[simp] theorem latchWrite_clk (k : Access) (off : BankOffset) (v : Byte) : (latchWrite k off v s).clk = s.clk := by
  unfold latchWrite; split_ifs <;> rfl

@[simp] theorem controlPage_clk (k : Access) (off : BankOffset) (v : Byte) : (controlPage k off v s).2.clk = s.clk := by
  have hsub := subDevice_ne_none off
  unfold controlPage
  split
  · contradiction
  all_goals
    cases k <;> simp only [extAccess, unimplemented, timerAccess, irqAccess]
    all_goals (try split_ifs) <;> simp


@[simp] theorem latchWrite_mem (k : Access) (off : BankOffset) (v : Byte) : (latchWrite k off v s).mem = s.mem := by
  unfold latchWrite; split_ifs <;> rfl

@[simp] theorem controlPage_mem (k : Access) (off : BankOffset) (v : Byte) : (controlPage k off v s).2.mem = s.mem := by
  have hsub := subDevice_ne_none off
  unfold controlPage
  split
  · contradiction
  all_goals
    cases k <;> simp only [extAccess, unimplemented, timerAccess, irqAccess]
    all_goals (try split_ifs) <;> simp

@[simp] theorem accessWait_mem (pa : PhysAddr) : (accessWait pa s).mem = s.mem := by
  unfold accessWait; split_ifs <;> simp

@[simp] theorem latchWrite_fault (k : Access) (off : BankOffset) (v : Byte) : (latchWrite k off v s).fault = s.fault := by
  unfold latchWrite; split_ifs <;> rfl

@[simp] theorem controlPage_fault (k : Access) (off : BankOffset) (v : Byte) : (controlPage k off v s).2.fault = s.fault := by
  have hsub := subDevice_ne_none off
  unfold controlPage
  split
  · contradiction
  all_goals
    cases k <;> simp only [extAccess, unimplemented, timerAccess, irqAccess]
    all_goals (try split_ifs) <;> simp

@[simp] theorem accessWait_fault (pa : PhysAddr) : (accessWait pa s).fault = s.fault := by
  unfold accessWait; split_ifs <;> simp

@[simp] theorem latchWrite_refused (k : Access) (off : BankOffset) (v : Byte) : (latchWrite k off v s).refused = s.refused := by
  unfold latchWrite; split_ifs <;> rfl

@[simp] theorem controlPage_refused (k : Access) (off : BankOffset) (v : Byte) : (controlPage k off v s).2.refused = s.refused := by
  have hsub := subDevice_ne_none off
  unfold controlPage
  split
  · contradiction
  all_goals
    cases k <;> simp only [extAccess, unimplemented, timerAccess, irqAccess]
    all_goals (try split_ifs) <;> simp

@[simp] theorem accessWait_refused (pa : PhysAddr) : (accessWait pa s).refused = s.refused := by
  unfold accessWait; split_ifs <;> simp

@[simp] theorem latchWrite_pre (k : Access) (off : BankOffset) (v : Byte) : (latchWrite k off v s).pre = s.pre := by
  unfold latchWrite; split_ifs <;> rfl

@[simp] theorem controlPage_pre (k : Access) (off : BankOffset) (v : Byte) : (controlPage k off v s).2.pre = s.pre := by
  have hsub := subDevice_ne_none off
  unfold controlPage
  split
  · contradiction
  all_goals
    cases k <;> simp only [extAccess, unimplemented, timerAccess, irqAccess]
    all_goals (try split_ifs) <;> simp

@[simp] theorem accessWait_pre (pa : PhysAddr) : (accessWait pa s).pre = s.pre := by
  unfold accessWait; split_ifs <;> simp

@[simp] theorem latchWrite_extraPre (k : Access) (off : BankOffset) (v : Byte) : (latchWrite k off v s).extraPre = s.extraPre := by
  unfold latchWrite; split_ifs <;> rfl

@[simp] theorem controlPage_extraPre (k : Access) (off : BankOffset) (v : Byte) : (controlPage k off v s).2.extraPre = s.extraPre := by
  have hsub := subDevice_ne_none off
  unfold controlPage
  split
  · contradiction
  all_goals
    cases k <;> simp only [extAccess, unimplemented, timerAccess, irqAccess]
    all_goals (try split_ifs) <;> simp

@[simp] theorem accessWait_extraPre (pa : PhysAddr) : (accessWait pa s).extraPre = s.extraPre := by
  unfold accessWait; split_ifs <;> simp

@[simp] theorem latchWrite_params (k : Access) (off : BankOffset) (v : Byte) : (latchWrite k off v s).params = s.params := by
  unfold latchWrite; split_ifs <;> rfl

@[simp] theorem controlPage_params (k : Access) (off : BankOffset) (v : Byte) : (controlPage k off v s).2.params = s.params := by
  have hsub := subDevice_ne_none off
  unfold controlPage
  split
  · contradiction
  all_goals
    cases k <;> simp only [extAccess, unimplemented, timerAccess, irqAccess]
    all_goals (try split_ifs) <;> simp

@[simp] theorem accessWait_params (pa : PhysAddr) : (accessWait pa s).params = s.params := by
  unfold accessWait; split_ifs <;> simp


theorem irqAccess_read_state (w : Nat) (v : Byte) :
    (irqAccess .read w v s).2.tmr = s.tmr ∧ (irqAccess .read w v s).2.irq = s.irq ∧
      (irqAccess .read w v s).2.latch = s.latch := by
  unfold irqAccess; split_ifs <;> simp [unimplemented]

theorem timerAccess_read_state (w : Nat) (v : Byte) : (timerAccess .read w v s).2 = s := by
  unfold timerAccess; split_ifs <;> rfl

/-- A control-page read changes neither the timer, nor the interrupt controller, nor the latch (spec/20_memory.md R69,
R76). -/
theorem controlPage_read_state (off : BankOffset) (v : Byte) :
    (controlPage .read off v s).2.tmr = s.tmr ∧ (controlPage .read off v s).2.irq = s.irq ∧
      (controlPage .read off v s).2.latch = s.latch := by
  have hl : latchWrite .read off v s = s := by simp [latchWrite]
  have hsub := subDevice_ne_none off
  unfold controlPage
  split
  · contradiction
  all_goals
    simp [hl, extAccess, unimplemented, timerAccess_read_state, irqAccess_read_state]

/-- What a control-page access emits: EXT_DEVICE events and NotImplemented warnings. -/
def isDeviceEvent : Event → Prop
  | .extRead _ _ _ => True
  | .extWrite _ _ _ => True
  | .diag .warning (.notImplemented _ _) => True
  | _ => False

theorem extAccess_emits (k : Access) (dev : ExtDevice) (w : Nat) (v : Byte) :
    EmitsOnly isDeviceEvent s (extAccess k dev w v s).2 := by
  cases k <;> exact .one rfl trivial

theorem unimplemented_emits (k : Access) (sub w : Nat) : EmitsOnly isDeviceEvent s (unimplemented k sub w s).2 :=
  .one rfl trivial

theorem timerAccess_emits (k : Access) (w : Nat) (v : Byte) : EmitsOnly isDeviceEvent s (timerAccess k w v s).2 := by
  cases k <;> unfold timerAccess <;> simp only <;> split_ifs <;> exact .of_events rfl

theorem irqAccess_emits (k : Access) (w : Nat) (v : Byte) : EmitsOnly isDeviceEvent s (irqAccess k w v s).2 := by
  unfold irqAccess
  split_ifs
  · cases k <;> exact .of_events rfl
  · cases k <;> exact .of_events rfl
  · exact unimplemented_emits ..

theorem controlPage_emits (k : Access) (off : BankOffset) (v : Byte) :
    EmitsOnly isDeviceEvent s (controlPage k off v s).2 := by
  have hl : EmitsOnly isDeviceEvent s (latchWrite k off v s) :=
    .of_events (by unfold latchWrite; split_ifs <;> rfl)
  have hsub := subDevice_ne_none off
  unfold controlPage
  split
  · contradiction
  all_goals apply hl.trans
  all_goals first
    | exact extAccess_emits ..
    | exact unimplemented_emits ..
    | exact timerAccess_emits ..
    | exact irqAccess_emits ..

/-! ## The dispatch -/

@[simp] theorem dispatch_cpu (k : Access) (pa : PhysAddr) (v : Byte) : (dispatch k pa v s).2.cpu = s.cpu := by
  unfold dispatch; split <;> simp

@[simp] theorem dispatch_clk (k : Access) (pa : PhysAddr) (v : Byte) : (dispatch k pa v s).2.clk = s.clk := by
  unfold dispatch; split <;> simp

@[simp] theorem dispatch_fault (k : Access) (pa : PhysAddr) (v : Byte) : (dispatch k pa v s).2.fault = s.fault := by
  unfold dispatch; split <;> simp

@[simp] theorem dispatch_refused (k : Access) (pa : PhysAddr) (v : Byte) : (dispatch k pa v s).2.refused = s.refused := by
  unfold dispatch; split <;> simp

@[simp] theorem dispatch_pre (k : Access) (pa : PhysAddr) (v : Byte) : (dispatch k pa v s).2.pre = s.pre := by
  unfold dispatch; split <;> simp

@[simp] theorem dispatch_extraPre (k : Access) (pa : PhysAddr) (v : Byte) : (dispatch k pa v s).2.extraPre = s.extraPre := by
  unfold dispatch; split <;> simp

@[simp] theorem dispatch_params (k : Access) (pa : PhysAddr) (v : Byte) : (dispatch k pa v s).2.params = s.params := by
  unfold dispatch; split <;> simp

@[simp] theorem dispatch_read_mem (pa : PhysAddr) (v : Byte) : (dispatch .read pa v s).2.mem = s.mem := by
  unfold dispatch; split <;> simp_all

theorem dispatch_write_mem (pa : PhysAddr) (v : Byte) : (dispatch .write pa v s).2.mem =
    if regionOf (bankOf pa) = .ram then s.mem.write (ramKey (offsetOf pa)) v else s.mem := by
  unfold dispatch; split <;> simp_all

theorem dispatch_read_state (pa : PhysAddr) (v : Byte) :
    (dispatch .read pa v s).2.tmr = s.tmr ∧ (dispatch .read pa v s).2.irq = s.irq ∧
      (dispatch .read pa v s).2.latch = s.latch := by
  unfold dispatch; split <;> simp_all [controlPage_read_state]

/-- Outside the control page a dispatch touches memory only. -/
theorem dispatch_state_of_ne_controlPage (k : Access) (pa : PhysAddr) (v : Byte)
    (h : regionOf (bankOf pa) ≠ .controlPage) :
    (dispatch k pa v s).2 = s.setMem (dispatch k pa v s).2.mem := by
  unfold dispatch; split <;> first | rfl | contradiction

theorem dispatch_emits (k : Access) (pa : PhysAddr) (v : Byte) : EmitsOnly isDeviceEvent s (dispatch k pa v s).2 := by
  unfold dispatch
  split
  all_goals first | exact controlPage_emits s _ _ _ | exact .of_events rfl

/-! ## The access procedure -/

@[simp] theorem access_cpu (k : Access) (la : Word) (v : Byte) : (access k la v s).2.cpu = s.cpu := by
  simp [access]

@[simp] theorem memRead_cpu (la : Word) : (memRead la s).2.cpu = s.cpu := by simp [memRead]

@[simp] theorem memWrite_cpu (la : Word) (v : Byte) : (memWrite la v s).cpu = s.cpu := by simp [memWrite]

@[simp] theorem access_fault (k : Access) (la : Word) (v : Byte) : (access k la v s).2.fault = s.fault := by
  simp [access]

@[simp] theorem memRead_fault (la : Word) : (memRead la s).2.fault = s.fault := by simp [memRead]

@[simp] theorem memWrite_fault (la : Word) (v : Byte) : (memWrite la v s).fault = s.fault := by simp [memWrite]

@[simp] theorem access_refused (k : Access) (la : Word) (v : Byte) : (access k la v s).2.refused = s.refused := by
  simp [access]

@[simp] theorem memRead_refused (la : Word) : (memRead la s).2.refused = s.refused := by simp [memRead]

@[simp] theorem memWrite_refused (la : Word) (v : Byte) : (memWrite la v s).refused = s.refused := by simp [memWrite]

@[simp] theorem access_pre (k : Access) (la : Word) (v : Byte) : (access k la v s).2.pre = s.pre := by
  simp [access]

@[simp] theorem memRead_pre (la : Word) : (memRead la s).2.pre = s.pre := by simp [memRead]

@[simp] theorem memWrite_pre (la : Word) (v : Byte) : (memWrite la v s).pre = s.pre := by simp [memWrite]

@[simp] theorem access_extraPre (k : Access) (la : Word) (v : Byte) : (access k la v s).2.extraPre = s.extraPre := by
  simp [access]

@[simp] theorem memRead_extraPre (la : Word) : (memRead la s).2.extraPre = s.extraPre := by simp [memRead]

@[simp] theorem memWrite_extraPre (la : Word) (v : Byte) : (memWrite la v s).extraPre = s.extraPre := by simp [memWrite]

@[simp] theorem access_params (k : Access) (la : Word) (v : Byte) : (access k la v s).2.params = s.params := by
  simp [access]

@[simp] theorem memRead_params (la : Word) : (memRead la s).2.params = s.params := by simp [memRead]

@[simp] theorem memWrite_params (la : Word) (v : Byte) : (memWrite la v s).params = s.params := by simp [memWrite]

theorem accessWait_clk (la : Word) : (accessWait (mapAddress s.cpu.mpr la) s).clk =
    { s.clk with
      counter := s.clk.counter + counted s (waitCost s la)
      extra := s.clk.extra + counted s (waitCost s la) } := by
  unfold accessWait waitCost regionAt
  split_ifs with h
  · rw [waitTicks_clk]
  · simp

/-- Every access costs accessCost ticks, waitCost of them control-page waits (spec/20_memory.md R58, R61). -/
theorem access_clk (k : Access) (la : Word) (v : Byte) : (access k la v s).2.clk =
    { s.clk with
      counter := s.clk.counter + counted s (accessCost s la)
      extra := s.clk.extra + counted s (waitCost s la) } := by
  have hc : ∀ n, counted (dispatch k (mapAddress s.cpu.mpr la) v (accessWait (mapAddress s.cpu.mpr la) s)).2 n
      = counted s n := fun n => counted_congr (by simp [accessWait_clk]) n
  simp [access, ticks_clk, accessWait_clk, hc, accessCost, counted_add, Nat.add_assoc]

theorem accessWait_sameTime (la : Word) :
    SameTime (ticks (waitCost s la) s) (accessWait (mapAddress s.cpu.mpr la) s) := by
  unfold accessWait waitCost regionAt
  split_ifs
  · exact waitTicks_sameTime s _
  · exact ⟨rfl, rfl, rfl, rfl⟩

/-- A read lets time pass and changes nothing else of the machine but the event log and the draw count. -/
theorem memRead_frame (la : Word) : ReadFrame (accessCost s la) (waitCost s la) s (memRead la s).2 := by
  have hd := dispatch_read_state (accessWait (mapAddress s.cpu.mpr la) s) (mapAddress s.cpu.mpr la) 0#8
  have ht : SameTime (ticks (waitCost s la) s)
      (dispatch .read (mapAddress s.cpu.mpr la) 0#8 (accessWait (mapAddress s.cpu.mpr la) s)).2 :=
    (accessWait_sameTime s la).trans ⟨hd.1, hd.2.1, by simp, by simp⟩
  have hn := ht.ticks (accessTicks s.cpu.fast)
  rw [← ticks_add] at hn
  exact {
    clk := access_clk s .read la 0#8
    tmr := hn.tmr
    irq := hn.irq
    fault := by simp
    refused := by simp
    pre := by simp
    extraPre := by simp
    params := by simp
    mem := fun k => by simp [memRead, access]
    latch := by
      simp only [memRead, access, ticks_latch, hd.2.2]
      unfold accessWait; split_ifs <;> simp }

@[simp] theorem memRead_mem (la : Word) : (memRead la s).2.mem = s.mem := by simp [memRead, access]

/-- Outside the control page a read answers what the bus holds now. -/
theorem memRead_value (la : Word) (h : regionAt s la ≠ .controlPage) : (memRead la s).1 = peek la s := by
  have hw : accessWait (mapAddress s.cpu.mpr la) s = s := by
    unfold accessWait; rw [if_neg]; exact h
  simp [memRead, access, peek, hw]

/-- What a read finds on ROM, RAM or open bus. -/
theorem peek_eq_loadMem (la : Word) (h : regionAt s la ≠ .controlPage) : peek la s = loadMem s s.mem la := by
  unfold regionAt at h
  unfold peek loadMem dispatch regionAt offsetAt
  cases hr : regionOf (bankOf (mapAddress s.cpu.mpr la)) <;> first | rfl | exact absurd hr h

/-- A write costs what every access costs. -/
theorem memWrite_clk (la : Word) (v : Byte) : (memWrite la v s).clk =
    { s.clk with
      counter := s.clk.counter + counted s (accessCost s la)
      extra := s.clk.extra + counted s (waitCost s la) } := access_clk s .write la v

/-- A write stores to memory only where it reaches RAM (spec/20_memory.md R57, R62 to R64). -/
theorem memWrite_mem (la : Word) (v : Byte) : (memWrite la v s).mem = storeMem s s.mem la v := by
  simp only [memWrite, access, ticks_mem, dispatch_write_mem, accessWait_mem, storeMem, storedKey, regionAt, offsetAt]
  split_ifs with h <;> simp only [h, if_true, if_false]

theorem memWrite_read (la : Word) (v : Byte) (k : Nat) :
    (memWrite la v s).mem.read k = if storedKey s la = some k then v else s.mem.read k := by
  rw [memWrite_mem, storeMem]
  cases h : storedKey s la with
  | none => simp
  | some a => simp [Memory.read_write, eq_comm]

/-- Outside the control page a write lets time pass and stores to memory, and nothing else. -/
theorem memWrite_elapsed (la : Word) (v : Byte) (h : regionAt s la ≠ .controlPage) :
    Elapsed (accessTicks s.cpu.fast) 0 s (memWrite la v s) ∧ (memWrite la v s).latch = s.latch := by
  have hw : accessWait (mapAddress s.cpu.mpr la) s = s := by
    unfold accessWait; rw [if_neg]; exact h
  have hd := dispatch_state_of_ne_controlPage s .write (mapAddress s.cpu.mpr la) v h
  have ht : SameTime s (dispatch .write (mapAddress s.cpu.mpr la) v s).2 := by
    rw [hd]; exact ⟨rfl, rfl, rfl, rfl⟩
  have hn := ht.ticks (accessTicks s.cpu.fast)
  refine ⟨⟨?_, ?_, ?_⟩, ?_⟩
  · rw [memWrite_clk]; simp [accessCost, waitCost, h]
  · simpa [memWrite, access, hw] using hn.tmr
  · simpa [memWrite, access, hw] using hn.irq
  · simp only [memWrite, access, hw, ticks_latch]; rw [hd]; rfl

/-- What an access emits: the timer's ticks, EXT_DEVICE events, NotImplemented warnings. -/
def isAccessEvent (e : Event) : Prop := e = .diag .info .timerTick ∨ isDeviceEvent e

theorem access_emits (k : Access) (la : Word) (v : Byte) : EmitsOnly isAccessEvent s (access k la v s).2 := by
  have hw : EmitsOnly isAccessEvent s (accessWait (mapAddress s.cpu.mpr la) s) := by
    unfold accessWait
    split_ifs
    · exact (waitTicks_emits s _).mono fun e h => Or.inl h
    · exact .refl _ _
  exact (hw.trans ((dispatch_emits _ k _ v).mono fun e h => Or.inr h)).trans
    ((ticks_emits _ _).mono fun e h => Or.inl h)

end Sys2Proof.Machine
end

