-- ==== Sys2Proof/Laws/Ops.lean ====
section
/-! SUPPORT. The shared operations: what a fetch, a dummy read, a push, a pop and a block copy may change, said once. -/

namespace Sys2Proof.Machine

variable (s : State)

/-! ## Bytes of a word -/

@[simp] theorem loByte_wordOf (hi lo : Byte) : loByte (wordOf hi lo) = lo := by
  apply BitVec.eq_of_getLsbD_eq
  intro i h
  have e : (wordOf hi lo).getLsbD i = _ := BitVec.getLsbD_append (x := hi) (y := lo) (i := i)
  simp [loByte, h, e]

@[simp] theorem hiByte_wordOf (hi lo : Byte) : hiByte (wordOf hi lo) = hi := by
  apply BitVec.eq_of_getLsbD_eq
  intro i h
  have e : (wordOf hi lo).getLsbD (8 + i) = _ := BitVec.getLsbD_append (x := hi) (y := lo) (i := 8 + i)
  simp [hiByte, h, e]

@[simp] theorem wordOf_bytes (w : Word) : wordOf (hiByte w) (loByte w) = w := by
  apply BitVec.eq_of_getLsbD_eq
  intro i h
  have e : (wordOf (hiByte w) (loByte w)).getLsbD i = _ :=
    BitVec.getLsbD_append (x := hiByte w) (y := loByte w) (i := i)
  rw [e]
  by_cases h8 : i < 8
  · simp [h8, loByte]
  · have : i - 8 < 8 := by omega
    have h' : 8 + (i - 8) = i := by omega
    simp [h8, hiByte, this, h']

@[simp] theorem loByte_zeroExtend16 (b : Byte) : loByte (zeroExtend16 b) = b := by
  apply BitVec.eq_of_getLsbD_eq
  intro i h
  have : i < 16 := by omega
  simp [loByte, zeroExtend16, h, this]

/-! ## Transitivity of the frames -/

theorem SameBook.refl : SameBook s s := ⟨rfl, rfl, rfl, rfl, rfl⟩

theorem SameBook.trans {s t u : State} (h : SameBook s t) (g : SameBook t u) : SameBook s u :=
  ⟨g.fault.trans h.fault, g.refused.trans h.refused, g.pre.trans h.pre, g.extraPre.trans h.extraPre,
    g.params.trans h.params⟩

theorem Elapsed.sameTime {n w : Nat} {s t : State} (h : Elapsed n w s t) (hp : t.params = s.params) :
    SameTime (ticks n s) t := ⟨h.tmr, h.irq, by rw [h.clk]; simp, by simp [hp]⟩

theorem Elapsed.trans {n w m x : Nat} {s t u : State} (h : Elapsed n w s t) (hp : t.params = s.params)
    (g : Elapsed m x t u) : Elapsed (n + m) (w + x) s u := by
  have hc : ∀ k, counted t k = counted s k := fun k => counted_congr (by rw [h.clk]) k
  have ht := (h.sameTime hp).ticks m
  rw [← ticks_add] at ht
  refine ⟨?_, g.tmr.trans ht.tmr, g.irq.trans ht.irq⟩
  rw [g.clk, h.clk]
  simp only [hc, counted_add, Nat.add_assoc]

theorem Elapsed.refl : Elapsed 0 0 s s := ⟨by simp, rfl, rfl⟩

theorem ReadFrame.trans {n w m x : Nat} {s t u : State} (h : ReadFrame n w s t) (g : ReadFrame m x t u) :
    ReadFrame (n + m) (w + x) s u :=
  { h.toElapsed.trans h.params g.toElapsed, h.toSameBook.trans g.toSameBook with
    mem := fun k => (g.mem k).trans (h.mem k)
    latch := g.latch.trans h.latch }

theorem ReadFrame.refl : ReadFrame 0 0 s s :=
  { Elapsed.refl s, SameBook.refl s with mem := fun _ => rfl, latch := rfl }

/-- Changing registers only is within a read frame. -/
theorem ReadFrame.setCpu {n w : Nat} {s t : State} (h : ReadFrame n w s t) (c : Cpu) : ReadFrame n w s (t.setCpu c) :=
  { clk := h.clk, tmr := h.tmr, irq := h.irq, fault := h.fault, refused := h.refused, pre := h.pre
    extraPre := h.extraPre, params := h.params, mem := h.mem, latch := h.latch }

/-- Emitting an event is within a read frame. -/
theorem ReadFrame.emit {n w : Nat} {s t : State} (h : ReadFrame n w s t) (e : Event) : ReadFrame n w s (t.emit e) :=
  { clk := h.clk, tmr := h.tmr, irq := h.irq, fault := h.fault, refused := h.refused, pre := h.pre
    extraPre := h.extraPre, params := h.params, mem := h.mem, latch := h.latch }

/-! ## Reads do not depend on the log or on the registers other than the speed and the MPRs -/

theorem accessCost_congr {s t : State} (hm : t.cpu.mpr = s.cpu.mpr) (hf : t.cpu.fast = s.cpu.fast)
    (hp : t.params = s.params) (la : Word) : accessCost t la = accessCost s la ∧ waitCost t la = waitCost s la := by
  simp [accessCost, waitCost, regionAt, hm, hf, hp]

/-! ## The stack -/

/-- The stack page lies in window 1 (spec/40_execute_loop.md R124). -/
theorem windowOf_stackAddr : ∀ sp : Byte, windowOf (stackAddr sp) = 1#3 := by decide

/-- The stack page has the offsets 0x0100 to 0x01FF of its bank (R124). -/
theorem windowOffset_stackAddr : ∀ sp : Byte, (windowOffset (stackAddr sp)).toNat = 0x100 + sp.toNat := by decide

/-- The stack page is one region. -/
theorem regionAt_stackAddr (sp sp' : Byte) : regionAt s (stackAddr sp) = regionAt s (stackAddr sp') := by
  simp [regionAt_eq, windowOf_stackAddr]

/-- A control-page write below offset 0x0400 is an EXT_DEVICE write and no more (spec/20_memory.md R66, R69). -/
theorem controlPage_write_vdc (off : BankOffset) (v : Byte) (h : off.toNat < 1024) :
    (controlPage .write off v s).2 = s.emit (.extWrite .vdc (off.toNat % 4) v) := by
  have h0 : off.toNat / 1024 = 0 := by omega
  have hl : latchWrite .write off v s = s := by
    unfold latchWrite inLatchRange
    rw [if_neg]
    simp; omega
  simp [controlPage, h0, subDevice, hl, extAccess, SubDevice.period]

/-- A write to the stack page lets time pass and stores to memory, and nothing else, in every region. -/
theorem memWrite_stack_elapsed (sp v : Byte) :
    Elapsed (accessCost s (stackAddr sp)) (waitCost s (stackAddr sp)) s (memWrite (stackAddr sp) v s) ∧
      (memWrite (stackAddr sp) v s).latch = s.latch := by
  by_cases h : regionAt s (stackAddr sp) = .controlPage
  · have hr : regionOf (bankOf (mapAddress s.cpu.mpr (stackAddr sp))) = .controlPage := h
    have ho : (offsetOf (mapAddress s.cpu.mpr (stackAddr sp))).toNat < 1024 := by
      rw [offsetOf_mapAddress, windowOffset_stackAddr]
      have : sp.toNat < 256 := sp.isLt
      omega
    have hd : ∀ t : State, (dispatch .write (mapAddress s.cpu.mpr (stackAddr sp)) v t).2 =
        t.emit (.extWrite .vdc ((offsetOf (mapAddress s.cpu.mpr (stackAddr sp))).toNat % 4) v) := by
      intro t
      unfold dispatch
      split <;> simp_all [controlPage_write_vdc]
    have ht := (accessWait_sameTime s (stackAddr sp)).trans
      (u := (accessWait (mapAddress s.cpu.mpr (stackAddr sp)) s).emit
        (.extWrite .vdc ((offsetOf (mapAddress s.cpu.mpr (stackAddr sp))).toNat % 4) v)) ⟨rfl, rfl, rfl, rfl⟩
    have hn := ht.ticks (accessTicks s.cpu.fast)
    rw [← ticks_add] at hn
    refine ⟨⟨memWrite_clk s _ _, ?_, ?_⟩, ?_⟩
    · simpa [memWrite, access, hd, accessCost] using hn.tmr
    · simpa [memWrite, access, hd, accessCost] using hn.irq
    · simp only [memWrite, access, hd, ticks_latch, State.emit_latch]
      unfold accessWait; split_ifs; simp
  · have he := memWrite_elapsed s (stackAddr sp) v h
    refine ⟨?_, he.2⟩
    simpa [accessCost, waitCost, h] using he.1

@[simp] theorem push_cpu (v : Byte) : (push v s).cpu = { s.cpu with sp := s.cpu.sp - 1#8 } := by simp [push]

@[simp] theorem push_mem (v : Byte) : (push v s).mem = storeMem s s.mem (stackAddr s.cpu.sp) v := by
  simp [push, memWrite_mem]

theorem push_sameBook (v : Byte) : SameBook s (push v s) := by constructor <;> simp [push]

theorem push_elapsed (v : Byte) :
    Elapsed (accessCost s (stackAddr s.cpu.sp)) (waitCost s (stackAddr s.cpu.sp)) s (push v s) ∧
      (push v s).latch = s.latch := by
  have h := memWrite_stack_elapsed s s.cpu.sp v
  exact ⟨⟨h.1.clk, h.1.tmr, h.1.irq⟩, h.2⟩

@[simp] theorem pop_cpu : (pop s).2.cpu = { s.cpu with sp := s.cpu.sp + 1#8 } := by simp [pop]

@[simp] theorem pop_mem : (pop s).2.mem = s.mem := by simp [pop]

theorem pop_frame : ReadFrame (accessCost s (stackAddr (s.cpu.sp + 1#8))) (waitCost s (stackAddr (s.cpu.sp + 1#8)))
    s (pop s).2 := by
  have h := memRead_frame (s.setCpu { s.cpu with sp := s.cpu.sp + 1#8 }) (stackAddr (s.cpu.sp + 1#8))
  have hc := accessCost_congr (s := s) (t := s.setCpu { s.cpu with sp := s.cpu.sp + 1#8 }) rfl rfl rfl
    (stackAddr (s.cpu.sp + 1#8))
  rw [hc.1, hc.2] at h
  have h0 : ReadFrame 0 0 s (s.setCpu { s.cpu with sp := s.cpu.sp + 1#8 }) := (ReadFrame.refl s).setCpu _
  simpa [pop] using h0.trans h

/-! ## Fetch and dummy read -/

@[simp] theorem fetchByte_cpu : (fetchByte s).2.cpu = { s.cpu with pc := s.cpu.pc + 1#16 } := by
  simp [fetchByte, setPC]

theorem fetchByte_frame : ReadFrame (accessCost s s.cpu.pc) (waitCost s s.cpu.pc) s (fetchByte s).2 :=
  (memRead_frame s s.cpu.pc).setCpu _

@[simp] theorem dummyImplied_cpu : (dummyImplied s).cpu = s.cpu := by simp [dummyImplied]

theorem dummyImplied_frame : ReadFrame (accessCost s s.cpu.pc) (waitCost s s.cpu.pc) s (dummyImplied s) :=
  memRead_frame s s.cpu.pc

/-! ## The block copy -/

@[simp] theorem copyBlock_cpu (n : Nat) (src dst : Word) : (copyBlock n src dst s).cpu = s.cpu := by
  induction n generalizing s src dst with
  | zero => rfl
  | succ n ih => simp [copyBlock, ih]

theorem copyBlock_sameBook (n : Nat) (src dst : Word) : SameBook s (copyBlock n src dst s) := by
  induction n generalizing s src dst with
  | zero => exact .refl s
  | succ n ih =>
    refine SameBook.trans (t := memWrite dst (memRead src s).1 (memRead src s).2) ?_ (ih _ _ _)
    constructor <;> simp

theorem storedKey_congr {s t : State} (h : t.cpu.mpr = s.cpu.mpr) (la : Word) : storedKey t la = storedKey s la := by
  simp [storedKey, regionAt, offsetAt, h]

/-- A block copy leaves every byte alone that no destination address stores to. -/
theorem copyBlock_read_other (n : Nat) (src dst : Word) (k : Nat)
    (h : ∀ j < n, storedKey s (dst + BitVec.ofNat 16 j) ≠ some k) :
    (copyBlock n src dst s).mem.read k = s.mem.read k := by
  induction n generalizing s src dst with
  | zero => rfl
  | succ n ih =>
    have h0 : storedKey s dst ≠ some k := by simpa using h 0 (by omega)
    rw [copyBlock, ih]
    · have h0' : storedKey (memRead src s).2 dst ≠ some k := by rwa [storedKey_congr (s := s) (by simp)]
      rw [memWrite_read, if_neg h0', memRead_mem]
    · intro j hj
      rw [storedKey_congr (s := s) (by simp)]
      have e : dst + 1#16 + BitVec.ofNat 16 j = dst + BitVec.ofNat 16 (j + 1) := by
        rw [BitVec.add_assoc, ← BitVec.ofNat_add, Nat.add_comm 1 j]
      rw [e]
      exact h (j + 1) (by omega)

end Sys2Proof.Machine
end

