-- ==== Sys2Proof/Laws/SameBus.lean ====
section
/-! SUPPORT. What an access depends on: two states with the same bus answer every access alike, whatever else differs (the
event log, the records, the counters, the registers other than the speed and the MPRs). -/

namespace Sys2Proof.Machine

/-- Two states that agree on all that an access reads. -/
structure SameBus (s t : State) : Prop where
  mpr : t.cpu.mpr = s.cpu.mpr
  fast : t.cpu.fast = s.cpu.fast
  suppress : t.clk.suppress = s.clk.suppress
  latch : t.latch = s.latch
  tmr : t.tmr = s.tmr
  irq : t.irq = s.irq
  mem : t.mem = s.mem
  draws : t.draws = s.draws
  params : t.params = s.params

theorem SameBus.refl (s : State) : SameBus s s := ⟨rfl, rfl, rfl, rfl, rfl, rfl, rfl, rfl, rfl⟩

theorem SameBus.symm {s t : State} (h : SameBus s t) : SameBus t s :=
  ⟨h.mpr.symm, h.fast.symm, h.suppress.symm, h.latch.symm, h.tmr.symm, h.irq.symm, h.mem.symm, h.draws.symm,
    h.params.symm⟩

theorem SameBus.trans {s t u : State} (h : SameBus s t) (g : SameBus t u) : SameBus s u :=
  ⟨g.mpr.trans h.mpr, g.fast.trans h.fast, g.suppress.trans h.suppress, g.latch.trans h.latch, g.tmr.trans h.tmr,
    g.irq.trans h.irq, g.mem.trans h.mem, g.draws.trans h.draws, g.params.trans h.params⟩

theorem SameBus.sameTime {s t : State} (h : SameBus s t) : SameTime s t := ⟨h.tmr, h.irq, h.suppress, h.params⟩

theorem SameBus.ticks {s t : State} (h : SameBus s t) (n : Nat) : SameBus (ticks n s) (ticks n t) where
  mpr := by simp [h.mpr]
  fast := by simp [h.fast]
  suppress := by simp [h.suppress]
  latch := by simp [h.latch]
  tmr := (h.sameTime.ticks n).tmr
  irq := (h.sameTime.ticks n).irq
  mem := by simp [h.mem]
  draws := by simp [h.draws]
  params := by simp [h.params]

theorem waitTicks_sameBus (s : State) (n : Nat) : SameBus (ticks n s) (waitTicks n s) where
  mpr := by simp
  fast := by simp
  suppress := (waitTicks_sameTime s n).suppress
  latch := by simp
  tmr := (waitTicks_sameTime s n).tmr
  irq := (waitTicks_sameTime s n).irq
  mem := by simp
  draws := by simp
  params := by simp

theorem SameBus.waitTicks {s t : State} (h : SameBus s t) (n : Nat) : SameBus (waitTicks n s) (waitTicks n t) :=
  (waitTicks_sameBus s n).symm.trans ((h.ticks n).trans (waitTicks_sameBus t n))

theorem SameBus.accessWait {s t : State} (h : SameBus s t) (pa : PhysAddr) :
    SameBus (accessWait pa s) (accessWait pa t) := by
  unfold Machine.accessWait
  rw [h.params]
  split_ifs
  · exact h.waitTicks _
  · exact h

theorem SameBus.controlPage {s t : State} (h : SameBus s t) (k : Access) (off : BankOffset) (v : Byte) :
    (controlPage k off v t).1 = (controlPage k off v s).1 ∧
      SameBus (controlPage k off v s).2 (controlPage k off v t).2 := by
  have hl : SameBus (latchWrite k off v s) (latchWrite k off v t) := by
    unfold latchWrite
    split_ifs
    · exact ⟨h.mpr, h.fast, h.suppress, rfl, h.tmr, h.irq, h.mem, h.draws, h.params⟩
    · exact h
  obtain ⟨h1, h2, h3, h4, h5, h6, h7, h8, h9⟩ := hl
  have hsub := subDevice_ne_none off
  unfold Machine.controlPage
  split
  · contradiction
  all_goals
    cases k <;> simp only [extAccess, unimplemented, timerAccess, irqAccess]
    all_goals (try split_ifs)
    all_goals exact ⟨by simp_all, by constructor <;> simp_all⟩

theorem SameBus.dispatch {s t : State} (h : SameBus s t) (k : Access) (pa : PhysAddr) (v : Byte) :
    (dispatch k pa v t).1 = (dispatch k pa v s).1 ∧ SameBus (dispatch k pa v s).2 (dispatch k pa v t).2 := by
  unfold Machine.dispatch
  split
  all_goals first
    | exact h.controlPage _ _ _
    | exact ⟨by simp [h.mem],
        ⟨h.mpr, h.fast, h.suppress, h.latch, h.tmr, h.irq, by simp [h.mem], h.draws, h.params⟩⟩

/-- States with the same bus answer an access alike and have the same bus after it. -/
theorem SameBus.access {s t : State} (h : SameBus s t) (k : Access) (la : Word) (v : Byte) :
    (access k la v t).1 = (access k la v s).1 ∧ SameBus (access k la v s).2 (access k la v t).2 := by
  unfold Machine.access
  rw [h.mpr, h.fast]
  have hd := (h.accessWait (mapAddress s.cpu.mpr la)).dispatch k (mapAddress s.cpu.mpr la) v
  exact ⟨hd.1, hd.2.ticks _⟩

theorem SameBus.memRead {s t : State} (h : SameBus s t) (la : Word) :
    (memRead la t).1 = (memRead la s).1 ∧ SameBus (memRead la s).2 (memRead la t).2 := h.access .read la 0#8

theorem SameBus.memWrite {s t : State} (h : SameBus s t) (la : Word) (v : Byte) :
    SameBus (memWrite la v s) (memWrite la v t) := (h.access .write la v).2

theorem SameBus.peek {s t : State} (h : SameBus s t) (la : Word) : peek la t = peek la s := by
  unfold Machine.peek
  rw [h.mpr]
  exact (h.dispatch .read _ _).1

theorem SameBus.accessCost {s t : State} (h : SameBus s t) (la : Word) :
    accessCost t la = accessCost s la ∧ waitCost t la = waitCost s la :=
  accessCost_congr h.mpr h.fast h.params la

/-- Emitting an event leaves the bus alone. -/
theorem sameBus_emit (s : State) (e : Event) : SameBus s (s.emit e) := ⟨rfl, rfl, rfl, rfl, rfl, rfl, rfl, rfl, rfl⟩

/-- Replacing registers other than the speed and the MPRs leaves the bus alone. -/
theorem sameBus_setCpu (s : State) (c : Cpu) (hm : c.mpr = s.cpu.mpr) (hf : c.fast = s.cpu.fast) :
    SameBus s (s.setCpu c) := ⟨hm, hf, rfl, rfl, rfl, rfl, rfl, rfl, rfl⟩

/-! ## Reading an operand -/

/-- ReadOperand answers the operand's value (spec/40_execute_loop.md R121). -/
@[simp] theorem readOperand_value (o : Operand) (s : State) : (readOperand o s).1 = operandValue s o := by
  cases o with
  | imm v => rfl
  | addr a => exact ((sameBus_emit s (.diag .info (.operandSource (.addr a)))).memRead a).1

@[simp] theorem readOperand_cpu (o : Operand) (s : State) : (readOperand o s).2.cpu = s.cpu := by
  cases o <;> simp [readOperand]

/-- ReadOperand has the frame of a read: no access for an immediate, one for an address (R121). -/
theorem readOperand_frame (o : Operand) (s : State) :
    ReadFrame (operandCost s o) (operandWait s o) s (readOperand o s).2 := by
  cases o with
  | imm v => exact (ReadFrame.refl s).emit _
  | addr a =>
    have h := memRead_frame (s.emit (.diag .info (.operandSource (.addr a)))) a
    have h' := ((ReadFrame.refl s).emit (.diag .info (.operandSource (.addr a)))).trans h
    simpa [readOperand, diag, operandCost, operandWait, accessCost, waitCost, regionAt] using h'

end Sys2Proof.Machine
end

