-- ==== Sys2Proof/Laws/Stack.lean ====
section
/-! SUPPORT. The stack: what two or three pushes and pops do (spec/40_execute_loop.md R124 to R126), and the flags byte. -/

namespace Sys2Proof.Machine

variable (s : State)

/-! ## Pure memory effects depend on the MPRs only -/

theorem storeMem_congr {s t : State} (h : t.cpu.mpr = s.cpu.mpr) (m : Memory) (la : Word) (v : Byte) :
    storeMem t m la v = storeMem s m la v := by
  unfold storeMem; rw [storedKey_congr h]

theorem loadMem_congr {s t : State} (h : t.cpu.mpr = s.cpu.mpr) (m : Memory) (la : Word) :
    loadMem t m la = loadMem s m la := by
  unfold loadMem; rw [regionAt_congr h, offsetAt_eq, offsetAt_eq, h]

/-! ## Keys and costs of the stack page -/

theorem stackAddr_cost (a b : Byte) :
    accessCost s (stackAddr a) = accessCost s (stackAddr b) ∧ waitCost s (stackAddr a) = waitCost s (stackAddr b) := by
  simp only [accessCost, waitCost, regionAt_stackAddr s a b, and_self]

/-- Two stack pointers never name one byte. -/
theorem storedKey_stackAddr_ne (x y : Byte) (h : x ≠ y) (k : Nat) (e : storedKey s (stackAddr x) = some k) :
    storedKey s (stackAddr y) ≠ some k := by
  intro e'
  simp only [storedKey, ramKey, offsetAt_eq] at e e'
  split_ifs at e e'
  simp only [Option.some.injEq, windowOffset_stackAddr] at e e'
  exact h (BitVec.eq_of_toNat_eq (by omega))

theorem storedKey_stackAddr_ram (h : regionAt s (stackAddr s.cpu.sp) = .ram) (x : Byte) :
    storedKey s (stackAddr x) = some (ramKey (windowOffset (stackAddr x))) := by
  have := regionAt_stackAddr s x s.cpu.sp
  simp [storedKey, this, h]

/-! ## Pushes -/

theorem push_read (v : Byte) (k : Nat) :
    (push v s).mem.read k = if storedKey s (stackAddr s.cpu.sp) = some k then v else s.mem.read k := by
  simp only [push, State.setCpu_mem, memWrite_read]

theorem push_storedKey (v : Byte) (la : Word) : storedKey (push v s) la = storedKey s la :=
  storedKey_congr (by simp) la

theorem push_cost (v : Byte) (la : Word) :
    accessCost (push v s) la = accessCost s la ∧ waitCost (push v s) la = waitCost s la :=
  accessCost_congr (by simp) (by simp) (push_sameBook s v).params la

/-- Two pushes: SP is down by two, the two bytes are stored, and the ticks of two accesses have passed. -/
theorem push_push (v w : Byte) :
    (push w (push v s)).cpu = { s.cpu with sp := s.cpu.sp - 2#8 } ∧
    (∀ k, (push w (push v s)).mem.read k =
      if storedKey s (stackAddr (s.cpu.sp - 1#8)) = some k then w
      else if storedKey s (stackAddr s.cpu.sp) = some k then v else s.mem.read k) ∧
    Elapsed (2 * accessCost s (stackAddr s.cpu.sp)) (2 * waitCost s (stackAddr s.cpu.sp)) s (push w (push v s)) ∧
    (push w (push v s)).latch = s.latch ∧ SameBook s (push w (push v s)) := by
  refine ⟨?_, ?_, ?_, ?_, ?_⟩
  · simp only [push_cpu]
    congr 1
    generalize s.cpu.sp = x
    revert x
    decide
  · intro k
    rw [push_read, push_storedKey, push_read]
    simp
  · have h := (push_elapsed s v).1.trans (push_sameBook s v).params (push_elapsed (push v s) w).1
    rw [(push_cost s v _).1, (push_cost s v _).2, (stackAddr_cost s (push v s).cpu.sp s.cpu.sp).1,
      (stackAddr_cost s (push v s).cpu.sp s.cpu.sp).2, ← Nat.two_mul, ← Nat.two_mul] at h
    exact h
  · rw [(push_elapsed _ _).2, (push_elapsed _ _).2]
  · exact (push_sameBook _ _).trans (push_sameBook _ _)

/-- Three pushes, the first at the address of the old SP. -/
theorem push_push_push (u v w : Byte) :
    (push w (push v (push u s))).cpu = { s.cpu with sp := s.cpu.sp - 3#8 } ∧
    (∀ k, (push w (push v (push u s))).mem.read k =
      if storedKey s (stackAddr s.cpu.sp) = some k then u
      else if storedKey s (stackAddr (s.cpu.sp - 1#8)) = some k then v
      else if storedKey s (stackAddr (s.cpu.sp - 2#8)) = some k then w else s.mem.read k) ∧
    Elapsed (3 * accessCost s (stackAddr s.cpu.sp)) (3 * waitCost s (stackAddr s.cpu.sp)) s
      (push w (push v (push u s))) ∧
    (push w (push v (push u s))).latch = s.latch ∧ SameBook s (push w (push v (push u s))) := by
  have h2 := push_push s u v
  refine ⟨?_, ?_, ?_, ?_, ?_⟩
  · simp only [push_cpu]
    congr 1
    generalize s.cpu.sp = x
    revert x
    decide
  · intro k
    rw [push_read, push_storedKey, push_storedKey, h2.2.1, h2.1]
    have n1 : s.cpu.sp ≠ s.cpu.sp - 1#8 := by generalize s.cpu.sp = x; revert x; decide
    have n2 : s.cpu.sp ≠ s.cpu.sp - 2#8 := by generalize s.cpu.sp = x; revert x; decide
    have n3 : s.cpu.sp - 1#8 ≠ s.cpu.sp - 2#8 := by generalize s.cpu.sp = x; revert x; decide
    by_cases h0 : storedKey s (stackAddr s.cpu.sp) = some k
    · simp [h0, storedKey_stackAddr_ne s _ _ n1 k h0, storedKey_stackAddr_ne s _ _ n2 k h0]
    · by_cases h1 : storedKey s (stackAddr (s.cpu.sp - 1#8)) = some k
      · simp [h0, h1, storedKey_stackAddr_ne s _ _ n3 k h1]
      · simp [h0, h1]
  · have h := h2.2.2.1.trans h2.2.2.2.2.params (push_elapsed (push v (push u s)) w).1
    have hc := accessCost_congr (s := s) (t := push v (push u s)) (by simp) (by simp) h2.2.2.2.2.params
      (stackAddr (push v (push u s)).cpu.sp)
    have hd := stackAddr_cost s (push v (push u s)).cpu.sp s.cpu.sp
    rw [hc.1, hc.2, hd.1, hd.2] at h
    convert h using 1 <;> omega
  · rw [(push_elapsed _ _).2, (push_elapsed _ _).2, (push_elapsed _ _).2]
  · exact ((push_sameBook _ _).trans (push_sameBook _ _)).trans (push_sameBook _ _)

/-! ## Pops -/

/-- A pop off the control page gives the byte above SP. -/
theorem pop_value (h : regionAt s (stackAddr s.cpu.sp) ≠ .controlPage) :
    (pop s).1 = loadMem s s.mem (stackAddr (s.cpu.sp + 1#8)) := by
  have h1 : regionAt (s.setCpu { s.cpu with sp := s.cpu.sp + 1#8 }) (stackAddr (s.cpu.sp + 1#8)) ≠ .controlPage := by
    rw [regionAt_congr (s := s) (by simp), regionAt_stackAddr s _ s.cpu.sp]
    exact h
  unfold pop
  rw [memRead_value _ _ h1, peek_eq_loadMem _ _ h1]
  rfl

/-- The second of two pops off the control page gives the byte two above SP. -/
theorem pop_pop_value (h : regionAt s (stackAddr s.cpu.sp) ≠ .controlPage) :
    (pop (pop s).2).1 = loadMem s s.mem (stackAddr (s.cpu.sp + 2#8)) := by
  rw [pop_value]
  · have : (pop s).2.cpu.sp + 1#8 = s.cpu.sp + 2#8 := by simp; generalize s.cpu.sp = x; revert x; decide
    rw [this, pop_mem, loadMem_congr (s := s) (by simp)]
  · rw [regionAt_congr (s := s) (t := (pop s).2) (by simp), regionAt_stackAddr s _ s.cpu.sp]
    exact h

theorem pop_pop_frame : ReadFrame (2 * accessCost s (stackAddr s.cpu.sp)) (2 * waitCost s (stackAddr s.cpu.sp)) s
    (pop (pop s).2).2 := by
  have h := (pop_frame s).trans (pop_frame (pop s).2)
  have hc := fun la => accessCost_congr (s := s) (t := (pop s).2) (by simp) (by simp) (pop_frame s).params la
  simp only [(hc _).1, (hc _).2] at h
  rw [(stackAddr_cost s (s.cpu.sp + 1#8) s.cpu.sp).1, (stackAddr_cost s (s.cpu.sp + 1#8) s.cpu.sp).2,
    (stackAddr_cost s ((pop s).2.cpu.sp + 1#8) s.cpu.sp).1, (stackAddr_cost s ((pop s).2.cpu.sp + 1#8) s.cpu.sp).2,
    ← Nat.two_mul, ← Nat.two_mul] at h
  exact h

/-- TII's three pops: SP is up by three, memory is kept, and the ticks of three accesses have passed. -/
theorem popXAY_frame :
    (popXAY s).2.cpu = { s.cpu with sp := s.cpu.sp + 3#8 } ∧ (popXAY s).2.mem = s.mem ∧
    ReadFrame (3 * accessCost s (stackAddr s.cpu.sp)) (3 * waitCost s (stackAddr s.cpu.sp)) s (popXAY s).2 := by
  refine ⟨?_, ?_, ?_⟩
  · simp only [popXAY, pop_cpu]
    congr 1
    generalize s.cpu.sp = x
    revert x
    decide
  · simp [popXAY]
  · have h := (pop_pop_frame s).trans (pop_frame (pop (pop s).2).2)
    have hc := accessCost_congr (s := s) (t := (pop (pop s).2).2) (by simp) (by simp) (pop_pop_frame s).params
      (stackAddr ((pop (pop s).2).2.cpu.sp + 1#8))
    have hd := stackAddr_cost s ((pop (pop s).2).2.cpu.sp + 1#8) s.cpu.sp
    rw [hc.1, hc.2, hd.1, hd.2] at h
    show ReadFrame _ _ s (pop (pop (pop s).2).2).2
    convert h using 1 <;> omega

/-- What TII's three pops give off the control page: the three bytes above SP. -/
theorem popXAY_value (h : regionAt s (stackAddr s.cpu.sp) ≠ .controlPage) : (popXAY s).1 =
    (loadMem s s.mem (stackAddr (s.cpu.sp + 1#8)), loadMem s s.mem (stackAddr (s.cpu.sp + 2#8)),
      loadMem s s.mem (stackAddr (s.cpu.sp + 3#8))) := by
  have v3 := pop_pop_value (pop s).2
    (by rw [regionAt_congr (s := s) (by simp), regionAt_stackAddr s _ s.cpu.sp]; exact h)
  have h3 : (pop s).2.cpu.sp + 2#8 = s.cpu.sp + 3#8 := by simp; generalize s.cpu.sp = x; revert x; decide
  rw [loadMem_congr (s := s) (by simp), pop_mem, h3] at v3
  simp only [popXAY, pop_value s h, pop_pop_value s h, v3]

/-- On a RAM stack page a load is a read of the RAM byte. -/
theorem loadMem_stackAddr_ram (h : regionAt s (stackAddr s.cpu.sp) = .ram) (m : Memory) (x : Byte) :
    loadMem s m (stackAddr x) = m.read (ramKey (windowOffset (stackAddr x))) := by
  unfold loadMem
  rw [regionAt_stackAddr s _ s.cpu.sp, h]
  simp

/-- TII's three pushes are three pushes of the registers that the instruction starts with. -/
theorem pushYAX_eq : pushYAX s = push s.cpu.x (push s.cpu.a (push s.cpu.y s)) := by simp [pushYAX]

/-! ## The flags byte -/

/-- Bit by bit, the flags byte of spec/10_state.md R26. -/
theorem toByte_bits (p : Flags) :
    p.toByte.getLsbD 7 = p.n ∧ p.toByte.getLsbD 6 = p.v ∧ p.toByte.getLsbD 5 = p.t ∧ p.toByte.getLsbD 4 = p.b ∧
    p.toByte.getLsbD 3 = p.d ∧ p.toByte.getLsbD 2 = p.i ∧ p.toByte.getLsbD 1 = p.z ∧ p.toByte.getLsbD 0 = p.c := by
  obtain ⟨a, b, c, d, e, f, g, h⟩ := p
  revert a b c d e f g h
  decide

end Sys2Proof.Machine
end

