-- ==== Sys2Proof/Laws/Device.lean ====
section
/-! SUPPORT. What a control-page write does to the devices, how time treats the registers, and the block copy off the
control page. -/

namespace Sys2Proof.Machine

variable (s : State)

/-! ## A control-page write -/

theorem latchWrite_write (off : BankOffset) (v : Byte) :
    latchWrite .write off v s = if inLatchRange off = true then s.setLatch v else s := by
  unfold latchWrite; split_ifs <;> simp_all

/-- The latch, the timer and the interrupt controller after a control-page write (spec/20_memory.md R66, R67, R69;
spec/60_exceptions.md R233, R234, R239, R240). -/
theorem controlPage_write_devices (off : BankOffset) (v : Byte) :
    (controlPage .write off v s).2.latch = (if inLatchRange off = true then v else s.latch) ∧
    (controlPage .write off v s).2.tmr =
      (if off.toNat / 1024 = 3 ∧ off.toNat % 2 = 0 then { s.tmr with reload := (v &&& 0x7F#8).toNat + 1 }
      else if off.toNat / 1024 = 3 ∧ off.toNat % 2 = 1 then
        { s.tmr with enabled := v.getLsbD 0, current := s.tmr.reload, acc := 0, coarse := 0 }
      else s.tmr) ∧
    (controlPage .write off v s).2.irq =
      (if off.toNat / 1024 = 5 ∧ off.toNat % 4 = 2 then { s.irq with enabled := v.setWidth 3 }
      else if off.toNat / 1024 = 5 ∧ off.toNat % 4 = 3 then { s.irq with pending := 0b000#3 }
      else s.irq) := by
  have h : off.toNat < 8192 := off.isLt
  have h8 : off.toNat / 1024 < 8 := by omega
  have hm : off.toNat % 2 = 0 ∨ off.toNat % 2 = 1 := by omega
  have hm4 : off.toNat % 4 = 0 ∨ off.toNat % 4 = 1 ∨ off.toNat % 4 = 2 ∨ off.toNat % 4 = 3 := by omega
  unfold controlPage
  generalize off.toNat / 1024 = k at h8
  interval_cases k <;>
    simp only [subDevice, latchWrite_write, extAccess, unimplemented, timerAccess, irqAccess, SubDevice.period]
  all_goals
    rcases hm with e | e <;> rcases hm4 with e4 | e4 | e4 | e4 <;> simp [e, e4] <;> split_ifs <;> simp

theorem controlPage_write_inRange (off : BankOffset) (v : Byte) (h : s.tmr.InRange) :
    (controlPage .write off v s).2.tmr.InRange := by
  rw [(controlPage_write_devices s off v).2.1]
  obtain ⟨h1, h2, h3, h4, h5⟩ := h
  split_ifs
  · refine ⟨by simp, ?_, h3, h4, h5⟩
    have : (v &&& 0x7F#8).toNat ≤ 127 := by rw [BitVec.toNat_and]; exact Nat.and_le_right
    simp only
    omega
  · exact ⟨h1, h2, h2, by simp [Config.timerPrescale], by simp [Config.timerQuantum]⟩
  · exact ⟨h1, h2, h3, h4, h5⟩

/-- The high kilobyte of the control page is filler: it reads 0xFF whatever the state (spec/20_memory.md R66, R72). -/
theorem memRead_value_high (la : Word) (h : 0x1C00 ≤ (windowOffset la).toNat) : (memRead la s).1 = peek la s := by
  by_cases hc : regionAt s la = .controlPage
  · have hr : regionOf (bankOf (mapAddress s.cpu.mpr la)) = .controlPage := hc
    have hl := (windowOffset la).isLt
    have h7 : (windowOffset la).toNat / 1024 = 7 := by omega
    unfold memRead access peek dispatch
    rw [bankOf_mapAddress] at hr
    simp [hr, controlPage, subDevice, h7, unimplemented]
  · exact memRead_value _ _ hc

/-- A byte that no stack address stores to is read alike in two states that map alike and agree on those bytes. -/
theorem peek_high_congr {s t : State} (la : Word) (h : 0x1C00 ≤ (windowOffset la).toNat)
    (hm : t.cpu.mpr = s.cpu.mpr)
    (hmem : ∀ k, (∀ x : Byte, storedKey s (stackAddr x) ≠ some k) → t.mem.read k = s.mem.read k) :
    peek la t = peek la s := by
  by_cases hc : regionAt s la = .controlPage
  · have hr : regionOf (bankOf (mapAddress s.cpu.mpr la)) = .controlPage := hc
    have hl := (windowOffset la).isLt
    have h7 : (windowOffset la).toNat / 1024 = 7 := by omega
    unfold peek dispatch
    rw [hm]
    rw [bankOf_mapAddress] at hr
    simp [hr, controlPage, subDevice, h7, unimplemented]
  · rw [peek_eq_loadMem _ _ hc, peek_eq_loadMem _ _ (by rw [regionAt_congr hm]; exact hc), loadMem_congr hm]
    have hk : ∀ k, (∀ x : Byte, ramKey (windowOffset (stackAddr x)) ≠ k) → t.mem.read k = s.mem.read k :=
      fun k hne => hmem k fun x e => by
        unfold storedKey at e
        split_ifs at e
        exact hne x (by simpa using e)
    have hl := (windowOffset la).isLt
    unfold loadMem
    cases hh : regionAt s la with
    | rom =>
      refine hk _ fun x e => ?_
      have hb : (bankOf (mapAddress s.cpu.mpr la)).toNat ≤ 0x7F := by
        unfold regionAt regionOf at hh
        split_ifs at hh
        assumption
      have hn : (mapAddress s.cpu.mpr la).toNat =
          (bankOf (mapAddress s.cpu.mpr la)).toNat * 8192 + (windowOffset la).toNat := by
        rw [bankOf_mapAddress]
        unfold mapAddress
        rw [BitVec.toNat_append, ← Nat.shiftLeft_add_eq_or_of_lt hl, Nat.shiftLeft_eq]
      simp only [ramKey, ramBase] at e
      omega
    | ram =>
      refine hk _ fun x e => ?_
      have : (windowOffset (stackAddr x)).toNat = (windowOffset la).toNat := by simpa [ramKey] using e
      rw [windowOffset_stackAddr] at this
      have := x.isLt
      omega
    | openBus => rfl
    | controlPage => exact absurd hh hc

/-! ## Time does not depend on the registers -/

theorem ticks_reload_enabled (n : Nat) :
    (ticks n s).tmr.reload = s.tmr.reload ∧ (ticks n s).tmr.enabled = s.tmr.enabled := by
  induction n generalizing s with
  | zero => exact ⟨rfl, rfl⟩
  | succ n ih =>
    rw [ticks_succ, (ih _).1, (ih _).2]
    unfold tick cycle timerStep
    split_ifs <;> exact ⟨rfl, rfl⟩

theorem timerStep_setCpu (c : Cpu) : timerStep (s.setCpu c) = (timerStep s).setCpu c := by
  unfold timerStep
  simp only [State.setCpu_tmr, State.setCpu_params]
  by_cases h : s.tmr.current = 0
  · simp only [h, if_true]; rfl
  · simp only [h, if_false]; rfl

theorem cycle_setCpu (c : Cpu) : cycle (s.setCpu c) = (cycle s).setCpu c := by
  unfold cycle
  simp only [State.setCpu_tmr]
  by_cases h1 : s.tmr.enabled = true <;> by_cases h2 : s.tmr.acc + 1 = Config.timerPrescale <;>
    by_cases h3 : s.tmr.coarse + 1 = Config.timerQuantum <;> simp only [h1, h2, h3, if_true, if_false]
  all_goals first | exact timerStep_setCpu (s.setTmr _) c | rfl

theorem tick_setCpu (c : Cpu) : tick (s.setCpu c) = (tick s).setCpu c := by
  unfold tick
  simp only [State.setCpu_clk]
  by_cases h : s.clk.suppress = 0 <;> simp only [h, if_true, if_false]
  exact cycle_setCpu (s.setClk _) c

theorem ticks_setCpu (n : Nat) (c : Cpu) : ticks n (s.setCpu c) = (ticks n s).setCpu c := by
  induction n generalizing s with
  | zero => rfl
  | succ n ih => rw [ticks_succ, tick_setCpu, ih]; rfl

/-! ## Rising addresses and the block copy -/

theorem succ_add_ofNat (x : Word) (j : Nat) : x + 1#16 + BitVec.ofNat 16 j = x + BitVec.ofNat 16 (j + 1) := by
  rw [BitVec.add_assoc, ← BitVec.ofNat_add, Nat.add_comm 1 j]

theorem copyMem_congr {s t : State} (h : t.cpu.mpr = s.cpu.mpr) (n : Nat) (src dst : Word) (m : Memory) :
    copyMem t n src dst m = copyMem s n src dst m := by
  induction n generalizing src dst m with
  | zero => rfl
  | succ n ih => simp only [copyMem, ih, storeMem_congr h, loadMem_congr h]

/-- A block copy that stays off the control page is the copy on memory alone, and the ticks of two accesses a byte. -/
theorem copyBlock_pure (n : Nat) (src dst : Word)
    (h : ∀ j < n, regionAt s (src + BitVec.ofNat 16 j) ≠ .controlPage ∧
      regionAt s (dst + BitVec.ofNat 16 j) ≠ .controlPage) :
    (copyBlock n src dst s).mem = copyMem s n src dst s.mem ∧
    Elapsed (2 * n * accessTicks s.cpu.fast) 0 s (copyBlock n src dst s) ∧
    (copyBlock n src dst s).latch = s.latch := by
  induction n generalizing s src dst with
  | zero =>
    refine ⟨rfl, ?_, rfl⟩
    simpa [copyBlock] using Elapsed.refl s
  | succ n ih =>
    have h0 := h 0 (by omega)
    simp only [BitVec.add_zero] at h0
    set s1 := (memRead src s).2 with hs1
    set s2 := memWrite dst (memRead src s).1 s1 with hs2
    have hcpu : s2.cpu = s.cpu := by simp [hs2, hs1]
    have hm2 : s2.cpu.mpr = s.cpu.mpr := by rw [hcpu]
    obtain ⟨i1, i2, i3⟩ := ih s2 (src + 1#16) (dst + 1#16) fun j hj => by
      rw [succ_add_ofNat, succ_add_ofNat, regionAt_congr hm2, regionAt_congr hm2]
      exact h (j + 1) (by omega)
    have hr := memRead_frame s src
    have hcost : accessCost s src = accessTicks s.cpu.fast ∧ waitCost s src = 0 := by
      simp [accessCost, waitCost, h0.1]
    rw [hcost.1, hcost.2] at hr
    have hw := memWrite_elapsed s1 dst (memRead src s).1
      (by rw [regionAt_congr (s := s) (by simp [hs1])]; exact h0.2)
    have hfast : s1.cpu.fast = s.cpu.fast := by simp [hs1]
    rw [hfast] at hw
    have e2 : Elapsed (accessTicks s.cpu.fast + accessTicks s.cpu.fast) (0 + 0) s s2 :=
      hr.toElapsed.trans hr.params hw.1
    have eall := e2.trans (by simp [hs2, hs1]) i2
    refine ⟨?_, ?_, ?_⟩
    · show (copyBlock n (src + 1#16) (dst + 1#16) s2).mem = _
      rw [i1, copyMem_congr hm2]
      simp only [copyMem]
      congr 1
      rw [hs2, memWrite_mem, storeMem_congr (s := s) (by simp [hs1]), hs1, memRead_mem, memRead_value _ _ h0.1,
        peek_eq_loadMem _ _ h0.1]
    · show Elapsed _ _ s (copyBlock n (src + 1#16) (dst + 1#16) s2)
      rw [hcpu] at eall
      convert eall using 1
      ring
    · show (copyBlock n (src + 1#16) (dst + 1#16) s2).latch = _
      rw [i3, hw.2, hr.latch]

/-- A block copy whose destination stays off the control page leaves the devices' registers alone, but by time. -/
theorem copyBlock_devices (n : Nat) (src dst : Word)
    (h : ∀ j < n, regionAt s (dst + BitVec.ofNat 16 j) ≠ .controlPage) :
    (copyBlock n src dst s).latch = s.latch ∧ (copyBlock n src dst s).irq.enabled = s.irq.enabled ∧
    (copyBlock n src dst s).tmr.reload = s.tmr.reload ∧ (copyBlock n src dst s).tmr.enabled = s.tmr.enabled := by
  induction n generalizing s src dst with
  | zero => exact ⟨rfl, rfl, rfl, rfl⟩
  | succ n ih =>
    have h0 := h 0 (by omega)
    simp only [BitVec.add_zero] at h0
    set s1 := (memRead src s).2 with hs1
    set s2 := memWrite dst (memRead src s).1 s1 with hs2
    have hm2 : s2.cpu.mpr = s.cpu.mpr := by simp [hs2, hs1]
    have i := ih s2 (src + 1#16) (dst + 1#16) fun j hj => by
      rw [succ_add_ofNat, regionAt_congr hm2]
      exact h (j + 1) (by omega)
    have hr := memRead_frame s src
    have hw := memWrite_elapsed s1 dst (memRead src s).1 (by rw [regionAt_congr (s := s) (by simp [hs1])]; exact h0)
    show (copyBlock n (src + 1#16) (dst + 1#16) s2).latch = _ ∧
      (copyBlock n (src + 1#16) (dst + 1#16) s2).irq.enabled = _ ∧
      (copyBlock n (src + 1#16) (dst + 1#16) s2).tmr.reload = _ ∧
      (copyBlock n (src + 1#16) (dst + 1#16) s2).tmr.enabled = _
    rw [i.1, i.2.1, i.2.2.1, i.2.2.2, hw.2, hw.1.irq, hw.1.tmr, hr.latch, ticks_irqEnabled,
      (ticks_reload_enabled _ _).1, (ticks_reload_enabled _ _).2, hr.irq, hr.tmr, ticks_irqEnabled,
      (ticks_reload_enabled _ _).1, (ticks_reload_enabled _ _).2]
    exact ⟨rfl, rfl, rfl, rfl⟩

end Sys2Proof.Machine
end

