-- ==== Sys2Proof/Laws/Keeps.lean ====
section
/-! SUPPORT. What every access, and so every handler, keeps (`Keeps`), and how many ticks it takes (`Costs`). -/

namespace Sys2Proof.Machine

variable (s : State)

/-! ## What accesses keep -/

/-- An event that is not the cycle mismatch of spec/40_execute_loop.md R118. -/
def NoMismatch (e : Event) : Prop := ∀ op pc c x, e ≠ .diag .warning (.cycleMismatch op pc c x)

/-- What every access keeps: the bookkeeping, halted and suppress, ROM, the form of memory, the timer's ranges; time only
goes forward, nothing becomes pending without delivery, and no cycle mismatch is emitted. -/
structure Keeps (s t : State) : Prop where
  book : SameBook s t
  halted : t.clk.halted = s.clk.halted
  suppress : t.clk.suppress = s.clk.suppress
  counter : s.clk.counter ≤ t.clk.counter
  rom : ∀ k < romTop, t.mem.read k = s.mem.read k
  wf : s.mem.wf → t.mem.wf
  inSpace : s.mem.inSpace → t.mem.inSpace
  tmr : s.tmr.InRange → t.tmr.InRange
  pending : s.params.irqExtension = .none → s.irq.pending = 0b000#3 → t.irq.pending = 0b000#3
  events : EmitsOnly NoMismatch s t

theorem Keeps.refl : Keeps s s :=
  ⟨SameBook.refl s, rfl, rfl, le_refl _, fun _ _ => rfl, id, id, id, fun _ h => h, .refl _ _⟩

theorem Keeps.trans {s t u : State} (h : Keeps s t) (g : Keeps t u) : Keeps s u where
  book := h.book.trans g.book
  halted := g.halted.trans h.halted
  suppress := g.suppress.trans h.suppress
  counter := h.counter.trans g.counter
  rom := fun k hk => (g.rom k hk).trans (h.rom k hk)
  wf := g.wf ∘ h.wf
  inSpace := g.inSpace ∘ h.inSpace
  tmr := g.tmr ∘ h.tmr
  pending := fun p q => g.pending (by rw [h.book.params]; exact p) (h.pending p q)
  events := h.events.trans g.events

theorem Keeps.setCpu {s t : State} (h : Keeps s t) (c : Cpu) : Keeps s (t.setCpu c) :=
  ⟨⟨h.book.fault, h.book.refused, h.book.pre, h.book.extraPre, h.book.params⟩, h.halted, h.suppress, h.counter, h.rom,
    h.wf, h.inSpace, h.tmr, h.pending, h.events⟩

theorem Keeps.emit {s t : State} (h : Keeps s t) (e : Event) (he : NoMismatch e) : Keeps s (t.emit e) :=
  ⟨⟨h.book.fault, h.book.refused, h.book.pre, h.book.extraPre, h.book.params⟩, h.halted, h.suppress, h.counter, h.rom,
    h.wf, h.inSpace, h.tmr, h.pending, h.events.trans (.one rfl he)⟩

theorem noMismatch_of_access (e : Event) (h : isAccessEvent e) : NoMismatch e := by
  intro op pc c x he
  subst he
  rcases h with h | h
  · simp at h
  · exact h

theorem ticks_keeps (n : Nat) : Keeps s (ticks n s) := by
  refine ⟨by constructor <;> simp, by simp, by simp, by rw [ticks_clk]; simp, by simp, by simp, by simp,
    ticks_inRange s n, ?_, (ticks_emits s n).mono fun e h => noMismatch_of_access e (Or.inl h)⟩
  intro hp hq
  rw [ticks_pending _ _ hp]
  exact hq

theorem memRead_keeps (la : Word) : Keeps s (memRead la s).2 := by
  have h := memRead_frame s la
  refine ⟨h.toSameBook, by rw [h.clk], by rw [h.clk], by rw [h.clk]; simp, fun k _ => h.mem k, by simp, by simp, ?_, ?_,
    (access_emits s _ _ _).mono noMismatch_of_access⟩
  · intro hr
    rw [h.tmr]
    exact ticks_inRange s _ hr
  · intro hp hq
    rw [h.irq, ticks_pending _ _ hp]
    exact hq

theorem dispatch_write_of_controlPage (pa : PhysAddr) (v : Byte) (h : regionOf (bankOf pa) = .controlPage) :
    dispatch .write pa v s = controlPage .write (offsetOf pa) v s := by
  unfold dispatch
  rw [h]

theorem memWrite_keeps (la : Word) (v : Byte) : Keeps s (memWrite la v s) := by
  refine ⟨by constructor <;> simp, by rw [memWrite_clk], by rw [memWrite_clk], by rw [memWrite_clk]; simp, ?_, ?_, ?_, ?_,
    ?_, (access_emits s _ _ _).mono noMismatch_of_access⟩
  · intro k hk
    rw [memWrite_read, if_neg]
    intro e
    simp only [storedKey, ramKey] at e
    split_ifs at e
    simp at e
    unfold romTop at hk
    unfold ramBase at e
    omega
  · intro h
    rw [memWrite_mem]
    unfold storeMem
    split
    · exact Memory.write_wf _ _ _ h
    · exact h
  · intro h
    rw [memWrite_mem]
    unfold storeMem
    split
    · rename_i k hk
      refine Memory.write_inSpace _ _ _ h (Or.inr ?_)
      simp only [storedKey, ramKey] at hk
      split_ifs at hk
      simp at hk
      have := (windowOffset la).isLt
      simp only [ramSize]
      omega
    · exact h
  · intro h
    simp only [memWrite, access]
    apply ticks_inRange
    have hw : (accessWait (mapAddress s.cpu.mpr la) s).tmr.InRange := by
      rw [(accessWait_sameTime s la).tmr]
      exact ticks_inRange s _ h
    by_cases hr : regionOf (bankOf (mapAddress s.cpu.mpr la)) = .controlPage
    · rw [dispatch_write_of_controlPage _ _ _ hr]
      exact controlPage_write_inRange _ _ _ hw
    · rw [dispatch_state_of_ne_controlPage _ _ _ _ hr]
      exact hw
  · intro hp hq
    simp only [memWrite, access]
    rw [ticks_pending _ _ (by simpa using hp)]
    have hw : (accessWait (mapAddress s.cpu.mpr la) s).irq.pending = 0b000#3 := by
      rw [(accessWait_sameTime s la).irq, ticks_pending _ _ hp]
      exact hq
    by_cases hr : regionOf (bankOf (mapAddress s.cpu.mpr la)) = .controlPage
    · rw [dispatch_write_of_controlPage _ _ _ hr, (controlPage_write_devices _ _ _).2.2]
      split_ifs <;> first | rfl | exact hw
    · rw [dispatch_state_of_ne_controlPage _ _ _ _ hr]
      exact hw

theorem push_keeps (v : Byte) : Keeps s (push v s) := (memWrite_keeps s _ _).setCpu _

theorem pop_keeps : Keeps s (pop s).2 := ((Keeps.refl s).setCpu _).trans (memRead_keeps _ _)

theorem fetchByte_keeps : Keeps s (fetchByte s).2 := (memRead_keeps s _).setCpu _

theorem fetchBytes_keeps (n : Nat) : Keeps s (fetchBytes n s).2 := by
  induction n generalizing s with
  | zero => exact .refl s
  | succ n ih => exact (fetchByte_keeps s).trans (ih _)

theorem copyBlock_keeps (n : Nat) (src dst : Word) : Keeps s (copyBlock n src dst s) := by
  induction n generalizing s src dst with
  | zero => exact .refl s
  | succ n ih => exact ((memRead_keeps s _).trans (memWrite_keeps _ _ _)).trans (ih _ _ _)

theorem pushReturn_keeps (w : Word) : Keeps s (pushReturn w s) := by
  unfold pushReturn
  split <;> exact (push_keeps _ _).trans (push_keeps _ _)

theorem popReturn_keeps : Keeps s (popReturn s).2 := by
  unfold popReturn
  dsimp only
  split <;> exact (pop_keeps _).trans (pop_keeps _)

theorem readOperand_keeps (o : Operand) : Keeps s (readOperand o s).2 := by
  cases o
  · exact (Keeps.refl s).emit _ (by intro op pc c x h; simp at h)
  · exact ((Keeps.refl s).emit _ (by intro op pc c x h; simp at h)).trans (memRead_keeps _ _)

theorem implied_keeps (f : Cpu → Cpu) : Keeps s (implied f s) := (memRead_keeps s _).setCpu _

theorem branchTaken_keeps (d : Byte) : Keeps s (branchTaken d s) := (ticks_keeps s _).setCpu _

/-! ## Ticks -/

/-- `t` is reached from `s` in `n` ticks, `w` of them control-page waits, with the speed, the MPRs and the parameters kept,
so that an access costs the same in both. -/
structure Costs (n w : Nat) (s t : State) : Prop where
  counter : t.clk.counter = s.clk.counter + counted s n
  extra : t.clk.extra = s.clk.extra + counted s w
  suppress : t.clk.suppress = s.clk.suppress
  mpr : t.cpu.mpr = s.cpu.mpr
  fast : t.cpu.fast = s.cpu.fast
  params : t.params = s.params

theorem Costs.refl : Costs 0 0 s s := ⟨by simp, by simp, rfl, rfl, rfl, rfl⟩

theorem Costs.trans {n w m x : Nat} {s t u : State} (h : Costs n w s t) (g : Costs m x t u) :
    Costs (n + m) (w + x) s u := by
  have hc : ∀ k, counted t k = counted s k := fun k => counted_congr h.suppress k
  refine ⟨?_, ?_, g.suppress.trans h.suppress, g.mpr.trans h.mpr, g.fast.trans h.fast, g.params.trans h.params⟩
  · rw [g.counter, h.counter, hc, counted_add]; omega
  · rw [g.extra, h.extra, hc, counted_add]; omega

theorem Costs.access {n w : Nat} {s t : State} (h : Costs n w s t) (la : Word) :
    accessCost t la = accessCost s la ∧ waitCost t la = waitCost s la :=
  accessCost_congr h.mpr h.fast h.params la

theorem Costs.setCpu {n w : Nat} {s t : State} (h : Costs n w s t) (c : Cpu) (hm : c.mpr = t.cpu.mpr)
    (hf : c.fast = t.cpu.fast) : Costs n w s (t.setCpu c) :=
  ⟨h.counter, h.extra, h.suppress, hm.trans h.mpr, hf.trans h.fast, h.params⟩

theorem memRead_costs (la : Word) : Costs (accessCost s la) (waitCost s la) s (memRead la s).2 := by
  have h := memRead_frame s la
  exact ⟨by rw [h.clk], by rw [h.clk], by rw [h.clk], by simp, by simp, by simp⟩

theorem memWrite_costs (la : Word) (v : Byte) : Costs (accessCost s la) (waitCost s la) s (memWrite la v s) :=
  ⟨by rw [memWrite_clk], by rw [memWrite_clk], by rw [memWrite_clk], by simp, by simp, by simp⟩

theorem push_costs (v : Byte) :
    Costs (accessCost s (stackAddr s.cpu.sp)) (waitCost s (stackAddr s.cpu.sp)) s (push v s) :=
  (memWrite_costs s _ _).setCpu _ rfl rfl

theorem pop_costs : Costs (accessCost s (stackAddr (s.cpu.sp + 1#8))) (waitCost s (stackAddr (s.cpu.sp + 1#8))) s
    (pop s).2 := by
  have h0 : Costs 0 0 s (s.setCpu { s.cpu with sp := s.cpu.sp + 1#8 }) := (Costs.refl s).setCpu _ rfl rfl
  have h := h0.trans (memRead_costs (s.setCpu { s.cpu with sp := s.cpu.sp + 1#8 }) (stackAddr (s.cpu.sp + 1#8)))
  rw [(h0.access _).1, (h0.access _).2] at h
  simpa [pop] using h

/-- TII's pushes take three accesses of the stack page. -/
theorem pushYAX_costs : Costs (3 * accessCost s (stackAddr s.cpu.sp)) (3 * waitCost s (stackAddr s.cpu.sp)) s
    (pushYAX s) := by
  have h := push_push_push s s.cpu.y s.cpu.a s.cpu.x
  rw [← pushYAX_eq] at h
  have e := h.2.2.1
  exact ⟨by rw [e.clk], by rw [e.clk], by rw [e.clk], by rw [h.1], by rw [h.1], h.2.2.2.2.params⟩

/-- TII's pops take three accesses of the stack page. -/
theorem popXAY_costs : Costs (3 * accessCost s (stackAddr s.cpu.sp)) (3 * waitCost s (stackAddr s.cpu.sp)) s
    (popXAY s).2 := by
  have h := popXAY_frame s
  have e := h.2.2.toElapsed
  exact ⟨by rw [e.clk], by rw [e.clk], by rw [e.clk], by rw [h.1], by rw [h.1], h.2.2.params⟩

/-- A block copy takes one access of each source and of each destination address. -/
theorem copyBlock_costs (n : Nat) (src dst : Word) :
    Costs
      (((List.range n).flatMap fun k => [src + BitVec.ofNat 16 k, dst + BitVec.ofNat 16 k]).map (accessCost s)).sum
      (((List.range n).flatMap fun k => [src + BitVec.ofNat 16 k, dst + BitVec.ofNat 16 k]).map (waitCost s)).sum
      s (copyBlock n src dst s) := by
  induction n generalizing s src dst with
  | zero => exact .refl s
  | succ n ih =>
    have h1 := memRead_costs s src
    have h2 := h1.trans (memWrite_costs _ dst (memRead src s).1)
    rw [(h1.access dst).1, (h1.access dst).2] at h2
    have h3 := h2.trans (ih _ (src + 1#16) (dst + 1#16))
    have e1 : accessCost (memWrite dst (memRead src s).1 (memRead src s).2) = accessCost s :=
      funext fun la => (h2.access la).1
    have e2 : waitCost (memWrite dst (memRead src s).1 (memRead src s).2) = waitCost s :=
      funext fun la => (h2.access la).2
    rw [e1, e2] at h3
    simp only [succ_add_ofNat] at h3
    have hl : (List.range (n + 1)).flatMap (fun k => [src + BitVec.ofNat 16 k, dst + BitVec.ofNat 16 k]) =
        [src, dst] ++
          (List.range n).flatMap fun k => [src + BitVec.ofNat 16 (k + 1), dst + BitVec.ofNat 16 (k + 1)] := by
      rw [List.range_succ_eq_map, List.flatMap_cons, List.flatMap_map]
      simp
    rw [hl]
    simp only [List.map_append, List.sum_append, List.map_cons, List.map_nil, List.sum_cons, List.sum_nil, Nat.add_zero]
    exact h3

end Sys2Proof.Machine
end

