-- ==== Sys2Proof/Laws/Fetch.lean ====
section
/-! SUPPORT. The parts of a step around the handler: the external lines, the fetch, the descriptor table, and the two ways
a step can give a next state. -/

namespace Sys2Proof.Machine

variable (s : State)

/-! ## The external lines -/

theorem pollLines_cases : pollLines s = s ∨ pollLines s =
    (s.setIrq { s.irq with pending := s.irq.pending ||| (Config.extLines s.draws).setWidth 3 }).countDraw := by
  unfold pollLines
  cases s.params.irqExtension
  · exact .inl rfl
  · exact .inr rfl

theorem pollLines_none (h : s.params.irqExtension = .none) : pollLines s = s := by unfold pollLines; rw [h]

@[simp] theorem pollLines_cpu : (pollLines s).cpu = s.cpu := by
  rcases pollLines_cases s with h | h <;> rw [h]; rfl

@[simp] theorem pollLines_clk : (pollLines s).clk = s.clk := by
  rcases pollLines_cases s with h | h <;> rw [h]; rfl

@[simp] theorem pollLines_mem : (pollLines s).mem = s.mem := by
  rcases pollLines_cases s with h | h <;> rw [h]; rfl

@[simp] theorem pollLines_params : (pollLines s).params = s.params := by
  rcases pollLines_cases s with h | h <;> rw [h]; rfl

@[simp] theorem pollLines_fault : (pollLines s).fault = s.fault := by
  rcases pollLines_cases s with h | h <;> rw [h]; rfl

@[simp] theorem pollLines_refused : (pollLines s).refused = s.refused := by
  rcases pollLines_cases s with h | h <;> rw [h]; rfl

@[simp] theorem pollLines_events : (pollLines s).events = s.events := by
  rcases pollLines_cases s with h | h <;> rw [h]; rfl

@[simp] theorem pollLines_latch : (pollLines s).latch = s.latch := by
  rcases pollLines_cases s with h | h <;> rw [h]; rfl

@[simp] theorem pollLines_tmr : (pollLines s).tmr = s.tmr := by
  rcases pollLines_cases s with h | h <;> rw [h]; rfl

@[simp] theorem pollLines_pre : (pollLines s).pre = s.pre := by
  rcases pollLines_cases s with h | h <;> rw [h]; rfl

@[simp] theorem pollLines_extraPre : (pollLines s).extraPre = s.extraPre := by
  rcases pollLines_cases s with h | h <;> rw [h]; rfl

@[simp] theorem pollLines_irqEnabled : (pollLines s).irq.enabled = s.irq.enabled := by
  rcases pollLines_cases s with h | h <;> rw [h]; rfl

/-! ## Fetching bytes -/

/-- A fetch off the control page gives the byte at PC and only passes its ticks. -/
theorem fetchByte_pure (h : regionAt s s.cpu.pc ≠ .controlPage) : fetchByte s =
    (peek s.cpu.pc s, (ticks (accessTicks s.cpu.fast) s).setCpu { s.cpu with pc := s.cpu.pc + 1#16 }) := by
  have hw : accessWait (mapAddress s.cpu.mpr s.cpu.pc) s = s := by unfold accessWait; rw [if_neg]; exact h
  have hd : (dispatch .read (mapAddress s.cpu.mpr s.cpu.pc) 0#8 s).2 = s := by
    rw [dispatch_state_of_ne_controlPage _ _ _ _ h, dispatch_read_mem]; rfl
  simp [fetchByte, setPC, memRead, access, hw, hd, peek]

theorem fetchBytes_length (n : Nat) : (fetchBytes n s).1.length = n := by
  induction n generalizing s with
  | zero => rfl
  | succ n ih => simp [fetchBytes, ih]

theorem fetchBytes_cpu (n : Nat) :
    (fetchBytes n s).2.cpu = { s.cpu with pc := s.cpu.pc + BitVec.ofNat 16 n } := by
  induction n generalizing s with
  | zero => simp [fetchBytes]
  | succ n ih =>
    simp only [fetchBytes, ih, fetchByte_cpu]
    rw [BitVec.add_assoc, ← BitVec.ofNat_add, Nat.add_comm 1 n]

/-- Fetches off the control page give the bytes at PC and only pass their ticks. -/
theorem fetchBytes_pure (n : Nat) (h : ∀ k < n, regionAt s (s.cpu.pc + BitVec.ofNat 16 k) ≠ .controlPage) :
    fetchBytes n s =
      ((List.range n).map (fun k => peek (s.cpu.pc + BitVec.ofNat 16 k) s),
        (ticks (n * accessTicks s.cpu.fast) s).setCpu { s.cpu with pc := s.cpu.pc + BitVec.ofNat 16 n }) := by
  induction n generalizing s with
  | zero => simp [fetchBytes, State.setCpu]
  | succ n ih =>
    have h0 : regionAt s s.cpu.pc ≠ .controlPage := by simpa using h 0 (by omega)
    have hf := fetchByte_pure s h0
    have hreg : ∀ la, regionAt (fetchByte s).2 la = regionAt s la := fun la => regionAt_congr (by simp) la
    have hpc : (fetchByte s).2.cpu.pc = s.cpu.pc + 1#16 := by simp
    have hpk : ∀ la, regionAt s la ≠ .controlPage → peek la (fetchByte s).2 = peek la s := fun la hla => by
      rw [peek_eq_loadMem _ _ (by rw [hreg]; exact hla), peek_eq_loadMem _ _ hla,
        loadMem_congr (s := s) (t := (fetchByte s).2) (by simp)]
      congr 1
      rw [hf]
      simp
    obtain ⟨b, s1, hb⟩ : ∃ b s1, fetchByte s = (b, s1) := ⟨_, _, rfl⟩
    have hb1 : b = peek s.cpu.pc s := by rw [hf] at hb; exact (congrArg Prod.fst hb).symm
    have hb2 : s1 = (ticks (accessTicks s.cpu.fast) s).setCpu { s.cpu with pc := s.cpu.pc + 1#16 } := by
      rw [hf] at hb; exact (congrArg Prod.snd hb).symm
    rw [hb] at hreg hpc hpk
    simp only at hreg hpc hpk
    have i := ih s1 fun k hk => by rw [hpc, succ_add_ofNat, hreg]; exact h (k + 1) (by omega)
    simp only [fetchBytes, hb, i, hpc, succ_add_ofNat]
    refine Prod.ext ?_ ?_
    · simp only [List.range_succ_eq_map, List.map_cons, List.map_map]
      rw [List.cons.injEq]
      refine ⟨by rw [hb1, BitVec.add_zero], ?_⟩
      apply List.map_congr_left
      intro k hk
      simp only [Function.comp, Nat.succ_eq_add_one]
      exact hpk _ (h (k + 1) (by simp at hk; omega))
    · rw [hb2]
      simp only [State.setCpu_cpu, ticks_setCpu]
      rw [← ticks_add]
      have : accessTicks s.cpu.fast + n * accessTicks s.cpu.fast = (n + 1) * accessTicks s.cpu.fast := by ring
      rw [this]
      rfl

/-! ## The descriptor table -/

/-- A row of the table builds an instruction from as many bytes as its mode takes (spec/30_encoding.md R90, R93); and when
its reference count is nonzero it is the number of accesses of that instruction, which has no bare ticks and keeps the
speed (R97). -/
theorem lookup_builds (set : OpcodeSet) (op : Byte) (row : Row) (h : lookup set op = some row) (l : List Byte)
    (hl : l.length = row.mode.operandBytes) : ∃ i, row.build l = some i ∧
      (row.ref ≠ 0 → (∀ c : Cpu, row.ref = 1 + row.mode.operandBytes + (handlerAccesses c i).length) ∧
        (∀ s, branchTicks s i = 0) ∧ i ≠ .csh ∧ i ≠ .csl) := by
  have hm : row ∈ opcodeTable := List.mem_of_find?_eq_some h
  clear h
  revert row
  have key : ∀ r ∈ opcodeTable, ∀ l : List Byte, l.length = r.mode.operandBytes → ∃ i, r.build l = some i ∧
      (r.ref ≠ 0 → (∀ c : Cpu, r.ref = 1 + r.mode.operandBytes + (handlerAccesses c i).length) ∧
        (∀ s, branchTicks s i = 0) ∧ i ≠ .csh ∧ i ≠ .csl) := by
    intro r hr
    simp only [opcodeTable, rowsLow, rowsMiddle, rowsUpper, rowsHigh, List.cons_append, List.nil_append, List.mem_cons,
      List.not_mem_nil, or_false] at hr
    rcases hr with rfl | rfl | rfl | rfl | rfl | rfl | rfl | rfl | rfl | rfl | rfl | rfl | rfl | rfl | rfl | rfl | rfl |
      rfl | rfl | rfl | rfl | rfl | rfl | rfl | rfl | rfl | rfl | rfl | rfl | rfl | rfl | rfl | rfl | rfl | rfl | rfl |
      rfl | rfl | rfl | rfl
    all_goals
      intro l hl
      simp only [Mode.operandBytes] at hl
      match l, hl with
      | [], _ => first
          | (refine ⟨_, rfl, ?_⟩; simp [handlerAccesses, branchTicks, Mode.operandBytes])
          | simp at *
      | [a], _ => first
          | (refine ⟨_, rfl, ?_⟩; simp [handlerAccesses, branchTicks, Mode.operandBytes])
          | simp at *
      | [a, b], _ => first
          | (refine ⟨_, rfl, ?_⟩; simp [handlerAccesses, branchTicks, Mode.operandBytes])
          | simp at *
      | [a, b, c], _ => simp at *
      | [a, b, c, d], _ => simp at *
      | [a, b, c, d, e], _ => simp at *
      | [a, b, c, d, e, f], _ => first
          | exact ⟨_, rfl, fun h => absurd rfl h⟩
          | simp at *
      | a :: b :: c :: d :: e :: f :: g :: l, _ => simp at *
  exact fun row hl hm => key row hm l hl

/-! ## Fetching an instruction -/

/-- The state after an opcode byte with a row: T clear and the operand bytes fetched. -/
def afterFetch (row : Row) : State := (fetchBytes row.mode.operandBytes (clearT (fetchByte s).2)).2

/-- A fetch gives the fault of an unknown opcode, or the instruction that the row of the opcode byte builds. -/
theorem fetchInstr_cases :
    (lookup s.params.opcodeSet (fetchByte s).1 = none ∧
      fetchInstr s = .unknown (raiseFault .unknownOpcode (.opcode (fetchByte s).1) (fetchByte s).2)) ∨
    (∃ row i, lookup s.params.opcodeSet (fetchByte s).1 = some row ∧
      row.build (fetchBytes row.mode.operandBytes (clearT (fetchByte s).2)).1 = some i ∧
      fetchInstr s = .got row i (afterFetch s row)) := by
  cases h : lookup s.params.opcodeSet (fetchByte s).1 with
  | none =>
    refine .inl ⟨rfl, ?_⟩
    unfold fetchInstr
    simp only
    rw [h]
  | some row =>
    obtain ⟨i, hi, -⟩ := lookup_builds _ _ row h _ (fetchBytes_length (clearT (fetchByte s).2) _)
    refine .inr ⟨row, i, rfl, hi, ?_⟩
    unfold fetchInstr afterFetch
    simp only
    rw [h]
    simp only
    rw [hi]

theorem afterFetch_cpu (row : Row) : (afterFetch s row).cpu =
    { s.cpu with
      pc := s.cpu.pc + 1#16 + BitVec.ofNat 16 row.mode.operandBytes
      p := { s.cpu.p with t := false } } := by
  simp [afterFetch, fetchBytes_cpu, clearT]

theorem afterFetch_keeps (row : Row) : Keeps s (afterFetch s row) :=
  ((fetchByte_keeps s).setCpu _).trans (fetchBytes_keeps _ _)

/-- Fetches take their access ticks and the waits of the control page. -/
theorem fetchBytes_costs (n : Nat) : ∃ w, Costs (w + n * accessTicks s.cpu.fast) w s (fetchBytes n s).2 := by
  induction n generalizing s with
  | zero => exact ⟨0, by simpa [fetchBytes] using Costs.refl s⟩
  | succ n ih =>
    have h1 : Costs (accessCost s s.cpu.pc) (waitCost s s.cpu.pc) s (fetchByte s).2 :=
      (memRead_costs s _).setCpu _ (by simp) (by simp)
    obtain ⟨w, h2⟩ := ih (fetchByte s).2
    refine ⟨waitCost s s.cpu.pc + w, ?_⟩
    have e : accessCost s s.cpu.pc + (w + n * accessTicks (fetchByte s).2.cpu.fast) =
        waitCost s s.cpu.pc + w + (n + 1) * accessTicks s.cpu.fast := by
      simp [accessCost, Nat.succ_mul]; omega
    rw [← e]
    exact h1.trans h2

/-! ## The step -/

theorem stopped_of_running (h : s.Running) : stopped s = none := by
  unfold stopped
  simp [h.1, h.2.1, h.2.2]

theorem finishInstr_fault (row : Row) : (finishInstr row s).fault = s.fault := by
  unfold finishInstr cycleCheck
  simp only
  split_ifs <;> simp

/-- The two ways to a next state: the machine runs, and takes the interrupt that is due, or runs the fetched instruction
and steps 6 and 7 (spec/40_execute_loop.md R111). -/
theorem step_next_cases {s t : State} (h : step s = .next t) : s.Running ∧
    ((∃ l, dueLine (pollLines s) = some l ∧ t = takeInterrupt l (pollLines s)) ∨
      (dueLine (pollLines s) = none ∧ ∃ row i s1 t1, fetchInstr (beginInstr (pollLines s)) = .got row i s1 ∧
        exec i s1 = .next t1 ∧ t = finishInstr row t1 ∧ t1.fault = none)) := by
  unfold step at h
  have hrun : s.Running := by
    unfold stopped at h
    split_ifs at h with a b c
    simp_all
    exact ⟨a, b, c⟩
  refine ⟨hrun, ?_⟩
  rw [stopped_of_running s hrun] at h
  simp only at h
  cases hd : dueLine (pollLines s) with
  | some l =>
    rw [hd] at h
    refine .inl ⟨l, rfl, ?_⟩
    simp only [settle] at h
    split at h
    · injection h with h
      exact h.symm
    · cases h
  | none =>
    rw [hd] at h
    refine .inr ⟨rfl, ?_⟩
    simp only at h
    cases hf : fetchInstr (beginInstr (pollLines s)) with
    | unknown s' => rw [hf] at h; cases h
    | got row i s1 =>
      rw [hf] at h
      simp only at h
      cases he : exec i s1 with
      | next t1 =>
        rw [he] at h
        simp only [complete, settle] at h
        split at h
        · rename_i hfa
          injection h with h
          rw [finishInstr_fault] at hfa
          exact ⟨row, i, s1, t1, rfl, he, h.symm, hfa⟩
        · cases h
      | fault f => rw [he] at h; cases h
      | refused r => rw [he] at h; cases h

/-- Taking an interrupt is accesses, a change of the registers, and clk.extra = 0 (spec/60_exceptions.md R246). -/
theorem takeInterrupt_keeps (l : Line) : ∃ u, Keeps s u ∧ takeInterrupt l s = u.setClk { u.clk with extra := 0 } ∧
    u.cpu.p = { s.cpu.p with i := true, d := false, t := false } ∧ u.cpu.y = s.cpu.y := by
  have hc : ∃ x, (pushReturn s.cpu.pc s).cpu = { s.cpu with sp := x } := by
    unfold pushReturn
    split <;> exact ⟨_, (push_push _ _ _).1⟩
  obtain ⟨x, hx⟩ := hc
  refine ⟨_, ?_, rfl, ?_, ?_⟩
  · exact (((((pushReturn_keeps s _).trans (push_keeps _ _)).setCpu _).trans (memRead_keeps _ _)).trans
      (memRead_keeps _ _)).setCpu _
  · simp [setPC, hx]
  · simp [setPC, hx]

/-! ## The forms of the table, grouped by what their handlers do -/

theorem instr_cases (i : Instr) :
    (∃ o, ldaOperand s.cpu i = some o) ∨ (∃ o, ldxOperand s.cpu i = some o) ∨ (∃ o, cmpOperand s.cpu i = some o) ∨
    (∃ a, staAddress s.cpu i = some a) ∨ (∃ a, stzAddress s.cpu i = some a) ∨
    (∃ c, impliedChange s.params.inxSetsNz s.cpu i = some c) ∨ (∃ m, i = .tamMask m) ∨ (∃ a, i = .jsrAbs a) ∨
    i = .rts ∨ (∃ a b n, i = .tii a b n) ∨ (∃ d, i = .beqRel d) ∨ (∃ d, i = .braRel d) := by
  cases i <;> simp [ldaOperand, ldxOperand, cmpOperand, staAddress, stzAddress, impliedChange]

/-- Every form of LDA is the one operation on the operand that Safety names (spec/41_load_store.md R140). -/
theorem exec_lda {i : Instr} {o : Operand} (h : ldaOperand s.cpu i = some o) : exec i s =
    .next (setNZ (readOperand o s).1
      ((readOperand o s).2.setCpu { (readOperand o s).2.cpu with a := (readOperand o s).1 })) := by
  cases i <;> simp only [ldaOperand, Option.some.injEq, reduceCtorEq] at h <;> subst h <;>
    simp [exec, execLdaImm, execLdaZp, execLdaZpX, execLdaAbs, execLdaAbsX, execLdaAbsY, loadA, withOperand,
      resolveOperand]

/-- Every form of LDX (R141). -/
theorem exec_ldx {i : Instr} {o : Operand} (h : ldxOperand s.cpu i = some o) : exec i s =
    .next (setNZ (readOperand o s).1
      ((readOperand o s).2.setCpu { (readOperand o s).2.cpu with x := (readOperand o s).1 })) := by
  cases i <;> simp only [ldxOperand, Option.some.injEq, reduceCtorEq] at h <;> subst h <;>
    simp [exec, execLdxImm, execLdxZp, execLdxZpY, execLdxAbs, execLdxAbsY, loadX, withOperand, resolveOperand]

/-- Every form of CMP (spec/45_compare.md R185). -/
theorem exec_cmp {i : Instr} {o : Operand} (h : cmpOperand s.cpu i = some o) : exec i s =
    .next ((readOperand o s).2.setCpu { s.cpu with p := s.cpu.p.compare s.cpu.a (readOperand o s).1 }) := by
  cases i <;> simp only [cmpOperand, Option.some.injEq, reduceCtorEq] at h <;> subst h <;>
    simp [exec, execCmpImm, execCmpZp, execCmpZpX, execCmpAbs, execCmpAbsX, execCmpAbsY, compareA, withOperand,
      resolveOperand]

/-- Every form of STA (spec/41_load_store.md R145). -/
theorem exec_sta {i : Instr} {a : Word} (h : staAddress s.cpu i = some a) :
    exec i s = .next (memWrite a s.cpu.a (memRead a s).2) := by
  cases i <;> simp only [staAddress, Option.some.injEq, reduceCtorEq] at h <;> subst h <;>
    simp [exec, execStaZp, execStaZpX, execStaAbs, execStaAbsX, execStaAbsY, store, withOperand, resolveOperand,
      writeOperand]

/-- Every form of STZ (R146). -/
theorem exec_stz {i : Instr} {a : Word} (h : stzAddress s.cpu i = some a) :
    exec i s = .next (memWrite a 0x00#8 (memRead a s).2) := by
  cases i <;> simp only [stzAddress, Option.some.injEq, reduceCtorEq] at h <;> subst h <;>
    simp [exec, execStzZp, execStzZpX, execStzAbs, execStzAbsX, store, withOperand, resolveOperand, writeOperand]

end Sys2Proof.Machine
end

