-- ==== Sys2Proof/Laws/PerInstr.lean ====
section
/-! SUPPORT. Per-instruction statements about the syntax: each form's row of the descriptor table agrees with it. -/

namespace Sys2Proof.Laws.RowAgrees

/-- The form's opcode byte has a row; the row's format takes exactly the operand bytes that the encoder writes; and the
row is a "shown" one exactly when the form is (spec/30_encoding.md R90, R91, R96). -/
def Statement (i : Instr) : Prop :=
  ∃ op bs r, encode i = op :: bs ∧ lookup .all op = some r ∧ bs.length = r.mode.operandBytes ∧
    r.shown = i.isShown ∧ (lookup .shown op).isSome = i.isShown

theorem jsrAbs (target : Word) : Statement (.jsrAbs target) := ⟨_, _, _, rfl, rfl, rfl, rfl, rfl⟩
theorem tamMask (mask : Byte) : Statement (.tamMask mask) := ⟨_, _, _, rfl, rfl, rfl, rfl, rfl⟩
theorem csl : Statement .csl := ⟨_, _, _, rfl, rfl, rfl, rfl, rfl⟩
theorem rts : Statement .rts := ⟨_, _, _, rfl, rfl, rfl, rfl, rfl⟩
theorem cla : Statement .cla := ⟨_, _, _, rfl, rfl, rfl, rfl, rfl⟩
theorem stzZp (z : Byte) : Statement (.stzZp z) := ⟨_, _, _, rfl, rfl, rfl, rfl, rfl⟩
theorem tii (src dst len : Word) : Statement (.tii src dst len) := ⟨_, _, _, rfl, rfl, rfl, rfl, rfl⟩
theorem stzZpX (z : Byte) : Statement (.stzZpX z) := ⟨_, _, _, rfl, rfl, rfl, rfl, rfl⟩
theorem sei : Statement .sei := ⟨_, _, _, rfl, rfl, rfl, rfl, rfl⟩
theorem braRel (d : Byte) : Statement (.braRel d) := ⟨_, _, _, rfl, rfl, rfl, rfl, rfl⟩
theorem clx : Statement .clx := ⟨_, _, _, rfl, rfl, rfl, rfl, rfl⟩
theorem staZp (z : Byte) : Statement (.staZp z) := ⟨_, _, _, rfl, rfl, rfl, rfl, rfl⟩
theorem staAbs (a : Word) : Statement (.staAbs a) := ⟨_, _, _, rfl, rfl, rfl, rfl, rfl⟩
theorem staZpX (z : Byte) : Statement (.staZpX z) := ⟨_, _, _, rfl, rfl, rfl, rfl, rfl⟩
theorem staAbsY (a : Word) : Statement (.staAbsY a) := ⟨_, _, _, rfl, rfl, rfl, rfl, rfl⟩
theorem txs : Statement .txs := ⟨_, _, _, rfl, rfl, rfl, rfl, rfl⟩
theorem stzAbs (a : Word) : Statement (.stzAbs a) := ⟨_, _, _, rfl, rfl, rfl, rfl, rfl⟩
theorem staAbsX (a : Word) : Statement (.staAbsX a) := ⟨_, _, _, rfl, rfl, rfl, rfl, rfl⟩
theorem stzAbsX (a : Word) : Statement (.stzAbsX a) := ⟨_, _, _, rfl, rfl, rfl, rfl, rfl⟩
theorem ldxImm (v : Byte) : Statement (.ldxImm v) := ⟨_, _, _, rfl, rfl, rfl, rfl, rfl⟩
theorem ldaZp (z : Byte) : Statement (.ldaZp z) := ⟨_, _, _, rfl, rfl, rfl, rfl, rfl⟩
theorem ldxZp (z : Byte) : Statement (.ldxZp z) := ⟨_, _, _, rfl, rfl, rfl, rfl, rfl⟩
theorem ldaImm (v : Byte) : Statement (.ldaImm v) := ⟨_, _, _, rfl, rfl, rfl, rfl, rfl⟩
theorem ldaAbs (a : Word) : Statement (.ldaAbs a) := ⟨_, _, _, rfl, rfl, rfl, rfl, rfl⟩
theorem ldxAbs (a : Word) : Statement (.ldxAbs a) := ⟨_, _, _, rfl, rfl, rfl, rfl, rfl⟩
theorem ldaZpX (z : Byte) : Statement (.ldaZpX z) := ⟨_, _, _, rfl, rfl, rfl, rfl, rfl⟩
theorem ldxZpY (z : Byte) : Statement (.ldxZpY z) := ⟨_, _, _, rfl, rfl, rfl, rfl, rfl⟩
theorem ldaAbsY (a : Word) : Statement (.ldaAbsY a) := ⟨_, _, _, rfl, rfl, rfl, rfl, rfl⟩
theorem ldaAbsX (a : Word) : Statement (.ldaAbsX a) := ⟨_, _, _, rfl, rfl, rfl, rfl, rfl⟩
theorem ldxAbsY (a : Word) : Statement (.ldxAbsY a) := ⟨_, _, _, rfl, rfl, rfl, rfl, rfl⟩
theorem cmpZp (z : Byte) : Statement (.cmpZp z) := ⟨_, _, _, rfl, rfl, rfl, rfl, rfl⟩
theorem cmpImm (v : Byte) : Statement (.cmpImm v) := ⟨_, _, _, rfl, rfl, rfl, rfl, rfl⟩
theorem cmpAbs (a : Word) : Statement (.cmpAbs a) := ⟨_, _, _, rfl, rfl, rfl, rfl, rfl⟩
theorem csh : Statement .csh := ⟨_, _, _, rfl, rfl, rfl, rfl, rfl⟩
theorem cmpZpX (z : Byte) : Statement (.cmpZpX z) := ⟨_, _, _, rfl, rfl, rfl, rfl, rfl⟩
theorem cld : Statement .cld := ⟨_, _, _, rfl, rfl, rfl, rfl, rfl⟩
theorem cmpAbsY (a : Word) : Statement (.cmpAbsY a) := ⟨_, _, _, rfl, rfl, rfl, rfl, rfl⟩
theorem cmpAbsX (a : Word) : Statement (.cmpAbsX a) := ⟨_, _, _, rfl, rfl, rfl, rfl, rfl⟩
theorem inx : Statement .inx := ⟨_, _, _, rfl, rfl, rfl, rfl, rfl⟩
theorem beqRel (d : Byte) : Statement (.beqRel d) := ⟨_, _, _, rfl, rfl, rfl, rfl, rfl⟩

end Sys2Proof.Laws.RowAgrees
end

