-- ==== Sys2Proof/Laws/Run.lean ====
section
/-! SUPPORT. Looking at bytes without an access, and the successful end of a run (spec/60_exceptions.md R252). -/

namespace Sys2Proof.Machine

/-- Off the control page a look at two bytes is two looks. -/
theorem peekPair_of_ne_controlPage (s : State) (la : Word) (h : regionAt s la ≠ .controlPage) :
    peekPair la s = (peek la s, peek (la + 1#16) s) := by
  unfold peekPair
  rw [dispatch_state_of_ne_controlPage _ _ _ _ h, dispatch_read_mem]
  rfl

/-- A run that goes on goes on with its first step. -/
theorem ReachesUnended.head {s u : State} (h : ReachesUnended s u) :
    s = u ∨ ∃ t, ¬ s.AtBraSelf ∧ step s = .next t ∧ ReachesUnended t u := by
  induction h with
  | here => exact .inl rfl
  | after v w _ hgo hstep ih =>
    rcases ih with rfl | ⟨t, hs, ht, hr⟩
    · exact .inr ⟨w, hgo, hstep, .here⟩
    · exact .inr ⟨t, hs, ht, .after v w hr hgo hstep⟩

/-- A boundary that a run passes lies before its successful end. -/
theorem ReachesUnended.before_end {s t u : State} (h : ReachesUnended s t) (he : EndsSuccessfully s u) :
    ReachesUnended t u := by
  induction h with
  | here => exact he.1
  | after v w _ hgo hstep ih =>
    rcases ih.head with rfl | ⟨x, -, hx, hr⟩
    · exact absurd he.2 hgo
    · rw [hstep] at hx
      injection hx with hx
      exact hx ▸ hr

/-- The successful end is the first, so a run has at most one. -/
theorem endsSuccessfully_unique {s t u : State} (ht : EndsSuccessfully s t) (hu : EndsSuccessfully s u) : t = u := by
  rcases (ht.1.before_end hu).head with h | ⟨_, hn, -⟩
  · exact h
  · exact absurd ht.2 hn

/-- A boundary that a run passes without an end is a boundary it reaches. -/
theorem ReachesUnended.reaches {s t : State} (h : ReachesUnended s t) : Reaches s t := by
  induction h with
  | here => exact .here
  | after v w _ _ hstep ih => exact .after v w ih hstep

end Sys2Proof.Machine
end

