-- ==== Sys2Proof/Tests/Slice0.lean ====
section
/-! SUPPORT. The model's own tests: ill-formed terms, one written-out word per form, single steps with the results of
spec/95_test_vectors.md, and a witness for the hypotheses of every obligation. -/

namespace Sys2Proof.Tests

open Sys2Proof Sys2Proof.Machine

set_option Elab.async false

/-! ## Helpers -/

/-- A machine right after reset with RAM in window 1, the control page in window 0, open bus in window 2 and `code` at
0xE000 in ROM bank 0, where PC stands. -/
def base (code : List Byte) : State :=
  placeBytes 0xE000#16 code (State.reset.setCpu { State.reset.cpu with
    pc := 0xE000#16
    sp := 0xFF#8
    mpr := { State.reset.cpu.mpr with m0 := 0xFF#8, m1 := 0xF8#8, m2 := 0x80#8 } })

/-- `base` with the register file changed. -/
def baseWith (f : Cpu → Cpu) (code : List Byte) : State := (base code).setCpu (f (base code).cpu)

/-- The RAM byte at an offset. -/
def ramAt (s : State) (off : Nat) : Byte := s.mem.read (ramBase + off)

/-- `s` with the RAM byte at an offset set. -/
def withRam (off : Nat) (v : Byte) (s : State) : State := s.setMem (s.mem.write (ramBase + off) v)

/-- The next state, if the outcome is one. -/
def nextOf : Host.Outcome State Fault Refusal → Option State
  | .next t => some t
  | _ => none

/-- The fault, if the outcome is one. -/
def faultOf : Host.Outcome State Fault Refusal → Option Fault
  | .fault f => some f
  | _ => none

/-- The refusal, if the outcome is one. -/
def refusalOf : Host.Outcome State Fault Refusal → Option Refusal
  | .refused r => some r
  | _ => none

/-- What one step of `s` leaves, looked at through `f`. -/
def seen {α : Type} (s : State) (f : State → α) : Option α := (nextOf (step s)).map f

/-! ## Well-formedness: a form outside SHOWN is refused under SHOWN (spec/30_encoding.md R96) -/

theorem test_wf_refuses_zp_under_shown : Instr.wellFormed .shown (.ldaZp 0x10#8) = false := by decide

theorem test_wf_refuses_cmp_under_shown : Instr.wellFormed .shown (.cmpImm 0x10#8) = false := by decide

theorem test_wf_accepts : Instr.wellFormed .shown (.ldaImm 0x10#8) = true ∧
    Instr.wellFormed .all (.ldaZp 0x10#8) = true := by decide

/-! ## Decoding: every form's word written out from R91 and R96 (little-endian operands, R92) -/

theorem test_decode_low :
    decode .all [0x20#8, 0x10#8, 0xE0#8] = .ok (.jsrAbs 0xE010#16, []) ∧
    decode .all [0x53#8, 0x02#8] = .ok (.tamMask 0x02#8, []) ∧
    decode .all [0x54#8] = .ok (.csl, []) ∧
    decode .all [0x60#8] = .ok (.rts, []) ∧
    decode .all [0x62#8] = .ok (.cla, []) ∧
    decode .all [0x64#8, 0x11#8] = .ok (.stzZp 0x11#8, []) ∧
    decode .all [0x73#8, 0x00#8, 0xE0#8, 0x01#8, 0x22#8, 0x04#8, 0x03#8]
      = .ok (.tii 0xE000#16 0x2201#16 0x0304#16, []) ∧
    decode .all [0x74#8, 0x10#8] = .ok (.stzZpX 0x10#8, []) ∧
    decode .all [0x78#8] = .ok (.sei, []) ∧
    decode .all [0x80#8, 0xF6#8] = .ok (.braRel 0xF6#8, []) ∧
    decode .all [0x82#8] = .ok (.clx, []) ∧
    decode .all [0x85#8, 0x10#8] = .ok (.staZp 0x10#8, []) := ⟨rfl, rfl, rfl, rfl, rfl, rfl, rfl, rfl, rfl, rfl, rfl, rfl⟩

theorem test_decode_middle :
    decode .all [0x8D#8, 0x01#8, 0x0C#8] = .ok (.staAbs 0x0C01#16, []) ∧
    decode .all [0x95#8, 0x10#8] = .ok (.staZpX 0x10#8, []) ∧
    decode .all [0x99#8, 0x00#8, 0x22#8] = .ok (.staAbsY 0x2200#16, []) ∧
    decode .all [0x9A#8] = .ok (.txs, []) ∧
    decode .all [0x9C#8, 0x00#8, 0x0C#8] = .ok (.stzAbs 0x0C00#16, []) ∧
    decode .all [0x9D#8, 0x00#8, 0x22#8] = .ok (.staAbsX 0x2200#16, []) ∧
    decode .all [0x9E#8, 0x34#8, 0x12#8] = .ok (.stzAbsX 0x1234#16, []) ∧
    decode .all [0xA2#8, 0xFF#8] = .ok (.ldxImm 0xFF#8, []) ∧
    decode .all [0xA5#8, 0x10#8] = .ok (.ldaZp 0x10#8, []) ∧
    decode .all [0xA6#8, 0x10#8] = .ok (.ldxZp 0x10#8, []) ∧
    decode .all [0xA9#8, 0xF8#8] = .ok (.ldaImm 0xF8#8, []) := ⟨rfl, rfl, rfl, rfl, rfl, rfl, rfl, rfl, rfl, rfl, rfl⟩

theorem test_decode_upper :
    decode .all [0xAD#8, 0x00#8, 0x40#8] = .ok (.ldaAbs 0x4000#16, []) ∧
    decode .all [0xAE#8, 0x34#8, 0x12#8] = .ok (.ldxAbs 0x1234#16, []) ∧
    decode .all [0xB5#8, 0xF0#8] = .ok (.ldaZpX 0xF0#8, []) ∧
    decode .all [0xB6#8, 0x10#8] = .ok (.ldxZpY 0x10#8, []) ∧
    decode .all [0xB9#8, 0x34#8, 0x12#8] = .ok (.ldaAbsY 0x1234#16, []) ∧
    decode .all [0xBD#8, 0xF0#8, 0xFF#8] = .ok (.ldaAbsX 0xFFF0#16, []) ∧
    decode .all [0xBE#8, 0x34#8, 0x12#8] = .ok (.ldxAbsY 0x1234#16, []) ∧
    decode .all [0xC5#8, 0x10#8] = .ok (.cmpZp 0x10#8, []) ∧
    decode .all [0xC9#8, 0x42#8] = .ok (.cmpImm 0x42#8, []) := ⟨rfl, rfl, rfl, rfl, rfl, rfl, rfl, rfl, rfl⟩

theorem test_decode_high :
    decode .all [0xCD#8, 0x34#8, 0x12#8] = .ok (.cmpAbs 0x1234#16, []) ∧
    decode .all [0xD4#8] = .ok (.csh, []) ∧
    decode .all [0xD5#8, 0x10#8] = .ok (.cmpZpX 0x10#8, []) ∧
    decode .all [0xD8#8] = .ok (.cld, []) ∧
    decode .all [0xD9#8, 0x34#8, 0x12#8] = .ok (.cmpAbsY 0x1234#16, []) ∧
    decode .all [0xDD#8, 0x34#8, 0x12#8] = .ok (.cmpAbsX 0x1234#16, []) ∧
    decode .all [0xE8#8] = .ok (.inx, []) ∧
    decode .all [0xF0#8, 0x06#8] = .ok (.beqRel 0x06#8, []) := ⟨rfl, rfl, rfl, rfl, rfl, rfl, rfl, rfl⟩

/-- V-FLT-2 to V-FLT-4: RTI, LDA (zp) and, under SHOWN, STA zp have no row. -/
theorem test_decode_rejects :
    decode .all [0x40#8] = .error (.unknownOpcode 0x40#8) ∧
    decode .all [0xB2#8, 0x10#8] = .error (.unknownOpcode 0xB2#8) ∧
    decode .shown [0x85#8, 0x10#8] = .error (.unknownOpcode 0x85#8) ∧
    decode .all [0x20#8, 0x10#8] = .error (.truncated 0x20#8) ∧
    decode .all [] = .error .noByte := ⟨rfl, rfl, rfl, rfl, rfl⟩

theorem test_decodeTableWord : decodeTableWord 24 0xE01020 = some (.jsrAbs 0xE010#16) ∧
    decodeTableWord 8 0xFFFFE8 = some .inx ∧ decodeTableWord 8 0xFF = none ∧
    decodeTableWord 56 0x00042200E00073 = some (.tii 0xE000#16 0x2200#16 0x0004#16) := by decide +kernel

/-- An instruction placed in the state after reset is what the first step runs. -/
theorem test_withFetchWord : seen (State.reset.withFetchWord 8 0xE8) (fun t => (t.cpu.x, t.cpu.pc)) =
    some (0x01#8, 0x0000#16) := by decide +kernel

/-! ## Mapping and regions (V-MEM) -/

/-- S1, V-MEM-1, V-MEM-2. -/
theorem test_map : mapAddress (base []).cpu.mpr 0x2345#16 = 0x1F0345#21 ∧
    mapAddress (base []).cpu.mpr 0xFFFE#16 = 0x001FFE#21 ∧
    mapAddress { (base []).cpu.mpr with m3 := 0xFB#8 } 0x6010#16 = 0x1F6010#21 := by decide +kernel

/-- V-MEM-4: an LDA from bank 0xFF costs 49 ticks and draws its value. -/
theorem test_lda_vdc : seen (base [0xAD#8, 0x00#8, 0x00#8]) (fun t => (t.clk.counter, t.clk.extra, t.draws)) =
    some (49, 0, 1) := by decide +kernel

/-- V-MEM-7: a write to Sub 2 sets the latch and both accesses are diagnosed. -/
theorem test_sta_psg : seen (baseWith (fun c => { c with a := 0x9A#8 }) [0x8D#8, 0x00#8, 0x08#8])
    (fun t => (t.latch, t.events)) = some (0x9A#8,
      [.diag .warning (.notImplemented 2 0), .diag .warning (.notImplemented 2 0)]) := by decide +kernel

/-! ## Single steps: loads, stores, bank select -/

/-- V-LS-1. -/
theorem test_lda_imm : seen (base [0xA9#8, 0x00#8]) (fun t => (t.cpu.a, t.cpu.p.z, t.cpu.p.n, t.clk.counter, t.cpu.pc)) =
    some (0x00#8, true, false, 24, 0xE002#16) := by decide +kernel

/-- V-LS-4: the zero-page index wraps in the page. -/
theorem test_lda_zpx : seen (withRam 0x10 0x5A#8 (baseWith (fun c => { c with x := 0x20#8 }) [0xB5#8, 0xF0#8]))
    (fun t => (t.cpu.a, t.clk.counter)) = some (0x5A#8, 36) := by decide +kernel

/-- V-LS-5: an absolute index wraps modulo 65536. -/
theorem test_lda_absx : seen ((baseWith (fun c => { c with x := 0x20#8, mpr := { c.mpr with m0 := 0x00#8 } })
      [0xBD#8, 0xF0#8, 0xFF#8]).setMem
      ((base [0xBD#8, 0xF0#8, 0xFF#8]).mem.write 0x0010 0x33#8)) (fun t => t.cpu.a) = some 0x33#8 := by decide +kernel

/-- V-LS-6. -/
theorem test_ldx_zpy : seen (withRam 0x05 0x80#8 (baseWith (fun c => { c with y := 0xF5#8 }) [0xB6#8, 0x10#8]))
    (fun t => (t.cpu.x, t.cpu.p.n, t.cpu.p.z)) = some (0x80#8, true, false) := by decide +kernel

/-- V-LS-7: open bus reads 0xFF. -/
theorem test_lda_open_bus : seen (base [0xAD#8, 0x00#8, 0x40#8]) (fun t => (t.cpu.a, t.cpu.p.n, t.cpu.p.z)) =
    some (0xFF#8, true, false) := by decide +kernel

/-- V-LS-8: a store makes the dummy read too. -/
theorem test_sta_zp : seen (baseWith (fun c => { c with a := 0x42#8 }) [0x85#8, 0x10#8])
    (fun t => (ramAt t 0x10, t.clk.counter)) = some (0x42#8, 48) := by decide +kernel

/-- V-LS-9. -/
theorem test_sta_absy : seen (baseWith (fun c => { c with a := 0x77#8, y := 0x03#8 }) [0x99#8, 0x00#8, 0x22#8])
    (fun t => (ramAt t 0x0203, t.clk.counter)) = some (0x77#8, 60) := by decide +kernel

/-- V-LS-10: Z is not set. -/
theorem test_stz_zp : seen (withRam 0x11 0xAB#8 (base [0x64#8, 0x11#8])) (fun t => (ramAt t 0x11, t.cpu.p.z)) =
    some (0x00#8, false) := by decide +kernel

/-- V-LS-12: STZ $0C01 disables the timer and reloads it. -/
theorem test_stz_timer : seen ((base [0x9C#8, 0x01#8, 0x0C#8]).setTmr
      { reload := 4, current := 2, enabled := true, acc := 1, coarse := 7 })
    (fun t => (t.tmr.enabled, t.tmr.current, t.latch, t.clk.counter)) = some (false, 4, 0x00#8, 62) := by decide +kernel

/-- V-TAM-1. -/
theorem test_tam : seen (baseWith (fun c => { c with a := 0xF9#8 }) [0x53#8, 0x02#8])
    (fun t => (t.cpu.mpr.m1, t.cpu.mpr.m0, t.cpu.mpr.m2, t.clk.counter)) =
    some (0xF9#8, 0xFF#8, 0x80#8, 24) := by decide +kernel

/-- V-TAM-3. -/
theorem test_tam_all : seen (baseWith (fun c => { c with a := 0xF8#8 }) [0x53#8, 0xFF#8])
    (fun t => (t.cpu.mpr.m0, t.cpu.mpr.m7)) = some (0xF8#8, 0xF8#8) := by decide +kernel

/-! ## Single steps: subroutines and block transfer -/

/-- V-SUB-1. -/
theorem test_jsr : seen (base [0x20#8, 0x10#8, 0xE0#8])
    (fun t => (ramAt t 0x1FF, ramAt t 0x1FE, t.cpu.sp, t.cpu.pc, t.clk.counter)) =
    some (0x02#8, 0xE0#8, 0xFD#8, 0xE010#16, 60) := by decide +kernel

/-- V-SUB-5: the stack pointer wraps in the page. -/
theorem test_jsr_wraps : seen (baseWith (fun c => { c with sp := 0x00#8 }) [0x20#8, 0x10#8, 0xE0#8])
    (fun t => (ramAt t 0x100, ramAt t 0x1FF, t.cpu.sp)) = some (0x02#8, 0xE0#8, 0xFE#8) := by decide +kernel

/-- V-SUB-3. -/
theorem test_rts : seen (withRam 0x1FE 0xE0#8 (withRam 0x1FF 0x02#8 (baseWith (fun c => { c with sp := 0xFD#8 })
      [0x60#8]))) (fun t => (t.cpu.sp, t.cpu.pc, t.clk.counter)) = some (0xFF#8, 0xE003#16, 36) := by decide +kernel

/-- V-SUB-6. -/
theorem test_rts_wraps : seen (withRam 0x1FE 0xFF#8 (withRam 0x1FF 0xFF#8 (baseWith (fun c => { c with sp := 0xFD#8 })
      [0x60#8]))) (fun t => t.cpu.pc) = some 0x0000#16 := by decide +kernel

/-- V-TII-4: each read sees the previous write, and `len - 1` bytes are copied. -/
theorem test_tii_overlap : seen (withRam 0x200 0xAA#8 (withRam 0x201 0xBB#8 (withRam 0x203 0xDD#8
      (base [0x73#8, 0x00#8, 0x22#8, 0x01#8, 0x22#8, 0x03#8, 0x00#8]))))
    (fun t => (ramAt t 0x200, ramAt t 0x201, ramAt t 0x202, ramAt t 0x203, t.cpu.sp)) =
    some (0xAA#8, 0xAA#8, 0xAA#8, 0xDD#8, 0xFF#8) := by decide +kernel

/-- V-TII-2, V-TII-1: length 1 copies nothing and makes 13 accesses; Y, A and X are left on the stack page. -/
theorem test_tii_one : seen (baseWith (fun c => { c with a := 0x01#8, x := 0x02#8, y := 0x03#8 })
      [0x73#8, 0x00#8, 0xE0#8, 0x00#8, 0x22#8, 0x01#8, 0x00#8])
    (fun t => (ramAt t 0x1FF, ramAt t 0x1FE, ramAt t 0x1FD, t.clk.counter, t.events.head?)) =
    some (0x03#8, 0x01#8, 0x02#8, 156, some (.diag .info (.tiiBreakdown 0 156))) := by decide +kernel

/-! ## Single steps: compare, branches, flag and mode instructions -/

/-- The first four rows of V-CMP. -/
theorem test_compare : ∀ p : List (Byte × Byte × Bool × Bool × Bool),
    p = [(0x10#8, 0x10#8, true, true, false), (0x00#8, 0x01#8, false, false, true),
      (0x80#8, 0x7F#8, true, false, false), (0xFF#8, 0x00#8, true, false, true)] →
    p.all (fun r => (((base []).cpu.p.compare r.1 r.2.1).c, ((base []).cpu.p.compare r.1 r.2.1).z,
      ((base []).cpu.p.compare r.1 r.2.1).n) == r.2.2) = true := by
  rintro _ rfl; decide +kernel

/-- V-CMP as a step: A is unchanged. -/
theorem test_cmp_zp : seen (withRam 0x10 0xFF#8 (baseWith (fun c => { c with a := 0x01#8 }) [0xC5#8, 0x10#8]))
    (fun t => (t.cpu.a, t.cpu.p.c, t.cpu.p.z, t.cpu.p.n, t.clk.counter)) =
    some (0x01#8, false, false, false, 36) := by decide +kernel

/-- V-BR-1 (from 0xE000). -/
theorem test_beq_taken : seen (baseWith (fun c => { c with p := { c.p with z := true } }) [0xF0#8, 0x06#8])
    (fun t => (t.cpu.pc, t.clk.counter)) = some (0xE008#16, 25) := by decide +kernel

/-- V-BR-2. -/
theorem test_beq_not_taken : seen (base [0xF0#8, 0x06#8]) (fun t => (t.cpu.pc, t.clk.counter)) =
    some (0xE002#16, 24) := by decide +kernel

/-- V-BR-5: BRA *, in fast mode. -/
theorem test_bra_self : seen (baseWith (fun c => { c with fast := true }) [0x80#8, 0xFE#8])
    (fun t => (t.cpu.pc, t.clk.counter)) = some (0xE000#16, 7) := by decide +kernel

/-- V-FM-1. -/
theorem test_sei : seen (baseWith (fun c => { c with p := { c.p with i := false } }) [0x78#8])
    (fun t => (t.cpu.p.i, t.clk.counter, t.cpu.pc)) = some (true, 24, 0xE001#16) := by decide +kernel

/-- V-FM-2: both accesses are at the old speed, and no cycle mismatch is reported. -/
theorem test_csh : seen (base [0xD4#8]) (fun t => (t.cpu.fast, t.clk.counter, t.events)) = some (true, 24, []) := by
  decide +kernel

/-- V-FM-3. -/
theorem test_csl : seen (baseWith (fun c => { c with fast := true }) [0x54#8]) (fun t => (t.cpu.fast, t.clk.counter)) =
    some (false, 6) := by decide +kernel

/-- V-FM-4. -/
theorem test_cld : seen (baseWith (fun c => { c with p := { c.p with d := true } }) [0xD8#8]) (fun t => t.cpu.p.d) =
    some false := by decide +kernel

/-- V-FM-5: CLA leaves Z. -/
theorem test_cla : seen (baseWith (fun c => { c with a := 0x5A#8 }) [0x62#8]) (fun t => (t.cpu.a, t.cpu.p.z)) =
    some (0x00#8, false) := by decide +kernel

/-- V-FM-6. -/
theorem test_clx : seen (baseWith (fun c => { c with x := 0x33#8 }) [0x82#8]) (fun t => (t.cpu.x, t.cpu.p.z)) =
    some (0x00#8, false) := by decide +kernel

/-- V-FM-7. -/
theorem test_inx_wraps : seen (baseWith (fun c => { c with x := 0xFF#8 }) [0xE8#8])
    (fun t => (t.cpu.x, t.cpu.p.z, t.cpu.p.n)) = some (0x00#8, true, false) := by decide +kernel

/-- V-FM-9: with INX_SETS_NZ false the flags stay. -/
theorem test_inx_no_flags : seen { baseWith (fun c => { c with x := 0xFF#8 }) [0xE8#8] with
      params := { Params.default with inxSetsNz := false } }
    (fun t => (t.cpu.x, t.cpu.p.z)) = some (0x00#8, false) := by decide +kernel

/-- V-FM-10. -/
theorem test_txs : seen (baseWith (fun c => { c with x := 0x7E#8 }) [0x9A#8]) (fun t => (t.cpu.sp, t.cpu.p.n)) =
    some (0x7E#8, false) := by decide +kernel

/-- V-FM-11: the Memory flag is cleared by every instruction. -/
theorem test_t_cleared : seen (baseWith (fun c => { c with p := { c.p with t := true } }) [0xE8#8])
    (fun t => t.cpu.p.t) = some false := by decide +kernel

/-! ## Timer, interrupts, faults, refusals, reset -/

/-- V-TMR-2, V-TMR-5. -/
theorem test_timer_registers :
    (controlPage .write 0x0C00#13 0xFF#8 (base [])).2.tmr.reload = 128 ∧
    (controlPage .read 0x0C00#13 0#8
      ((base []).setTmr { (base []).tmr with current := 5 } |>.setLatch 0x9A#8)).1 = 0x85#8 := by decide +kernel

/-- V-TMR-8, the first and the last quantum: one TimerStep decrements, the step at 0 reloads. -/
theorem test_timer_steps :
    (timerStep ((base []).setTmr { reload := 3, current := 3, enabled := true, acc := 0, coarse := 0 })).tmr.current = 2 ∧
    (timerStep ((base []).setTmr { reload := 3, current := 0, enabled := true, acc := 0, coarse := 0 })).tmr.current
      = 3 := by decide +kernel

/-- V-IRQ-3, V-IRQ-4, V-IRQ-6. -/
theorem test_irq_registers :
    (controlPage .read 0x1403#13 0#8 ((base []).setIrq { enabled := 0#3, pending := 0b101#3 })).1 = 0x05#8 ∧
    (controlPage .write 0x1403#13 0#8 ((base []).setIrq { enabled := 0#3, pending := 0b111#3 })).2.irq.pending = 0#3 ∧
    (controlPage .write 0x1406#13 3#8 (base [])).2.irq.enabled = 0b011#3 := by decide +kernel

/-- V-IRQ-7 to V-IRQ-9. -/
theorem test_priority : highest { enabled := 0b111#3, pending := 0b011#3 } = some .irq1 ∧
    highest { enabled := 0b011#3, pending := 0b110#3 } = some .irq1 ∧
    highest { enabled := 0b000#3, pending := 0b111#3 } = none := by decide

/-- The state of V-INT-1. -/
def interruptState : State :=
  { (base []) with
    cpu := { (base []).cpu with
      pc := 0xE123#16
      p := { c := false, z := true, i := false, d := true, b := true, t := false, v := false, n := true } }
    irq := { enabled := 0b100#3, pending := 0b100#3 }
    mem := ((base []).mem.write 0x1FFA 0x00#8).write 0x1FFB 0xF0#8
    params := { Params.default with irqExtension := .vectored } }

/-- V-INT-1: the pushed bytes. -/
theorem test_interrupt_pushes : (fun t : State => (ramAt t 0x1FF, ramAt t 0x1FE, ramAt t 0x1FD))
    (takeInterrupt .tiq interruptState) = (0x23#8, 0xE1#8, 0x8A#8) := by decide +kernel

/-- V-INT-1: the registers, the acknowledgement still to make, the ticks. -/
theorem test_interrupt_enters : (fun t : State =>
      (t.cpu.sp, t.cpu.pc, t.cpu.p.i, t.cpu.p.d, t.cpu.p.b, t.irq.pending, t.clk.counter))
    (takeInterrupt .tiq interruptState) = (0xFC#8, 0xF000#16, true, false, true, 0b100#3, 60) := by decide +kernel

/-- S10, V-FLT-1: the fault record and the PC, with P.T unchanged. -/
theorem test_unknown_opcode : (match faultOf (step (baseWith (fun c => { c with p := { c.p with t := true } }) [0xFF#8])) with
    | some (.unknownOpcode t) => some (t.fault, t.cpu.pc, t.cpu.p.t)
    | _ => none) = some (some ⟨.unknownOpcode, .opcode 0xFF#8, 0xE000#16, 12⟩, 0xE001#16, true) := by decide +kernel

/-- V-TII-3: a zero length is refused after the seven fetches. -/
theorem test_tii_zero : (match refusalOf (step (base [0x73#8, 0x00#8, 0xE0#8, 0x00#8, 0x22#8, 0x00#8, 0x00#8])) with
    | some (.tiiZeroLength t) => some (t.refused, t.clk.counter, t.cpu.pc)
    | _ => none) = some (some .tiiZeroLength, 84, 0xE007#16) := by decide +kernel

/-- V-TII-6: with ROM in the stack window the pops differ. -/
theorem test_tii_clobber : (match refusalOf (step (baseWith (fun c => { c with mpr := { c.mpr with m1 := 0x00#8 } })
      [0x73#8, 0x00#8, 0xE0#8, 0x00#8, 0x22#8, 0x01#8, 0x00#8])) with
    | some (.tiiStackClobber t) => t.refused
    | _ => none) = some .tiiStackClobber := by decide +kernel

/-- V-FLT-5: the vector fetch costs no tick. -/
theorem test_reset_vector : (fun t : State => (t.cpu.pc, t.cpu.instrPC, t.clk.counter, t.cpu.p.i, t.cpu.fast))
    (resetWith { ResetParams.default with mem := [(0x1FFE, 0x00#8), (0x1FFF, 0xE0#8)] }) =
    (0xE000#16, 0xE000#16, 0, true, false) := by decide +kernel

/-! ## Witnesses: for every obligation with hypotheses, a state and operands that meet them -/

theorem test_witness_DecodeOfEncodeIsTheInstruction :
    Instr.wellFormed .shown (.tii 0xE000#16 0x2200#16 0xFFFF#16) = true ∧ Instr.wellFormed .all (.cmpAbsX 0xFFFF#16) = true := by
  decide

theorem test_witness_DecodedBytesAreTheEncoding :
    decode .shown [0x20#8, 0x10#8, 0xE0#8, 0x99#8] = .ok (.jsrAbs 0xE010#16, [0x99#8]) := rfl

theorem test_witness_OpcodeMapIsExactlyTheTable :
    lookup .all 0x00#8 = none ∧ lookup .all 0xFF#8 = none ∧ lookup .shown 0x85#8 = none := ⟨rfl, rfl, rfl⟩

theorem test_witness_DispatchFollowsThePhysicalMap :
    (bankOf 0x0FFFFF#21).toNat = 0x7F ∧ (bankOf 0x100000#21).toNat = 0x80 ∧ (bankOf 0x1EFFFF#21).toNat = 0xF7 ∧
    (bankOf 0x1F0000#21).toNat = 0xF8 ∧ (bankOf 0x1F7FFF#21).toNat = 0xFB ∧ (bankOf 0x1F8000#21).toNat = 0xFC ∧
    (bankOf 0x1FDFFF#21).toNat = 0xFE ∧ (bankOf 0x1FE000#21).toNat = 0xFF := by decide

theorem test_witness_AccessWaitsThenDispatchesThenTicks :
    bankOf (mapAddress (base []).cpu.mpr 0x1FFF#16) = 0xFF#8 ∧ bankOf (mapAddress (base []).cpu.mpr 0x2000#16) ≠ 0xFF#8 := by
  decide +kernel

theorem test_witness_AccessCostsItsTicks :
    (base []).clk.suppress = 0 ∧ ((base []).setClk { (base []).clk with suppress := 1 }).clk.suppress ≠ 0 := by
  decide +kernel

theorem test_witness_RamReadsBackThroughEveryMirror :
    regionAt (baseWith (fun c => { c with mpr := { c.mpr with m3 := 0xFB#8 } }) []) 0x2010#16 = .ram ∧
    regionAt (baseWith (fun c => { c with mpr := { c.mpr with m3 := 0xFB#8 } }) []) 0x6010#16 = .ram := by decide +kernel

theorem test_witness_RomAndOpenBusDiscardWrites :
    regionAt (base []) 0x4000#16 = .openBus ∧ regionAt (base []) 0xFFFF#16 = .rom := by decide +kernel

theorem test_witness_MemoryWritesKeepTheCanonicalForm :
    (base [0xE8#8]).mem.wf ∧ (base [0xE8#8]).mem.inSpace ∧ (base [0xE8#8]).mem = [(0, 0xE8#8)] := by decide +kernel

/-- The latch range at its four edges. -/
theorem test_witness_LatchTakesWritesInItsRange :
    (controlPage .write 0x07FF#13 0x5A#8 (base [])).2.latch = 0x00#8 ∧
    (controlPage .write 0x0800#13 0x5A#8 (base [])).2.latch = 0x5A#8 ∧
    (controlPage .write 0x17FF#13 0x5A#8 (base [])).2.latch = 0x5A#8 ∧
    (controlPage .write 0x1800#13 0x5A#8 (base [])).2.latch = 0x00#8 := by decide +kernel

theorem test_witness_UnimplementedRegionsReadFF :
    ((0x0BFF#13).toNat / 1024 = 2 ∧ (0x0BFF#13).toNat % 1024 = 0x3FF) ∧ (0x1000#13).toNat / 1024 = 4 ∧
    (0x1800#13).toNat / 1024 = 6 ∧ (0x1FFF#13).toNat / 1024 = 7 ∧
    ((0x1401#13).toNat / 1024 = 5 ∧ (0x1401#13).toNat % 4 < 2) := by decide

theorem test_witness_ExternalAccessesAreRecorded :
    (0x0000#13).toNat / 1024 = 0 ∧ (0x03FF#13).toNat / 1024 = 0 ∧ (0x0400#13).toNat / 1024 = 1 ∧
    (0x07FF#13).toNat / 1024 = 1 := by decide

theorem test_witness_TimerRegisters :
    (0x0C00#13).toNat / 1024 = 3 ∧ (0x0C00#13).toNat % 2 = 0 ∧ (0x0FFF#13).toNat / 1024 = 3 ∧
    (0x0FFF#13).toNat % 2 = 1 := by decide

theorem test_witness_InterruptControllerRegisters :
    (0x1402#13).toNat / 1024 = 5 ∧ (0x1402#13).toNat % 4 = 2 ∧ (0x17FF#13).toNat / 1024 = 5 ∧
    (0x17FF#13).toNat % 4 = 3 := by decide

/-- `base` with the timer running. -/
def timed (reload current acc coarse : Nat) : State :=
  (base []).setTmr { reload, current, enabled := true, acc, coarse }

theorem test_witness_TimerStepReloadsAtZero : (timed 1 0 0 0).tmr.current = 0 ∧ (timed 1 1 0 0).tmr.current ≠ 0 := by
  decide +kernel

/-- Both clauses at the edge of a quantum: 3 * 1023 + 1 + 1 = 3071 and 3 * 1023 + 2 + 1 = 3072. -/
theorem test_witness_TimerStepsOncePerQuantum :
    (timed 4 2 1 1023).clk.suppress = 0 ∧ (timed 4 2 1 1023).tmr.enabled = true ∧ (timed 4 2 2 1023).tmr.acc < 3 ∧
    (timed 4 2 2 1023).tmr.coarse < 1024 ∧
    3 * (timed 4 2 1 1023).tmr.coarse + (timed 4 2 1 1023).tmr.acc + 1 < 3072 ∧
    3 * (timed 4 2 2 1023).tmr.coarse + (timed 4 2 2 1023).tmr.acc + 1 = 3072 := by decide +kernel

theorem test_witness_TimerPeriodIsReloadPlusOneQuanta :
    (timed 3 3 0 0).clk.suppress = 0 ∧ (timed 3 3 0 0).tmr.enabled = true ∧ (timed 3 3 0 0).tmr.acc = 0 ∧
    (timed 3 3 0 0).tmr.coarse = 0 ∧ (timed 3 3 0 0).tmr.current = (timed 3 3 0 0).tmr.reload := by decide +kernel

theorem test_witness_DisabledTimerAndSuppressedClockStandStill :
    ((base []).clk.suppress = 0 ∧ (base []).tmr.enabled = false) ∧
    ((timed 1 1 0 0).setClk { (base []).clk with suppress := 2 }).clk.suppress ≠ 0 := by decide +kernel

theorem test_witness_LdaLoadsItsOperand :
    ldaOperand (base []).cpu (.ldaImm 0x80#8) = some (.imm 0x80#8) ∧
    ldaOperand (base []).cpu (.ldaZp 0xFF#8) = some (.addr 0x20FF#16) ∧
    ldaOperand { (base []).cpu with x := 0x20#8 } (.ldaZpX 0xF0#8) = some (.addr 0x2010#16) ∧
    ldaOperand (base []).cpu (.ldaAbs 0xFFFF#16) = some (.addr 0xFFFF#16) ∧
    ldaOperand { (base []).cpu with x := 0x20#8 } (.ldaAbsX 0xFFF0#16) = some (.addr 0x0010#16) ∧
    ldaOperand { (base []).cpu with y := 0x20#8 } (.ldaAbsY 0xFFF0#16) = some (.addr 0x0010#16) := by decide +kernel

theorem test_witness_LdxLoadsItsOperand :
    ldxOperand (base []).cpu (.ldxImm 0x80#8) = some (.imm 0x80#8) ∧
    ldxOperand (base []).cpu (.ldxZp 0xFF#8) = some (.addr 0x20FF#16) ∧
    ldxOperand { (base []).cpu with y := 0xF5#8 } (.ldxZpY 0x10#8) = some (.addr 0x2005#16) ∧
    ldxOperand (base []).cpu (.ldxAbs 0xFFFF#16) = some (.addr 0xFFFF#16) ∧
    ldxOperand { (base []).cpu with y := 0x20#8 } (.ldxAbsY 0xFFF0#16) = some (.addr 0x0010#16) := by decide +kernel

theorem test_witness_StaStoresTheAccumulator :
    staAddress (base []).cpu (.staZp 0x10#8) = some 0x2010#16 ∧
    staAddress { (base []).cpu with x := 0xFF#8 } (.staZpX 0x10#8) = some 0x200F#16 ∧
    staAddress (base []).cpu (.staAbs 0x0C01#16) = some 0x0C01#16 ∧
    staAddress { (base []).cpu with x := 0xFF#8 } (.staAbsX 0xFFFF#16) = some 0x00FE#16 ∧
    staAddress { (base []).cpu with y := 0x03#8 } (.staAbsY 0x2200#16) = some 0x2203#16 := by decide +kernel

theorem test_witness_StzStoresZero :
    stzAddress (base []).cpu (.stzZp 0x11#8) = some 0x2011#16 ∧
    stzAddress { (base []).cpu with x := 0x05#8 } (.stzZpX 0x10#8) = some 0x2015#16 ∧
    stzAddress (base []).cpu (.stzAbs 0x0C01#16) = some 0x0C01#16 ∧
    stzAddress { (base []).cpu with x := 0xFF#8 } (.stzAbsX 0xFFFF#16) = some 0x00FE#16 := by decide +kernel

/-- The conditions inside StoreFrame at the registers' addresses: the timer's, the controller's, and a RAM byte. -/
theorem test_witness_StoreFrame :
    reachesRegister (base []) 0x0C00#16 3 2 0 ∧ reachesRegister (base []) 0x0FFF#16 3 2 1 ∧
    reachesRegister (base []) 0x1402#16 5 4 2 ∧ reachesRegister (base []) 0x17FF#16 5 4 3 ∧
    ¬ reachesRegister (base []) 0x2C00#16 3 2 0 ∧ (base []).params.irqExtension = .none ∧
    storedKey (base []) 0x2010#16 = some (ramBase + 0x10) := by decide +kernel

theorem test_witness_CmpSetsCarryZeroNegative :
    cmpOperand (base []).cpu (.cmpImm 0x80#8) = some (.imm 0x80#8) ∧
    cmpOperand (base []).cpu (.cmpZp 0xFF#8) = some (.addr 0x20FF#16) ∧
    cmpOperand { (base []).cpu with x := 0x20#8 } (.cmpZpX 0xF0#8) = some (.addr 0x2010#16) ∧
    cmpOperand (base []).cpu (.cmpAbs 0xFFFF#16) = some (.addr 0xFFFF#16) ∧
    cmpOperand { (base []).cpu with x := 0x20#8 } (.cmpAbsX 0xFFF0#16) = some (.addr 0x0010#16) ∧
    cmpOperand { (base []).cpu with y := 0x20#8 } (.cmpAbsY 0xFFF0#16) = some (.addr 0x0010#16) := by decide +kernel

/-- The stack conditions of JSR, RTS and TII, at the wrap of the page. -/
theorem test_witness_stack_regions :
    storedKey (base []) (stackAddr 0x00#8) = some (ramBase + 0x100) ∧
    storedKey (base []) (stackAddr (0x00#8 - 1#8)) = some (ramBase + 0x1FF) ∧
    regionAt (base []) (stackAddr 0x00#8) ≠ .controlPage := by decide +kernel

/-- The state in which a JSR runs in the next witness: its bytes have been fetched. -/
def jsrState : State := baseWith (fun c => { c with pc := 0xE003#16 }) [0x20#8, 0x10#8, 0xE0#8]

/-- The state that the JSR leaves. -/
def jsrAfter : State := ((nextOf (exec (.jsrAbs 0xE010#16) jsrState)).getD State.reset)

theorem test_witness_JsrThenRtsReturns :
    exec (.jsrAbs 0xE010#16) jsrState = .next jsrAfter ∧ regionAt jsrState (stackAddr jsrState.cpu.sp) = .ram ∧
    regionAt jsrAfter (stackAddr jsrAfter.cpu.sp) = .ram ∧ jsrAfter.cpu.sp = 0xFD#8 := by
  refine ⟨rfl, ?_, ?_, ?_⟩ <;> decide +kernel

/-- Every condition that the statements about TII's completion, refinement and copy put on a state: three bytes from ROM to
0x2200, and one byte less than the length is copied. -/
theorem test_witness_Tii :
    (4#16 : Word) ≠ 0#16 ∧ regionAt (base []) (stackAddr (base []).cpu.sp) = .ram ∧
    (∀ j < (4#16 : Word).toNat - 1, regionAt (base []) (0x2200#16 + BitVec.ofNat 16 j) = .ram ∧
      regionAt (base []) (0xE000#16 + BitVec.ofNat 16 j) ≠ .controlPage) := by decide +kernel

theorem test_witness_Tii_stack : ∀ j < (4#16 : Word).toNat - 1, ∀ d ∈ [0#8, 1#8, 2#8],
    storedKey (base []) (0x2200#16 + BitVec.ofNat 16 j) ≠ storedKey (base []) (stackAddr ((base []).cpu.sp - d)) ∧
    storedKey (base []) (0xE000#16 + BitVec.ofNat 16 j) ≠ storedKey (base []) (stackAddr ((base []).cpu.sp - d)) := by
  decide +kernel

theorem test_witness_Tii_distinct : ∀ j < (4#16 : Word).toNat - 1, ∀ k < (4#16 : Word).toNat - 1,
    storedKey (base []) (0xE000#16 + BitVec.ofNat 16 j) ≠ storedKey (base []) (0x2200#16 + BitVec.ofNat 16 k) ∧
    (j ≠ k → storedKey (base []) (0x2200#16 + BitVec.ofNat 16 j) ≠
      storedKey (base []) (0x2200#16 + BitVec.ofNat 16 k)) := by decide +kernel

/-- The two cases of the sequential copy: the saved bytes survive a copy to 0x2200, and do not survive one to 0x21FD
(V-TII-5). -/
theorem test_witness_TiiRefinesTheSequentialCopy :
    (copyMem (base []) 3 0xE000#16 0x2200#16 (pushedMem (base []))).read (ramBase + 0x1FF) = (base []).cpu.y ∧
    (copyMem (base []) 3 0xE000#16 0x2200#16 (pushedMem (base []))).read (ramBase + 0x1FE) = (base []).cpu.a ∧
    (copyMem (base []) 3 0xE000#16 0x2200#16 (pushedMem (base []))).read (ramBase + 0x1FD) = (base []).cpu.x ∧
    (copyMem (base []) 3 0xE000#16 0x21FD#16 (pushedMem (base []))).read (ramBase + 0x1FD) ≠ (base []).cpu.x := by
  decide +kernel

/-- `base` with open bus at the stack page and one byte in A, X and Y. -/
def openStack (v : Byte) : State := (base []).setCpu
  { (base []).cpu with a := v, x := v, y := v, mpr := { (base []).cpu.mpr with m1 := 0x80#8 } }

/-- Both cases with the stack page on open bus: every stack address reads 0xFF there. -/
theorem test_witness_TiiRefinesTheSequentialCopy_openBus :
    regionAt (openStack 0xFF#8) (stackAddr (openStack 0xFF#8).cpu.sp) = .openBus ∧
    loadMem (openStack 0xFF#8) (pushedMem (openStack 0xFF#8)) (stackAddr (openStack 0xFF#8).cpu.sp) = 0xFF#8 ∧
    loadMem (openStack 0x12#8) (pushedMem (openStack 0x12#8)) (stackAddr (openStack 0x12#8).cpu.sp) ≠ 0x12#8 := by
  decide +kernel

/-- V-TII-6: ROM at the stack, here unlisted and so 0xFF. -/
theorem test_witness_TiiRefinesTheSequentialCopy_rom :
    (fun s : State => (regionAt s (stackAddr s.cpu.sp), loadMem s (pushedMem s) (stackAddr s.cpu.sp) == s.cpu.y))
      ((base []).setCpu { (base []).cpu with mpr := { (base []).cpu.mpr with m1 := 0x00#8 } }) = (.rom, false) := by
  decide +kernel

/-- R178: every popped value equals its pushed value, on an open-bus stack with 0xFF in A, X and Y. -/
theorem test_tii_openBus_completes : (nextOf (exec (.tii 0xE000#16 0x4000#16 1#16) (openStack 0xFF#8))).map
    (fun t => (t.cpu.sp, t.cpu.a, t.cpu.x, t.cpu.y)) = some (0xFF#8, 0xFF#8, 0xFF#8, 0xFF#8) := by decide +kernel

theorem test_witness_BeqBranchesOnZero :
    (baseWith (fun c => { c with p := { c.p with z := true } }) []).cpu.p.z = true ∧ (base []).cpu.p.z = false := by
  decide +kernel

theorem test_witness_ImpliedInstructionsMakeOneChange :
    impliedChange true (base []).cpu .inx ≠ none ∧ impliedChange false (base []).cpu .inx ≠ none ∧
    impliedChange true (base []).cpu .sei ≠ none ∧ impliedChange true (base []).cpu .csh ≠ none ∧
    impliedChange true (base []).cpu .csl ≠ none ∧ impliedChange true (base []).cpu .cld ≠ none ∧
    impliedChange true (base []).cpu .cla ≠ none ∧ impliedChange true (base []).cpu .clx ≠ none ∧
    impliedChange true (base []).cpu .txs ≠ none := by decide +kernel

theorem test_witness_HandlerTicksAreItsAccesses :
    (nextOf (exec (.staZp 0x10#8) (base []))).map (fun t => t.clk.counter) = some 24 ∧
    handlerCost (base []) (.staZp 0x10#8) = 24 := by decide +kernel

theorem test_witness_ReadingAnOperandLogsItsSource :
    ldaOperand (base []).cpu (.ldaZp 0x10#8) = some (.addr 0x2010#16) ∧
    (nextOf (exec (.ldaZp 0x10#8) (base []))).isSome = true := by decide +kernel

/-- An INX at 0xE000: running, nothing due, and its byte stands at PC. -/
theorem test_witness_StepRunsTheBytesAtPc :
    (base [0xE8#8]).Running ∧ dueLine (pollLines (base [0xE8#8])) = none ∧
    Instr.wellFormed (base [0xE8#8]).params.opcodeSet .inx = true ∧
    regionAt (base [0xE8#8]) (base [0xE8#8]).cpu.pc ≠ .controlPage ∧
    peek (base [0xE8#8]).cpu.pc (base [0xE8#8]) = 0xE8#8 := by decide +kernel

theorem test_witness_StepRunsTheFetchedInstruction :
    ∃ row s', fetchInstr (beginInstr (pollLines (base [0xE8#8]))) = .got row .inx s' := ⟨_, _, rfl⟩

theorem test_witness_EpilogueOnlyResetsExtraAndDiagnoses : (base []).fault = none := by decide +kernel

theorem test_witness_UnknownOpcodeFaultsAfterItsFetch :
    (base [0xFF#8]).Running ∧ dueLine (pollLines (base [0xFF#8])) = none ∧
    (memRead (base [0xFF#8]).cpu.pc (pollLines (base [0xFF#8]))).1 = 0xFF#8 ∧
    (lookup (base [0xFF#8]).params.opcodeSet 0xFF#8).isNone = true := by decide +kernel

theorem test_witness_StoppedMachineTakesNoStep :
    ¬ (halt (base [])).Running ∧ ¬ ((base []).setRefused .tiiZeroLength).Running ∧
    ¬ (raiseFault .unknownOpcode (.opcode 0xFF#8) (base [])).Running := by decide +kernel

/-- Running states whose step faults, and refuses for either reason. -/
theorem test_witness_OnlyUnknownOpcodeFaultsAndOnlyTiiRefuses :
    (base [0xFF#8]).Running ∧ (faultOf (step (base [0xFF#8]))).isSome = true ∧
    (base [0x73#8, 0x00#8, 0xE0#8, 0x00#8, 0x22#8, 0x00#8, 0x00#8]).Running ∧
    (refusalOf (step (base [0x73#8, 0x00#8, 0xE0#8, 0x00#8, 0x22#8, 0x00#8, 0x00#8]))).isSome = true ∧
    (base [0x73#8, 0x00#8, 0xE0#8, 0xFD#8, 0x21#8, 0x04#8, 0x00#8]).Running ∧
    (refusalOf (step (base [0x73#8, 0x00#8, 0xE0#8, 0xFD#8, 0x21#8, 0x04#8, 0x00#8]))).isSome = true := by
  decide +kernel

/-- Each line in turn is the highest. -/
theorem test_witness_PriorityEncoderPicksTheHighestLine :
    highest { enabled := 0b100#3, pending := 0b111#3 } = some .tiq ∧
    highest { enabled := 0b111#3, pending := 0b011#3 } = some .irq1 ∧
    highest { enabled := 0b001#3, pending := 0b111#3 } = some .irq2 ∧
    (0b010#3 : BitVec 3) &&& 0b101#3 = 0#3 := by decide

theorem test_witness_DueInterruptIsTaken :
    interruptState.Running ∧ interruptState.params.irqExtension = .vectored ∧ interruptState.cpu.p.i = false := by
  decide +kernel

/-- Whatever the external lines do, the enabled and pending timer line is the highest. -/
theorem test_witness_DueInterruptIsTaken_line : highest (pollLines interruptState).irq = some .tiq := by
  have h : ∀ b : BitVec 2,
      highest { enabled := 0b100#3, pending := 0b100#3 ||| b.setWidth 3 } = some .tiq := by decide
  exact h (Config.extLines interruptState.draws)

theorem test_witness_ExternalLinesSetOnlyTheirPendingBits :
    (base []).params.irqExtension = .none ∧ interruptState.params.irqExtension = .vectored ∧
    interruptState.irq.pending.getLsbD 2 = true := by decide +kernel

theorem test_witness_MaskedOrUndeliveredInterruptsAreNotDue :
    (base []).params.irqExtension = .none ∧
    (interruptState.setCpu { interruptState.cpu with p := { interruptState.cpu.p with i := true } }).cpu.p.i = true := by
  decide +kernel

theorem test_witness_InvariantHoldsAfterEveryReset :
    (ResetParams.default).mem.wf ∧ (ResetParams.default).mem.inSpace ∧ 1 ≤ (ResetParams.default).timerReload ∧
    (ResetParams.default).timerReload ≤ 128 ∧ (ResetParams.default).timerCounter ≤ 128 := by decide

/-- The invariant holds at a state with code, RAM and the control page mapped, from which a step gives a next state. -/
theorem test_witness_StepKeepsTheInvariant :
    (base [0xE8#8]).Inv ∧ (nextOf (step (base [0xE8#8]))).isSome = true :=
  ⟨⟨by decide +kernel, by decide +kernel, by decide +kernel, by decide +kernel, by decide +kernel, by decide +kernel,
    by decide +kernel, by decide +kernel⟩, by decide +kernel⟩

theorem test_witness_WhatNoStepChanges :
    (nextOf (step (base [0xE8#8]))).isSome = true ∧ (base [0xE8#8]).clk.suppress = 0 ∧ 0xFFFFF < romTop := by
  decide +kernel

/-- R252: INX; BRA * has its successful end at the second boundary. -/
theorem test_run_ends_at_bra : ¬ (base [0xE8#8, 0x80#8, 0xFE#8]).AtBraSelf ∧
    ((nextOf (step (base [0xE8#8, 0x80#8, 0xFE#8]))).map fun t => decide t.AtBraSelf) = some true := by decide +kernel

theorem test_witness_InstrPcDoesNotInfluenceExecution :
    (base [0xE8#8]).Running ∧ dueLine (pollLines (base [0xE8#8])) = none := by decide +kernel

end Sys2Proof.Tests
end

section
/-! PROOFS. The statements on 20_memory.md: which region a bank is in, what the dispatch does in each region, what a
whole access outside the control page does, and the three obligations put together from them. -/

namespace Sys2Proof.Machine

/-! ## Address mapping -/

theorem mapAddress_toNat (m : Mprs) (la : Word) :
    (mapAddress m la).toNat = (m.get (windowOf la)).toNat * 8192 + la.toNat % 8192 := by
  have hoff : (windowOffset la).toNat = la.toNat % 8192 := by simp [windowOffset]
  calc (mapAddress m la).toNat
      = (m.get (windowOf la)).toNat <<< 13 ||| (windowOffset la).toNat := BitVec.toNat_append ..
    _ = (m.get (windowOf la)).toNat <<< 13 + (windowOffset la).toNat :=
        (Nat.shiftLeft_add_eq_or_of_lt (windowOffset la).isLt _).symm
    _ = (m.get (windowOf la)).toNat * 8192 + la.toNat % 8192 := by rw [Nat.shiftLeft_eq, hoff]

theorem windowOf_toNat (la : Word) : (windowOf la).toNat = la.toNat / 8192 := by
  have hla : la.toNat < 65536 := la.isLt
  simp only [windowOf, BitVec.extractLsb'_toNat, Nat.shiftRight_eq_div_pow]
  omega

/-! ## The regions of R57 as ranges of banks -/

theorem regionOf_rom {bank : Byte} (h : bank.toNat ≤ 0x7F) : regionOf bank = .rom := if_pos h

theorem regionOf_ram {bank : Byte} (hlo : 0xF8 ≤ bank.toNat) (hhi : bank.toNat ≤ 0xFB) : regionOf bank = .ram := by
  rw [regionOf, if_neg (by omega), if_pos ⟨hlo, hhi⟩]

theorem regionOf_controlPage {bank : Byte} (h : bank.toNat = 0xFF) : regionOf bank = .controlPage := by
  rw [regionOf, if_neg (by omega), if_neg (by omega), if_pos h]

theorem regionOf_openBus {bank : Byte}
    (h : 0x80 ≤ bank.toNat ∧ bank.toNat ≤ 0xF7 ∨ 0xFC ≤ bank.toNat ∧ bank.toNat ≤ 0xFE) :
    regionOf bank = .openBus := by
  rw [regionOf, if_neg (by omega), if_neg (by omega), if_neg (by omega)]

/-! ## The dispatch, region by region -/

section Dispatch

variable {pa : PhysAddr} (v : Byte) (s : State)

theorem dispatch_read_rom (h : regionOf (bankOf pa) = .rom) : dispatch .read pa v s = (s.mem.read pa.toNat, s) := by
  simp only [dispatch, h]

theorem dispatch_write_rom (h : regionOf (bankOf pa) = .rom) : dispatch .write pa v s = (0#8, s) := by
  simp only [dispatch, h]

theorem dispatch_read_openBus (h : regionOf (bankOf pa) = .openBus) : dispatch .read pa v s = (0xFF#8, s) := by
  simp only [dispatch, h, Config.openBusValue]

theorem dispatch_write_openBus (h : regionOf (bankOf pa) = .openBus) : dispatch .write pa v s = (0#8, s) := by
  simp only [dispatch, h]

theorem dispatch_read_ram (h : regionOf (bankOf pa) = .ram) :
    dispatch .read pa v s = (s.mem.read (ramBase + (offsetOf pa).toNat), s) := by
  simp only [dispatch, h, ramKey]

theorem dispatch_write_ram (h : regionOf (bankOf pa) = .ram) :
    dispatch .write pa v s = (0#8, s.setMem (s.mem.write (ramBase + (offsetOf pa).toNat) v)) := by
  simp only [dispatch, h, ramKey]

theorem dispatch_controlPage (k : Access) (h : regionOf (bankOf pa) = .controlPage) :
    dispatch k pa v s = controlPage k (offsetOf pa) v s := by
  simp only [dispatch, h]

end Dispatch

/-! ## A whole access outside the control page -/

section Access

variable {s : State} {la : Word}

/-- Outside the control page there is no wait: an access is its dispatch and then its ticks (R59, R61). -/
theorem access_of_ne_controlPage (k : Access) (v : Byte) (h : regionAt s la ≠ .controlPage) :
    access k la v s = ((dispatch k (mapAddress s.cpu.mpr la) v s).1,
      ticks (accessTicks s.cpu.fast) (dispatch k (mapAddress s.cpu.mpr la) v s).2) := by
  have hwait : accessWait (mapAddress s.cpu.mpr la) s = s := if_neg h
  rw [access, hwait]

theorem memRead_openBus (h : regionAt s la = .openBus) :
    memRead la s = (0xFF#8, ticks (accessTicks s.cpu.fast) s) := by
  rw [memRead, access_of_ne_controlPage _ _ (by simp [h]), dispatch_read_openBus _ _ h]

theorem memWrite_openBus (v : Byte) (h : regionAt s la = .openBus) :
    memWrite la v s = ticks (accessTicks s.cpu.fast) s := by
  rw [memWrite, access_of_ne_controlPage _ _ (by simp [h]), dispatch_write_openBus _ _ h]

theorem memRead_rom (h : regionAt s la = .rom) :
    memRead la s = (s.mem.read (mapAddress s.cpu.mpr la).toNat, ticks (accessTicks s.cpu.fast) s) := by
  rw [memRead, access_of_ne_controlPage _ _ (by simp [h]), dispatch_read_rom _ _ h]

theorem memWrite_rom (v : Byte) (h : regionAt s la = .rom) :
    memWrite la v s = ticks (accessTicks s.cpu.fast) s := by
  rw [memWrite, access_of_ne_controlPage _ _ (by simp [h]), dispatch_write_rom _ _ h]

/-- Time does not change what a ROM address reads as: it changes neither the MPRs nor memory. -/
theorem memRead_rom_after_ticks (n : Nat) (h : regionAt s la = .rom) :
    (memRead la (ticks n s)).1 = (memRead la s).1 := by
  have hlater : regionAt (ticks n s) la = .rom := (regionAt_congr (by simp) la).trans h
  rw [memRead_rom hlater, memRead_rom h, ticks_mem, ticks_cpu]

end Access

/-! ## The obligations -/

/-- Settles O10: neither region waits, and the dispatch leaves the state alone in both. -/
theorem romAndOpenBusDiscardWrites : Obligations.RomAndOpenBusDiscardWrites := by
  intro la v s
  refine ⟨fun hbus => ⟨memRead_openBus hbus, memWrite_openBus v hbus⟩,
    fun hrom => ⟨memRead_rom hrom, memWrite_rom v hrom, ?_⟩⟩
  rw [memWrite_rom v hrom, memRead_rom_after_ticks _ hrom]

/-- Settles O5: the concatenation of bank and offset as arithmetic; the table of windows and the access procedure are
those of the model by definition. -/
theorem mapAddressUsesTheWindowsMpr : Obligations.MapAddressUsesTheWindowsMpr :=
  ⟨fun m la => ⟨mapAddress_toNat m la, windowOf_toNat la⟩,
    fun _ => ⟨rfl, rfl, rfl, rfl, rfl, rfl, rfl, rfl⟩,
    fun _ _ _ _ => rfl⟩

/-- Settles O6: each range of banks is one region, and the dispatch is known in each region. -/
theorem dispatchFollowsThePhysicalMap : Obligations.DispatchFollowsThePhysicalMap := by
  intro pa v s
  have openBus (h : regionOf (bankOf pa) = .openBus) :
      dispatch .read pa v s = (0xFF#8, s) ∧ (dispatch .write pa v s).2 = s :=
    ⟨dispatch_read_openBus v s h, by rw [dispatch_write_openBus v s h]⟩
  refine ⟨fun hbank => ?rom, fun hbank => openBus (regionOf_openBus (.inl hbank)), fun ⟨hlo, hhi⟩ => ?ram,
    fun hbank => openBus (regionOf_openBus (.inr hbank)), fun hbank => ?controlPage⟩
  case rom =>
    have hrom := regionOf_rom hbank
    exact ⟨dispatch_read_rom v s hrom, by rw [dispatch_write_rom v s hrom]⟩
  case ram =>
    have hram := regionOf_ram hlo hhi
    exact ⟨dispatch_read_ram v s hram, by rw [dispatch_write_ram v s hram]⟩
  case controlPage =>
    have hpage := regionOf_controlPage hbank
    exact ⟨dispatch_controlPage v s .read hpage, dispatch_controlPage v s .write hpage⟩

end Sys2Proof.Machine
end

section
/-! PROOFS. The flags SetNZ computes (spec/41_load_store.md R142). -/

namespace Sys2Proof.Machine

theorem Flags.setNZ_z_iff (p : Flags) (v : Byte) : (p.setNZ v).z = true ↔ v = 0#8 := beq_iff_eq

/-- Settles O21: Z is the test for the zero byte; N and the six flags SetNZ keeps are fields of the record update. -/
theorem setNzSetsZeroAndNegativeOnly : Obligations.SetNzSetsZeroAndNegativeOnly :=
  fun p v => ⟨p.setNZ_z_iff v, rfl, rfl, rfl, rfl, rfl, rfl, rfl⟩

end Sys2Proof.Machine
end

section
/-! PROOFS. The encoding (spec/30_encoding.md R90 to R98): what the lookup finds, what a row builds, and that the decoder
and the encoder invert each other. -/

namespace Sys2Proof

/-! ## The lookup -/

/-- The rows that an OPCODE_SET defines (R96). -/
def definedRows (set : OpcodeSet) : List Row := opcodeTable.filter fun r => set == .all || r.shown

theorem opcodeTable_opcodes_nodup : (opcodeTable.map Row.opcode).Nodup := by decide

/-- The lookup finds the one defined row that has the opcode byte. -/
theorem lookup_eq_some_iff {set : OpcodeSet} {op : Byte} {row : Row} :
    lookup set op = some row ↔ row ∈ definedRows set ∧ row.opcode = op := by
  constructor
  · intro h
    have hmem := List.mem_of_find?_eq_some h
    have htest := List.find?_some h
    simp only [Bool.and_eq_true, beq_iff_eq] at htest
    exact ⟨List.mem_filter.2 ⟨hmem, htest.2⟩, htest.1⟩
  · rintro ⟨hrow, rfl⟩
    obtain ⟨hmem, hset⟩ := List.mem_filter.1 hrow
    obtain ⟨found, hfound⟩ : ∃ found, lookup set row.opcode = some found :=
      Option.isSome_iff_exists.1 (List.find?_isSome.2 ⟨row, hmem, by simp [hset]⟩)
    have hop := List.find?_some hfound
    simp only [Bool.and_eq_true, beq_iff_eq] at hop
    have hsame : found = row :=
      List.inj_on_of_nodup_map opcodeTable_opcodes_nodup (List.mem_of_find?_eq_some hfound) hmem hop.1
    rw [hfound, hsame]

theorem lookup_isSome_iff (set : OpcodeSet) (op : Byte) :
    (lookup set op).isSome = true ↔ op ∈ (definedRows set).map Row.opcode := by
  simp only [Option.isSome_iff_exists, lookup_eq_some_iff, List.mem_map]

theorem mem_definedRows {set : OpcodeSet} {row : Row} {i : Instr} (hmem : row ∈ opcodeTable)
    (hshown : row.shown = i.isShown) : row ∈ definedRows set ↔ i.wellFormed set = true := by
  cases set <;> simp [definedRows, Instr.wellFormed, hmem, hshown]

/-! ## A row and its instruction -/

/-- Every instruction has a row: its encoding is the row's opcode byte and as many operand bytes as the row takes, and from
these the row builds the instruction back. -/
theorem encode_row (i : Instr) : ∃ op args row, encode i = op :: args ∧ lookup .all op = some row ∧
    args.length = row.mode.operandBytes ∧ row.shown = i.isShown ∧ row.build args = some i := by
  cases i <;> exact ⟨_, _, _, rfl, rfl, rfl, rfl, by simp [buildImplied, buildByte, buildWord, buildBlock, wordBytes]⟩

/-- What a row builds is encoded as the row's opcode byte and the bytes it was built from. -/
def Row.BuildsEncoding (r : Row) : Prop :=
  ∀ l i, r.build l = some i → encode i = r.opcode :: l ∧ r.shown = i.isShown

theorem wordBytes_wordOf (hi lo : Byte) : wordBytes (Machine.wordOf hi lo) = [lo, hi] := by simp [wordBytes]

theorem buildsEncoding_implied {name mode op ref shown} {i : Instr} (henc : encode i = [op]) (hsh : shown = i.isShown) :
    Row.BuildsEncoding ⟨name, mode, op, ref, shown, buildImplied i⟩ := by
  rintro (_ | ⟨b, l⟩) j ⟨⟩
  exact ⟨henc, hsh⟩

theorem buildsEncoding_byte {name mode op ref shown} {f : Byte → Instr} (henc : ∀ b, encode (f b) = [op, b])
    (hsh : ∀ b, shown = (f b).isShown) : Row.BuildsEncoding ⟨name, mode, op, ref, shown, buildByte f⟩ := by
  rintro (_ | ⟨b, _ | ⟨c, l⟩⟩) j ⟨⟩
  exact ⟨henc b, hsh b⟩

theorem buildsEncoding_word {name mode op ref shown} {f : Word → Instr} (henc : ∀ w, encode (f w) = op :: wordBytes w)
    (hsh : ∀ w, shown = (f w).isShown) : Row.BuildsEncoding ⟨name, mode, op, ref, shown, buildWord f⟩ := by
  rintro (_ | ⟨lo, _ | ⟨hi, _ | ⟨c, l⟩⟩⟩) j ⟨⟩
  exact ⟨by rw [henc, wordBytes_wordOf], hsh _⟩

theorem buildsEncoding_block {name mode op ref shown} {f : Word → Word → Word → Instr}
    (henc : ∀ s d n, encode (f s d n) = op :: (wordBytes s ++ wordBytes d ++ wordBytes n))
    (hsh : ∀ s d n, shown = (f s d n).isShown) : Row.BuildsEncoding ⟨name, mode, op, ref, shown, buildBlock f⟩ := by
  rintro (_ | ⟨sl, _ | ⟨sh, _ | ⟨dl, _ | ⟨dh, _ | ⟨nl, _ | ⟨nh, _ | ⟨c, l⟩⟩⟩⟩⟩⟩⟩) j ⟨⟩
  exact ⟨by simp only [henc, wordBytes_wordOf, List.cons_append, List.nil_append], hsh _ _ _⟩

theorem buildsEncoding_of_mem : ∀ r ∈ opcodeTable, r.BuildsEncoding := by
  simp only [opcodeTable, rowsLow, rowsMiddle, rowsUpper, rowsHigh, List.cons_append, List.nil_append,
    List.forall_mem_cons]
  repeat' apply And.intro
  all_goals first
    | exact buildsEncoding_implied rfl rfl
    | exact buildsEncoding_byte (fun _ => rfl) (fun _ => rfl)
    | exact buildsEncoding_word (fun _ => rfl) (fun _ => rfl)
    | exact buildsEncoding_block (fun _ _ _ => rfl) (fun _ _ _ => rfl)
    | exact List.forall_mem_nil _

/-! ## The decoder -/

theorem decode_cons_eq_ok_iff {set : OpcodeSet} {op : Byte} {bs rest : List Byte} {i : Instr} :
    decode set (op :: bs) = .ok (i, rest) ↔ ∃ row, lookup set op = some row ∧
      row.build (bs.take row.mode.operandBytes) = some i ∧ bs.drop row.mode.operandBytes = rest := by
  unfold decode
  cases hrow : lookup set op with
  | none => simp [hrow]
  | some row => cases hbuild : row.build (bs.take row.mode.operandBytes) <;> simp [hrow, hbuild]

theorem decode_eq_error_of_lookup_none {set : OpcodeSet} {op : Byte} (rest : List Byte) (h : lookup set op = none) :
    decode set (op :: rest) = .error (.unknownOpcode op) := by
  simp only [decode, h]

/-! ## The obligations -/

/-- Settles O1: the row of the instruction is defined in the set, takes exactly its operand bytes and builds it back. -/
theorem decodeOfEncodeIsTheInstruction : Obligations.DecodeOfEncodeIsTheInstruction := by
  intro set i rest hwf
  obtain ⟨op, args, row, henc, hall, hlen, hshown, hbuild⟩ := encode_row i
  have hmem : row ∈ opcodeTable := List.mem_of_find?_eq_some hall
  have hop : row.opcode = op := (lookup_eq_some_iff.1 hall).2
  have hrow : lookup set op = some row := lookup_eq_some_iff.2 ⟨(mem_definedRows hmem hshown).2 hwf, hop⟩
  rw [henc, List.cons_append, decode_cons_eq_ok_iff]
  exact ⟨row, hrow, by rw [List.take_left' hlen, hbuild], List.drop_left' hlen⟩

/-- Settles O2: the row that the decoder found builds an instruction whose encoding is the bytes it was built from. -/
theorem decodedBytesAreTheEncoding : Obligations.DecodedBytesAreTheEncoding := by
  rintro set (_ | ⟨op, bs⟩) rest i h
  · cases h
  · obtain ⟨row, hrow, hbuild, hrest⟩ := decode_cons_eq_ok_iff.1 h
    obtain ⟨hdef, hop⟩ := lookup_eq_some_iff.1 hrow
    have hmem : row ∈ opcodeTable := List.mem_of_mem_filter hdef
    obtain ⟨henc, hshown⟩ := buildsEncoding_of_mem row hmem _ _ hbuild
    refine ⟨?_, (mem_definedRows hmem hshown).1 hdef⟩
    rw [henc, hop, ← hrest, List.cons_append, List.take_append_drop]

/-- Settles O3: the bytes with a row are the opcode bytes of the defined rows. -/
theorem opcodeMapIsExactlyTheTable : Obligations.OpcodeMapIsExactlyTheTable :=
  ⟨lookup_isSome_iff .all, lookup_isSome_iff .shown, fun _ _ rest h => decode_eq_error_of_lookup_none rest h⟩

/-- Settles O4: each word is decoded by computation. -/
theorem sampleEncodingsDecode : Obligations.SampleEncodingsDecode :=
  ⟨rfl, rfl, rfl, rfl, rfl, rfl, rfl, rfl, rfl, rfl⟩

end Sys2Proof
end

section
/-! PROOFS. The handlers (`exec`): one equation per kind of instruction, and from these what every handler that completes
keeps. -/

namespace Sys2Proof.Machine

variable {s t : State}

/-! ## One equation per kind -/

/-- The operand that a form of LDA, LDX, CMP or TAM reads (spec/40_execute_loop.md R121). -/
def ReadsOperand (c : Cpu) (i : Instr) (o : Operand) : Prop :=
  ldaOperand c i = some o ∨ ldxOperand c i = some o ∨ cmpOperand c i = some o ∨ ∃ m, i = .tamMask m ∧ o = .imm m

/-- The address that a form of STA or STZ stores to (spec/41_load_store.md R145, R146). -/
def StoresAt (c : Cpu) (i : Instr) (a : Word) : Prop := staAddress c i = some a ∨ stzAddress c i = some a

theorem instr_kinds (s : State) (i : Instr) :
    (∃ o, ReadsOperand s.cpu i o) ∨ (∃ a, StoresAt s.cpu i a) ∨
    (∃ c, impliedChange s.params.inxSetsNz s.cpu i = some c) ∨ (∃ a, i = .jsrAbs a) ∨ i = .rts ∨
    (∃ src dst len, i = .tii src dst len) ∨ (∃ d, i = .beqRel d) ∨ ∃ d, i = .braRel d := by
  rcases instr_cases s i with ⟨o, h⟩ | ⟨o, h⟩ | ⟨o, h⟩ | ⟨a, h⟩ | ⟨a, h⟩ | h | ⟨m, h⟩ | h
  · exact .inl ⟨o, .inl h⟩
  · exact .inl ⟨o, .inr (.inl h)⟩
  · exact .inl ⟨o, .inr (.inr (.inl h))⟩
  · exact .inr (.inl ⟨a, .inl h⟩)
  · exact .inr (.inl ⟨a, .inr h⟩)
  · exact .inr (.inr (.inl h))
  · exact .inl ⟨_, .inr (.inr (.inr ⟨m, h, rfl⟩))⟩
  · exact .inr (.inr (.inr h))

theorem exec_tamMask (mask : Byte) (s : State) : exec (.tamMask mask) s =
    .next ((readOperand (.imm mask) s).2.setCpu { s.cpu with mpr := s.cpu.mpr.setMasked mask s.cpu.a }) := by
  simp [exec, execTamMask, withOperand, resolveOperand, operandValue]

theorem exec_implied {i : Instr} {c : Cpu} (h : impliedChange s.params.inxSetsNz s.cpu i = some c) :
    exec i s = .next ((dummyImplied s).setCpu c) := by
  cases i <;> simp only [impliedChange, Option.some.injEq, reduceCtorEq] at h <;> subst h <;>
    simp [exec, execSei, execCsh, execCsl, execCld, execCla, execClx, execInx, execTxs, implied, Flags.setNZ]

theorem exec_jsrAbs (target : Word) (s : State) :
    exec (.jsrAbs target) s = .next (setPC target (pushReturn (s.cpu.pc - 1#16) s)) := rfl

theorem exec_rts (s : State) : exec .rts s = .next (setPC ((popReturn s).1 + 1#16) (popReturn s).2) := rfl

theorem exec_beqRel (d : Byte) (s : State) :
    exec (.beqRel d) s = .next (if s.cpu.p.z then branchTaken d s else s) := rfl

theorem exec_braRel (d : Byte) (s : State) : exec (.braRel d) s = .next (branchTaken d s) := rfl

/-- The machine after TII's pushes and its copy, before its pops (spec/44_block_transfer.md R175). -/
def tiiCopied (src dst len : Word) (s : State) : State := copyBlock (len.toNat - 1) src dst (pushYAX s)

@[simp] theorem pushYAX_cpu (s : State) : (pushYAX s).cpu = { s.cpu with sp := s.cpu.sp - 3#8 } := by
  rw [pushYAX_eq, (push_push_push s _ _ _).1]

@[simp] theorem tiiCopied_cpu (src dst len : Word) (s : State) :
    (tiiCopied src dst len s).cpu = { s.cpu with sp := s.cpu.sp - 3#8 } := by simp [tiiCopied]

theorem exec_tii_zero (src dst : Word) (s : State) :
    exec (.tii src dst 0#16) s = .refused (.tiiZeroLength (s.setRefused .tiiZeroLength)) := rfl

/-- A TII whose pops give back what was pushed leaves the register file as it was (R177). -/
theorem exec_tii_completes {src dst len : Word} (hlen : len ≠ 0#16)
    (hpop : (popXAY (tiiCopied src dst len s)).1 = (s.cpu.x, s.cpu.a, s.cpu.y)) :
    exec (.tii src dst len) s = .next (tiiReport (pushYAX s).clk.counter (tiiCopied src dst len s).clk.counter
      ((popXAY (tiiCopied src dst len s)).2.setCpu s.cpu)) := by
  have hcpu := (popXAY_frame (tiiCopied src dst len s)).1
  rw [tiiCopied_cpu, BitVec.sub_add_cancel] at hcpu
  rw [tiiCopied] at hpop hcpu ⊢
  simp only [exec, execTii, if_neg hlen, hpop, hcpu, if_true]

/-- A TII whose pops differ is refused (R178). -/
theorem exec_tii_clobbered {src dst len : Word} (hlen : len ≠ 0#16)
    (hpop : (popXAY (tiiCopied src dst len s)).1 ≠ (s.cpu.x, s.cpu.a, s.cpu.y)) :
    exec (.tii src dst len) s =
      .refused (.tiiStackClobber ((popXAY (tiiCopied src dst len s)).2.setRefused .tiiStackClobber)) := by
  rw [tiiCopied] at hpop ⊢
  simp only [exec, execTii, if_neg hlen, if_neg hpop]

/-- A TII that completes had a nonzero length, and its pops gave back what was pushed. -/
theorem exec_tii_next {src dst len : Word} (h : exec (.tii src dst len) s = .next t) :
    len ≠ 0#16 ∧ (popXAY (tiiCopied src dst len s)).1 = (s.cpu.x, s.cpu.a, s.cpu.y) := by
  by_cases hlen : len = 0#16
  · subst hlen
    cases h
  · refine ⟨hlen, ?_⟩
    by_contra hpop
    rw [exec_tii_clobbered hlen hpop] at h
    cases h

/-! ## The registers that no instruction changes -/

/-- Y, V and B are as before, I is not cleared, D is not set, and T stays clear (spec/10_state.md R22, R29 to R33). -/
structure CpuKept (c d : Cpu) : Prop where
  y : d.y = c.y
  flagV : d.p.v = c.p.v
  flagB : d.p.b = c.p.b
  flagI : c.p.i = true → d.p.i = true
  flagD : c.p.d = false → d.p.d = false
  flagT : c.p.t = false → d.p.t = false

theorem CpuKept.of_flags {c d : Cpu} (hy : d.y = c.y) (hp : d.p = c.p) : CpuKept c d :=
  ⟨hy, by rw [hp], by rw [hp], by rw [hp]; exact id, by rw [hp]; exact id, by rw [hp]; exact id⟩

theorem CpuKept.refl (c : Cpu) : CpuKept c c := .of_flags rfl rfl

theorem CpuKept.trans {c d e : Cpu} (h : CpuKept c d) (g : CpuKept d e) : CpuKept c e :=
  ⟨g.y.trans h.y, g.flagV.trans h.flagV, g.flagB.trans h.flagB,
    g.flagI ∘ h.flagI, g.flagD ∘ h.flagD, g.flagT ∘ h.flagT⟩

/-- What a handler that reads an operand does: the read, and then a change of the register file that depends on the value
read and keeps the speed. -/
theorem exec_reads {i : Instr} {o : Operand} (h : ReadsOperand s.cpu i o) : ∃ f : Byte → Cpu,
    (∀ t : State, t.cpu = s.cpu → exec i t = .next ((readOperand o t).2.setCpu (f (operandValue t o)))) ∧
    ∀ v, CpuKept s.cpu (f v) ∧ (f v).fast = s.cpu.fast := by
  rcases h with h | h | h | ⟨m, rfl, rfl⟩
  · refine ⟨fun v => { s.cpu with a := v, p := s.cpu.p.setNZ v }, fun t ht => ?_,
      fun v => ⟨⟨rfl, rfl, rfl, id, id, id⟩, rfl⟩⟩
    rw [exec_lda t (by rwa [ht])]
    simp [setNZ, State.setCpu, ht]
  · refine ⟨fun v => { s.cpu with x := v, p := s.cpu.p.setNZ v }, fun t ht => ?_,
      fun v => ⟨⟨rfl, rfl, rfl, id, id, id⟩, rfl⟩⟩
    rw [exec_ldx t (by rwa [ht])]
    simp [setNZ, State.setCpu, ht]
  · refine ⟨fun v => { s.cpu with p := s.cpu.p.compare s.cpu.a v }, fun t ht => ?_,
      fun v => ⟨⟨rfl, rfl, rfl, id, id, id⟩, rfl⟩⟩
    rw [exec_cmp t (by rwa [ht]), ht, readOperand_value]
  · refine ⟨fun v => { s.cpu with mpr := s.cpu.mpr.setMasked v s.cpu.a }, fun t ht => ?_,
      fun v => ⟨.of_flags rfl rfl, rfl⟩⟩
    rw [exec_tamMask, ht]
    rfl

theorem exec_stores {i : Instr} {a : Word} (h : StoresAt s.cpu i a) :
    ∃ v, ∀ t : State, t.cpu = s.cpu → exec i t = .next (memWrite a v (memRead a t).2) := by
  rcases h with h | h
  · exact ⟨s.cpu.a, fun t ht => by rw [exec_sta t (by rwa [ht]), ht]⟩
  · exact ⟨0x00#8, fun t ht => exec_stz t (by rwa [ht])⟩

theorem impliedChange_kept {set : Bool} {i : Instr} {c d : Cpu} (h : impliedChange set c i = some d) :
    CpuKept c d ∧ (i ≠ .csh → i ≠ .csl → d.fast = c.fast) := by
  cases i <;> simp only [impliedChange, Option.some.injEq, reduceCtorEq] at h <;> subst h
  case inx => cases set <;> exact ⟨⟨rfl, rfl, rfl, id, id, id⟩, fun _ _ => rfl⟩
  case sei => exact ⟨⟨rfl, rfl, rfl, fun _ => rfl, id, id⟩, fun _ _ => rfl⟩
  case cld => exact ⟨⟨rfl, rfl, rfl, id, fun _ => rfl, id⟩, fun _ _ => rfl⟩
  case csh => exact ⟨.of_flags rfl rfl, fun h _ => absurd rfl h⟩
  case csl => exact ⟨.of_flags rfl rfl, fun _ h => absurd rfl h⟩
  all_goals exact ⟨.of_flags rfl rfl, fun _ _ => rfl⟩

theorem pushReturn_cpu (w : Word) (s : State) : (pushReturn w s).cpu = { s.cpu with sp := s.cpu.sp - 2#8 } := by
  unfold pushReturn
  split <;> exact (push_push s _ _).1

theorem byte_add_one_add_one (x : Byte) : x + 1#8 + 1#8 = x + 2#8 := by rw [BitVec.add_assoc]; rfl

theorem popReturn_state (s : State) : (popReturn s).2 = (pop (pop s).2).2 := by
  simp only [popReturn]
  split <;> rfl

theorem pop_pop_cpu (s : State) : (pop (pop s).2).2.cpu = { s.cpu with sp := s.cpu.sp + 2#8 } := by
  simp only [pop_cpu, byte_add_one_add_one]

theorem branchTaken_cpu (d : Byte) (s : State) :
    (branchTaken d s).cpu = { s.cpu with pc := s.cpu.pc + signExtend16 d } := by simp [branchTaken, setPC]

/-- A handler that completes keeps the registers of `CpuKept`, and the speed unless it is CSH or CSL. -/
theorem exec_next_cpu {i : Instr} (h : exec i s = .next t) :
    CpuKept s.cpu t.cpu ∧ (i ≠ .csh → i ≠ .csl → t.cpu.fast = s.cpu.fast) := by
  rcases instr_kinds s i with ⟨o, ho⟩ | ⟨a, ha⟩ | ⟨c, hc⟩ | ⟨a, rfl⟩ | rfl | ⟨src, dst, len, rfl⟩ | ⟨d, rfl⟩ | ⟨d, rfl⟩
  · obtain ⟨f, hexec, hf⟩ := exec_reads ho
    rw [hexec s rfl] at h
    cases h
    exact ⟨(hf _).1, fun _ _ => (hf _).2⟩
  · obtain ⟨v, hexec⟩ := exec_stores ha
    rw [hexec s rfl] at h
    cases h
    exact ⟨.of_flags (by simp) (by simp), fun _ _ => by simp⟩
  · rw [exec_implied hc] at h
    cases h
    exact impliedChange_kept hc
  · cases h
    exact ⟨.of_flags (by simp [setPC, pushReturn_cpu]) (by simp [setPC, pushReturn_cpu]),
      fun _ _ => by simp [setPC, pushReturn_cpu]⟩
  · cases h
    exact ⟨.of_flags (by simp [setPC, popReturn_state]) (by simp [setPC, popReturn_state]),
      fun _ _ => by simp [setPC, popReturn_state]⟩
  · obtain ⟨hlen, hpop⟩ := exec_tii_next h
    rw [exec_tii_completes hlen hpop] at h
    cases h
    exact ⟨.refl _, fun _ _ => rfl⟩
  · cases h
    split_ifs
    · exact ⟨.of_flags (by simp [branchTaken_cpu]) (by simp [branchTaken_cpu]), fun _ _ => by simp [branchTaken_cpu]⟩
    · exact ⟨.refl _, fun _ _ => rfl⟩
  · cases h
    exact ⟨.of_flags (by simp [branchTaken_cpu]) (by simp [branchTaken_cpu]), fun _ _ => by simp [branchTaken_cpu]⟩

/-! ## What every handler keeps -/

theorem popXAY_keeps (s : State) : Keeps s (popXAY s).2 := ((pop_keeps s).trans (pop_keeps _)).trans (pop_keeps _)

theorem pushYAX_keeps (s : State) : Keeps s (pushYAX s) := ((push_keeps s _).trans (push_keeps _ _)).trans (push_keeps _ _)

theorem tiiCopied_keeps (src dst len : Word) (s : State) : Keeps s (tiiCopied src dst len s) :=
  (pushYAX_keeps s).trans (copyBlock_keeps _ _ _ _)

theorem exec_next_keeps {i : Instr} (h : exec i s = .next t) : Keeps s t := by
  rcases instr_kinds s i with ⟨o, ho⟩ | ⟨a, ha⟩ | ⟨c, hc⟩ | ⟨a, rfl⟩ | rfl | ⟨src, dst, len, rfl⟩ | ⟨d, rfl⟩ | ⟨d, rfl⟩
  · obtain ⟨f, hexec, -⟩ := exec_reads ho
    rw [hexec s rfl] at h
    cases h
    exact (readOperand_keeps s o).setCpu _
  · obtain ⟨v, hexec⟩ := exec_stores ha
    rw [hexec s rfl] at h
    cases h
    exact (memRead_keeps s a).trans (memWrite_keeps _ _ _)
  · rw [exec_implied hc] at h
    cases h
    exact (memRead_keeps s _).setCpu _
  · cases h
    exact (pushReturn_keeps s _).setCpu _
  · cases h
    exact (popReturn_keeps s).setCpu _
  · obtain ⟨hlen, hpop⟩ := exec_tii_next h
    rw [exec_tii_completes hlen hpop] at h
    cases h
    exact (((tiiCopied_keeps src dst len s).trans (popXAY_keeps _)).setCpu _).emit _ (by intro _ _ _ _ he; cases he)
  · cases h
    split_ifs
    · exact branchTaken_keeps s d
    · exact .refl s
  · cases h
    exact branchTaken_keeps s d

end Sys2Proof.Machine
end

section
/-! PROOFS. The ticks of a handler (spec/40_execute_loop.md R116, R127). -/

namespace Sys2Proof.Machine

variable {s t : State}

theorem handlerCost_reads {i : Instr} {o : Operand} (h : ReadsOperand s.cpu i o) :
    handlerCost s i = operandCost s o ∧ handlerWait s i = operandWait s o := by
  rcases h with h | h | h | ⟨m, rfl, rfl⟩
  case inr.inr.inr => exact ⟨rfl, rfl⟩
  all_goals
    cases i <;> simp only [ldaOperand, ldxOperand, cmpOperand, Option.some.injEq, reduceCtorEq] at h <;> subst h <;>
      exact ⟨rfl, rfl⟩

theorem handlerCost_stores {i : Instr} {a : Word} (h : StoresAt s.cpu i a) :
    handlerCost s i = accessCost s a + accessCost s a ∧ handlerWait s i = waitCost s a + waitCost s a := by
  rcases h with h | h
  all_goals
    cases i <;> simp only [staAddress, stzAddress, Option.some.injEq, reduceCtorEq] at h <;> subst h <;>
      exact ⟨rfl, rfl⟩

theorem handlerCost_implied {i : Instr} {c : Cpu} (h : impliedChange s.params.inxSetsNz s.cpu i = some c) :
    handlerCost s i = accessCost s s.cpu.pc ∧ handlerWait s i = waitCost s s.cpu.pc := by
  cases i <;> simp only [impliedChange, reduceCtorEq] at h <;> exact ⟨rfl, rfl⟩

theorem handlerCost_jsrAbs (target : Word) :
    handlerCost s (.jsrAbs target) = 2 * accessCost s (stackAddr s.cpu.sp) ∧
    handlerWait s (.jsrAbs target) = 2 * waitCost s (stackAddr s.cpu.sp) := by
  have hcost := stackAddr_cost s (s.cpu.sp - 1#8) s.cpu.sp
  constructor <;> simp [handlerCost, handlerWait, handlerAccesses, branchTicks, hcost, Nat.two_mul]

theorem handlerCost_rts :
    handlerCost s .rts = 2 * accessCost s (stackAddr s.cpu.sp) ∧
    handlerWait s .rts = 2 * waitCost s (stackAddr s.cpu.sp) := by
  have hcost1 := stackAddr_cost s (s.cpu.sp + 1#8) s.cpu.sp
  have hcost2 := stackAddr_cost s (s.cpu.sp + 2#8) s.cpu.sp
  constructor <;> simp [handlerCost, handlerWait, handlerAccesses, branchTicks, hcost1, hcost2, Nat.two_mul]

theorem tiiCopied_popXAY_costs (src dst len : Word) (s : State) :
    Costs (handlerCost s (.tii src dst len)) (handlerWait s (.tii src dst len)) s
      (popXAY (tiiCopied src dst len s)).2 := by
  have hpush := pushYAX_costs s
  have hcopy := copyBlock_costs (pushYAX s) (len.toNat - 1) src dst
  rw [funext fun la => (hpush.access la).1, funext fun la => (hpush.access la).2] at hcopy
  have hpushCopy : Costs _ _ s (tiiCopied src dst len s) := hpush.trans hcopy
  have hpop := popXAY_costs (tiiCopied src dst len s)
  have hsp := stackAddr_cost s (tiiCopied src dst len s).cpu.sp s.cpu.sp
  rw [(hpushCopy.access _).1, (hpushCopy.access _).2, hsp.1, hsp.2] at hpop
  have hcost1 := stackAddr_cost s (s.cpu.sp - 1#8) s.cpu.sp
  have hcost2 := stackAddr_cost s (s.cpu.sp - 2#8) s.cpu.sp
  convert hpushCopy.trans hpop using 1
  · simp [handlerCost, handlerAccesses, branchTicks, hcost1, hcost2]
    omega
  · simp [handlerWait, handlerAccesses, hcost1, hcost2]
    omega

theorem pushReturn_elapsed (w : Word) (s : State) :
    Elapsed (2 * accessCost s (stackAddr s.cpu.sp)) (2 * waitCost s (stackAddr s.cpu.sp)) s (pushReturn w s) := by
  unfold pushReturn
  split <;> exact (push_push s _ _).2.2.1

theorem popReturn_frame (s : State) :
    ReadFrame (2 * accessCost s (stackAddr s.cpu.sp)) (2 * waitCost s (stackAddr s.cpu.sp)) s (popReturn s).2 := by
  rw [popReturn_state]
  exact pop_pop_frame s

/-- A handler that completes has taken its ticks: on clk.counter all, on clk.extra its control-page waits. -/
theorem exec_next_ticks {i : Instr} (h : exec i s = .next t) :
    t.clk.counter = s.clk.counter + counted s (handlerCost s i) ∧
    t.clk.extra = s.clk.extra + counted s (handlerWait s i) := by
  rcases instr_kinds s i with ⟨o, ho⟩ | ⟨a, ha⟩ | ⟨c, hc⟩ | ⟨a, rfl⟩ | rfl | ⟨src, dst, len, rfl⟩ | ⟨d, rfl⟩ | ⟨d, rfl⟩
  · obtain ⟨f, hexec, -⟩ := exec_reads ho
    rw [hexec s rfl] at h
    cases h
    rw [(handlerCost_reads ho).1, (handlerCost_reads ho).2, State.setCpu_clk, (readOperand_frame o s).clk]
    exact ⟨rfl, rfl⟩
  · obtain ⟨v, hexec⟩ := exec_stores ha
    rw [hexec s rfl] at h
    cases h
    have hread := memRead_costs s a
    have hboth := hread.trans (memWrite_costs _ a v)
    rw [(hread.access a).1, (hread.access a).2] at hboth
    rw [(handlerCost_stores ha).1, (handlerCost_stores ha).2]
    exact ⟨hboth.counter, hboth.extra⟩
  · rw [exec_implied hc] at h
    cases h
    rw [(handlerCost_implied hc).1, (handlerCost_implied hc).2, State.setCpu_clk, (dummyImplied_frame s).clk]
    exact ⟨rfl, rfl⟩
  · cases h
    rw [(handlerCost_jsrAbs a).1, (handlerCost_jsrAbs a).2, setPC, State.setCpu_clk, (pushReturn_elapsed _ s).clk]
    exact ⟨rfl, rfl⟩
  · cases h
    rw [handlerCost_rts.1, handlerCost_rts.2, setPC, State.setCpu_clk, (popReturn_frame s).clk]
    exact ⟨rfl, rfl⟩
  · obtain ⟨hlen, hpop⟩ := exec_tii_next h
    rw [exec_tii_completes hlen hpop] at h
    cases h
    have hall := tiiCopied_popXAY_costs src dst len s
    exact ⟨hall.counter, hall.extra⟩
  · cases h
    by_cases hz : s.cpu.p.z = true
    · simp [hz, branchTaken, setPC, ticks_clk, handlerCost, handlerWait, handlerAccesses, branchTicks]
    · simp [hz, handlerCost, handlerWait, handlerAccesses, branchTicks]
  · cases h
    simp [branchTaken, setPC, ticks_clk, handlerCost, handlerWait, handlerAccesses, branchTicks]

/-- Settles O40: kind by kind, the ticks of the operations that a handler is made of. -/
theorem handlerTicksAreItsAccesses : Obligations.HandlerTicksAreItsAccesses := fun _ _ _ => exec_next_ticks

end Sys2Proof.Machine
end

section
/-! PROOFS. The step, branch by branch (spec/40_execute_loop.md R110, R111), and which of its branches stop the run
(spec/60_exceptions.md R225 to R228). -/

namespace Sys2Proof.Machine

variable {s t : State}

/-! ## A stopped machine -/

theorem step_of_halted (h : s.clk.halted = true) : step s = .fault (.halted s) := by simp [step, stopped, h]

theorem step_of_faulted (hclk : s.clk.halted = false) (h : s.fault.isSome = true) :
    step s = .fault (.alreadyFaulted s) := by simp [step, stopped, hclk, h]

theorem step_of_refused (hclk : s.clk.halted = false) (hfault : s.fault.isSome = false)
    (h : s.refused.isSome = true) : step s = .refused (.alreadyRefused s) := by simp [step, stopped, hclk, hfault, h]

/-- The three ways to be stopped, in the order in which the step looks at them. -/
theorem step_of_not_running (h : ¬ s.Running) :
    (s.clk.halted = true ∧ step s = .fault (.halted s)) ∨
    (s.clk.halted = false ∧ s.fault.isSome = true ∧ step s = .fault (.alreadyFaulted s)) ∨
    (s.clk.halted = false ∧ s.fault.isSome = false ∧ s.refused.isSome = true ∧
      step s = .refused (.alreadyRefused s)) := by
  cases hclk : s.clk.halted with
  | true => exact .inl ⟨rfl, step_of_halted hclk⟩
  | false =>
    cases hfault : s.fault.isSome with
    | true => exact .inr (.inl ⟨rfl, rfl, step_of_faulted hclk hfault⟩)
    | false =>
      have hrefused : s.refused.isSome = true := by
        by_contra hnone
        exact h ⟨hclk, by simpa using hfault, by simpa using hnone⟩
      exact .inr (.inr ⟨rfl, rfl, hrefused, step_of_refused hclk hfault hrefused⟩)

/-! ## A running machine -/

theorem takeInterrupt_sameBook (l : Line) (s : State) : SameBook s (takeInterrupt l s) := by
  obtain ⟨u, hu, heq, -⟩ := takeInterrupt_keeps s l
  rw [heq]
  exact ⟨hu.book.fault, hu.book.refused, hu.book.pre, hu.book.extraPre, hu.book.params⟩

theorem step_of_due {l : Line} (hrun : s.Running) (hl : dueLine (pollLines s) = some l) :
    step s = .next (takeInterrupt l (pollLines s)) := by
  have hfault : (takeInterrupt l (pollLines s)).fault = none :=
    (takeInterrupt_sameBook l _).fault.trans ((pollLines_fault s).trans hrun.2.1)
  simp only [step, stopped_of_running s hrun, hl, settle, hfault]

theorem step_of_unknown (hrun : s.Running) (hdue : dueLine (pollLines s) = none)
    (hf : fetchInstr (beginInstr (pollLines s)) = .unknown t) : step s = .fault (.unknownOpcode t) := by
  simp only [step, stopped_of_running s hrun, hdue, hf]

theorem step_of_got {row : Row} {i : Instr} (hrun : s.Running) (hdue : dueLine (pollLines s) = none)
    (hf : fetchInstr (beginInstr (pollLines s)) = .got row i t) : step s = complete row (exec i t) := by
  simp only [step, stopped_of_running s hrun, hdue, hf]

/-- What a fetch that gives an instruction leaves: the row of the byte at PC, an instruction that the row builds from as many
bytes as its mode takes, and the machine after these bytes. -/
theorem fetchInstr_got {row : Row} {i : Instr} (h : fetchInstr s = .got row i t) : t = afterFetch s row ∧
    ∃ op l, lookup s.params.opcodeSet op = some row ∧ l.length = row.mode.operandBytes ∧ row.build l = some i := by
  rcases fetchInstr_cases s with ⟨-, hf⟩ | ⟨row', i', hrow, hbuild, hf⟩ <;> rw [hf] at h <;> cases h
  exact ⟨rfl, _, _, hrow, fetchBytes_length _ _, hbuild⟩

/-! ## What stops a running machine -/

theorem afterFetch_fault (row : Row) (s : State) : (afterFetch s row).fault = s.fault :=
  (afterFetch_keeps s row).book.fault

/-- No handler raises a fault (R222 to R224), and only TII refuses (R228). -/
theorem exec_outcome (i : Instr) (s : State) : (∃ t, exec i s = .next t) ∨
    ∃ src dst len r, i = .tii src dst len ∧ exec i s = .refused r ∧
      ((len = 0#16 ∧ ∃ t, r = .tiiZeroLength t) ∨ (len ≠ 0#16 ∧ ∃ t, r = .tiiStackClobber t)) := by
  rcases instr_kinds s i with ⟨o, ho⟩ | ⟨a, ha⟩ | ⟨c, hc⟩ | ⟨a, rfl⟩ | rfl | ⟨src, dst, len, rfl⟩ | ⟨d, rfl⟩ | ⟨d, rfl⟩
  · obtain ⟨f, hexec, -⟩ := exec_reads ho
    exact .inl ⟨_, hexec s rfl⟩
  · obtain ⟨v, hexec⟩ := exec_stores ha
    exact .inl ⟨_, hexec s rfl⟩
  · exact .inl ⟨_, exec_implied hc⟩
  · exact .inl ⟨_, exec_jsrAbs a s⟩
  · exact .inl ⟨_, exec_rts s⟩
  · by_cases hlen : len = 0#16
    · subst hlen
      exact .inr ⟨src, dst, 0#16, _, rfl, exec_tii_zero src dst s, .inl ⟨rfl, _, rfl⟩⟩
    · by_cases hpop : (popXAY (tiiCopied src dst len s)).1 = (s.cpu.x, s.cpu.a, s.cpu.y)
      · exact .inl ⟨_, exec_tii_completes hlen hpop⟩
      · exact .inr ⟨src, dst, len, _, rfl, exec_tii_clobbered hlen hpop, .inr ⟨hlen, _, rfl⟩⟩
  · exact .inl ⟨_, exec_beqRel d s⟩
  · exact .inl ⟨_, exec_braRel d s⟩

theorem complete_next_of_fault_none (row : Row) (h : t.fault = none) :
    complete row (.next t) = .next (finishInstr row t) := by
  simp only [complete, settle, finishInstr_fault, h]

/-- The four outcomes of a running machine: the entry, an unknown opcode, an instruction that completes, and a TII that
refuses. -/
theorem step_running_cases (hrun : s.Running) : (∃ u, step s = .next u) ∨ dueLine (pollLines s) = none ∧
    ((∃ u, fetchInstr (beginInstr (pollLines s)) = .unknown u ∧ step s = .fault (.unknownOpcode u)) ∨
      ∃ row src dst len u r, fetchInstr (beginInstr (pollLines s)) = .got row (.tii src dst len) u ∧
        exec (.tii src dst len) u = .refused r ∧ step s = .refused r ∧
        ((len = 0#16 ∧ ∃ v, r = .tiiZeroLength v) ∨ (len ≠ 0#16 ∧ ∃ v, r = .tiiStackClobber v))) := by
  cases hdue : dueLine (pollLines s) with
  | some l => exact .inl ⟨_, step_of_due hrun hdue⟩
  | none =>
    cases hf : fetchInstr (beginInstr (pollLines s)) with
    | unknown u => exact .inr ⟨rfl, .inl ⟨u, rfl, step_of_unknown hrun hdue hf⟩⟩
    | got row i u =>
      have hstep := step_of_got hrun hdue hf
      rcases exec_outcome i u with ⟨v, hexec⟩ | ⟨src, dst, len, r, rfl, hexec, hr⟩
      · have hfault : v.fault = none := by
          rw [(exec_next_keeps hexec).book.fault, (fetchInstr_got hf).1, afterFetch_fault]
          exact (pollLines_fault s).trans hrun.2.1
        rw [hexec, complete_next_of_fault_none row hfault] at hstep
        exact .inl ⟨_, hstep⟩
      · rw [hexec] at hstep
        exact .inr ⟨rfl, .inr ⟨row, src, dst, len, u, r, rfl, hexec, hstep, hr⟩⟩

/-! ## The obligations -/

/-- Settles O47: of the four outcomes one is a fault and one is a refusal. -/
theorem onlyUnknownOpcodeFaultsAndOnlyTiiRefuses : Obligations.OnlyUnknownOpcodeFaultsAndOnlyTiiRefuses := by
  intro s hrun
  rcases step_running_cases hrun with ⟨u, hstep⟩ |
    ⟨hdue, ⟨u, hf, hstep⟩ | ⟨row, src, dst, len, u, r, hf, hexec, hstep, hr⟩⟩ <;> rw [hstep]
  · exact ⟨fun _ h => (nomatch h), fun _ h => (nomatch h)⟩
  · refine ⟨fun f h => ?_, fun _ h => (nomatch h)⟩
    cases h
    exact ⟨hdue, u, rfl, hf⟩
  · refine ⟨fun _ h => (nomatch h), fun r' h => ?_⟩
    cases h
    rcases hr with ⟨hlen, v, rfl⟩ | ⟨hlen, v, rfl⟩
    · exact ⟨hdue, row, src, dst, len, u, v, hf, hexec, .inl ⟨hlen, rfl⟩⟩
    · exact ⟨hdue, row, src, dst, len, u, v, hf, hexec, .inr ⟨hlen, rfl⟩⟩

/-- Settles O42: the branch of a fetched instruction. -/
theorem stepRunsTheFetchedInstruction : Obligations.StepRunsTheFetchedInstruction :=
  fun _ _ _ _ hrun hdue hf => step_of_got hrun hdue hf

/-- Settles O46: a step that gives a next state is one of a running machine. -/
theorem stoppedMachineTakesNoStep : Obligations.StoppedMachineTakesNoStep :=
  fun _ hstop _ hstep => hstop (step_next_cases hstep).1

end Sys2Proof.Machine
end

section
/-! PROOFS. The whole-machine rules: what every step keeps, and that no step reports a cycle mismatch
(spec/10_state.md; spec/70_reset_and_hazards.md R282). -/

namespace Sys2Proof.Machine

variable {s t u : State}

/-! ## Steps 6 and 7 -/

/-- The ticks that the cycle check expects of an instruction (R118). -/
def expectedTicks (row : Row) (s : State) : Nat := row.ref * 3 * (if s.cpu.fast then 1 else 4)

theorem finishInstr_of_no_mismatch {row : Row} (h : row.ref = 0 ∨ consumedTicks s = expectedTicks row s) :
    finishInstr row s = s.setClk { s.clk with extra := 0 } := by
  unfold finishInstr
  by_cases href : row.ref = 0
  · exact if_pos href
  · exact (if_neg href).trans (if_pos (h.resolve_left href))

theorem finishInstr_of_mismatch {row : Row} (href : row.ref ≠ 0) (hne : consumedTicks s ≠ expectedTicks row s) :
    finishInstr row s =
      diag .warning (.cycleMismatch row.opcode s.cpu.instrPC (consumedTicks s) (expectedTicks row s))
        (s.setClk { s.clk with extra := 0 }) := by
  unfold finishInstr
  exact (if_neg href).trans (if_neg hne)

/-- Steps 6 and 7 reset clk.extra and append at most one event, a cycle mismatch. -/
theorem finishInstr_cases (row : Row) (s : State) :
    finishInstr row s = s.setClk { s.clk with extra := 0 } ∨ ∃ d,
      finishInstr row s = diag .warning d (s.setClk { s.clk with extra := 0 }) := by
  by_cases h : row.ref = 0 ∨ consumedTicks s = expectedTicks row s
  · exact .inl (finishInstr_of_no_mismatch h)
  · obtain ⟨href, hne⟩ := not_or.1 h
    exact .inr ⟨_, finishInstr_of_mismatch href hne⟩

theorem finishInstr_cpu (row : Row) (s : State) : (finishInstr row s).cpu = s.cpu := by
  rcases finishInstr_cases row s with h | ⟨d, h⟩ <;> rw [h] <;> rfl

theorem finishInstr_clk (row : Row) (s : State) : (finishInstr row s).clk = { s.clk with extra := 0 } := by
  rcases finishInstr_cases row s with h | ⟨d, h⟩ <;> rw [h] <;> rfl

/-! ## What a step keeps beside the registers -/

/-- What `Keeps` says, without the locals of Step and with any events. -/
structure Lasts (s t : State) : Prop where
  params : t.params = s.params
  fault : t.fault = s.fault
  refused : t.refused = s.refused
  halted : t.clk.halted = s.clk.halted
  suppress : t.clk.suppress = s.clk.suppress
  counter : s.clk.counter ≤ t.clk.counter
  rom : ∀ k < romTop, t.mem.read k = s.mem.read k
  wf : s.mem.wf → t.mem.wf
  inSpace : s.mem.inSpace → t.mem.inSpace
  tmr : s.tmr.InRange → t.tmr.InRange
  pending : s.params.irqExtension = .none → s.irq.pending = 0b000#3 → t.irq.pending = 0b000#3
  events : ∃ l, t.events = l ++ s.events

theorem Keeps.lasts (h : Keeps s t) : Lasts s t :=
  ⟨h.book.params, h.book.fault, h.book.refused, h.halted, h.suppress, h.counter, h.rom, h.wf, h.inSpace, h.tmr,
    h.pending, h.events.imp fun _ hl => hl.1⟩

theorem Lasts.trans (h : Lasts s t) (g : Lasts t u) : Lasts s u where
  params := g.params.trans h.params
  fault := g.fault.trans h.fault
  refused := g.refused.trans h.refused
  halted := g.halted.trans h.halted
  suppress := g.suppress.trans h.suppress
  counter := h.counter.trans g.counter
  rom := fun k hk => (g.rom k hk).trans (h.rom k hk)
  wf := g.wf ∘ h.wf
  inSpace := g.inSpace ∘ h.inSpace
  tmr := g.tmr ∘ h.tmr
  pending := fun hnone hpend => g.pending (by rw [h.params]; exact hnone) (h.pending hnone hpend)
  events := by
    obtain ⟨l, hl⟩ := h.events
    obtain ⟨k, hk⟩ := g.events
    exact ⟨k ++ l, by rw [hk, hl, List.append_assoc]⟩

theorem pollLines_keeps (s : State) : Keeps s (pollLines s) := by
  refine ⟨⟨?_, ?_, ?_, ?_, ?_⟩, ?_, ?_, ?_, ?_, ?_, ?_, ?_, ?_, .of_events (by simp)⟩
  case refine_13 =>
    intro hnone hpend
    rwa [pollLines_none s hnone]
  all_goals simp

theorem beginInstr_lasts (s : State) : Lasts s (beginInstr s) :=
  ⟨rfl, rfl, rfl, rfl, rfl, le_refl _, fun _ _ => rfl, id, id, id, fun _ h => h, [], rfl⟩

theorem resetExtra_lasts (s : State) : Lasts s (s.setClk { s.clk with extra := 0 }) :=
  ⟨rfl, rfl, rfl, rfl, rfl, le_refl _, fun _ _ => rfl, id, id, id, fun _ h => h, [], rfl⟩

theorem diag_lasts (sev : Severity) (d : Diagnostic) (s : State) : Lasts s (diag sev d s) :=
  ⟨rfl, rfl, rfl, rfl, rfl, le_refl _, fun _ _ => rfl, id, id, id, fun _ h => h, [.diag sev d], rfl⟩

theorem finishInstr_lasts (row : Row) (s : State) : Lasts s (finishInstr row s) := by
  rcases finishInstr_cases row s with h | ⟨d, h⟩ <;> rw [h]
  · exact resetExtra_lasts s
  · exact (resetExtra_lasts s).trans (diag_lasts _ _ _)

theorem step_next_lasts (h : step s = .next t) : Lasts s t := by
  obtain ⟨-, ⟨l, -, rfl⟩ | ⟨-, row, i, s1, t1, hf, he, rfl, -⟩⟩ := step_next_cases h
  · obtain ⟨u, hu, heq, -⟩ := takeInterrupt_keeps (pollLines s) l
    rw [heq]
    exact ((pollLines_keeps s).trans hu).lasts.trans (resetExtra_lasts u)
  · obtain ⟨rfl, -⟩ := fetchInstr_got hf
    exact ((pollLines_keeps s).lasts.trans (beginInstr_lasts _)).trans
      (((afterFetch_keeps _ row).trans (exec_next_keeps he)).lasts.trans (finishInstr_lasts row t1))

/-! ## What a step keeps of the registers -/

theorem step_next_cpu (h : step s = .next t) : CpuKept s.cpu t.cpu ∧ t.cpu.p.t = false := by
  obtain ⟨-, ⟨l, -, rfl⟩ | ⟨-, row, i, s1, t1, hf, he, rfl, -⟩⟩ := step_next_cases h
  · obtain ⟨u, -, heq, hp, hy⟩ := takeInterrupt_keeps (pollLines s) l
    rw [heq, State.setClk_cpu]
    rw [pollLines_cpu] at hp hy
    exact ⟨⟨hy, by rw [hp], by rw [hp], by simp [hp], by simp [hp], by simp [hp]⟩, by rw [hp]⟩
  · obtain ⟨rfl, -⟩ := fetchInstr_got hf
    have hfetched := afterFetch_cpu (beginInstr (pollLines s)) row
    have hkept := (exec_next_cpu he).1
    rw [hfetched] at hkept
    rw [finishInstr_cpu]
    have hbegin : CpuKept s.cpu (afterFetch (beginInstr (pollLines s)) row).cpu := by
      rw [hfetched]
      exact ⟨by simp [beginInstr], by simp [beginInstr], by simp [beginInstr], by simp [beginInstr],
        by simp [beginInstr], fun _ => rfl⟩
    rw [hfetched] at hbegin
    exact ⟨hbegin.trans hkept, hkept.flagT rfl⟩

theorem step_next_extra (h : step s = .next t) : t.clk.extra = 0 := by
  obtain ⟨-, ⟨l, -, rfl⟩ | ⟨-, row, i, s1, t1, -, -, rfl, -⟩⟩ := step_next_cases h
  · rfl
  · rw [finishInstr_clk]

/-! ## No cycle mismatch -/

theorem accessTicks_eq (fast : Bool) : accessTicks fast = 3 * (if fast then 1 else 4) := by cases fast <;> rfl

/-- The accesses of a handler without bare ticks take their access ticks, beside the control-page waits. -/
theorem handlerCost_of_no_branchTicks {i : Instr} (h : branchTicks s i = 0) :
    handlerCost s i = handlerWait s i + (handlerAccesses s.cpu i).length * accessTicks s.cpu.fast := by
  have hsum (l : List Word) :
      (l.map (accessCost s)).sum = (l.map (waitCost s)).sum + l.length * accessTicks s.cpu.fast := by
    induction l with
    | nil => simp
    | cons la l ih => simp only [List.map_cons, List.sum_cons, List.length_cons, ih, accessCost, Nat.succ_mul]; omega
  rw [handlerCost, handlerWait, h, hsum, Nat.add_zero]

/-- The fetches of an instruction take their access ticks, beside the control-page waits. -/
theorem afterFetch_costs (row : Row) (s : State) : ∃ w,
    Costs (w + (1 + row.mode.operandBytes) * accessTicks s.cpu.fast) w s (afterFetch s row) := by
  have hop : Costs (accessCost s s.cpu.pc) (waitCost s s.cpu.pc) s (clearT (fetchByte s).2) :=
    ((memRead_costs s s.cpu.pc).setCpu _ rfl rfl).setCpu _ rfl rfl
  obtain ⟨w, hargs⟩ := fetchBytes_costs (clearT (fetchByte s).2) row.mode.operandBytes
  rw [hop.fast] at hargs
  refine ⟨waitCost s s.cpu.pc + w, ?_⟩
  have hcost : accessCost s s.cpu.pc + (w + row.mode.operandBytes * accessTicks s.cpu.fast) =
      waitCost s s.cpu.pc + w + (1 + row.mode.operandBytes) * accessTicks s.cpu.fast := by
    simp only [accessCost, Nat.add_mul, Nat.one_mul]
    omega
  rw [← hcost]
  exact hop.trans hargs

/-- The ticks that the cycle check sees of an instruction whose row has a reference count are that count's ticks (R282): the
fetches and the accesses are as many as the count, and the waits are taken off. -/
theorem consumedTicks_eq {row : Row} {i : Instr} (hsupp : s.clk.suppress = 0)
    (hf : fetchInstr (beginInstr s) = .got row i u) (he : exec i u = .next t) (href : row.ref ≠ 0) :
    consumedTicks t = expectedTicks row t := by
  obtain ⟨rfl, op, l, hrow, hlen, hbuild⟩ := fetchInstr_got hf
  obtain ⟨i', hi', hrefs⟩ := lookup_builds _ _ row hrow l hlen
  obtain rfl : i' = i := Option.some.inj (hi'.symm.trans hbuild)
  obtain ⟨haccesses, hbranch, hcsh, hcsl⟩ := hrefs href
  obtain ⟨w, hfetch⟩ := afterFetch_costs row (beginInstr s)
  obtain ⟨hcounter, hextra⟩ := exec_next_ticks he
  have hbook := ((afterFetch_keeps (beginInstr s) row).trans (exec_next_keeps he)).book
  have hpre : t.pre = s.clk.counter := hbook.pre
  have hextraPre : t.extraPre = s.clk.extra := hbook.extraPre
  have hfast : t.cpu.fast = s.cpu.fast := ((exec_next_cpu he).2 hcsh hcsl).trans hfetch.fast
  have hcountedBegin : ∀ n, counted (beginInstr s) n = n := fun n => if_pos hsupp
  have hcountedFetch : ∀ n, counted (afterFetch (beginInstr s) row) n = n :=
    fun n => if_pos (hfetch.suppress.trans hsupp)
  rw [hcountedFetch, hfetch.counter, hcountedBegin, handlerCost_of_no_branchTicks (hbranch _), hfetch.fast] at hcounter
  rw [hcountedFetch, hfetch.extra, hcountedBegin] at hextra
  have href : expectedTicks row t = (1 + row.mode.operandBytes) * accessTicks s.cpu.fast +
      (handlerAccesses (afterFetch (beginInstr s) row).cpu i').length * accessTicks s.cpu.fast := by
    rw [expectedTicks, hfast, Nat.mul_assoc, ← accessTicks_eq, ← Nat.add_mul, ← haccesses]
  simp only [beginInstr, State.setPre_clk, State.setCpu_clk, State.setPre_cpu, State.setCpu_cpu] at hcounter hextra href
  rw [consumedTicks, hpre, hextraPre, href]
  omega

theorem step_next_emits (hsupp : s.clk.suppress = 0) (h : step s = .next t) : EmitsOnly NoMismatch s t := by
  obtain ⟨-, ⟨l, -, rfl⟩ | ⟨-, row, i, s1, t1, hf, he, rfl, -⟩⟩ := step_next_cases h
  · obtain ⟨u, hu, heq, -⟩ := takeInterrupt_keeps (pollLines s) l
    rw [heq]
    exact (((pollLines_keeps s).trans hu).events).trans (.of_events rfl)
  · have hsupp' : (pollLines s).clk.suppress = 0 := by rwa [pollLines_clk]
    have hfetched := (fetchInstr_got hf).1
    have hkeeps : Keeps (beginInstr (pollLines s)) t1 := by
      rw [hfetched] at he
      exact (afterFetch_keeps _ row).trans (exec_next_keeps he)
    have hbegin : EmitsOnly NoMismatch s (beginInstr (pollLines s)) := .of_events (by simp [beginInstr])
    have hcheck : row.ref = 0 ∨ consumedTicks t1 = expectedTicks row t1 :=
      or_iff_not_imp_left.2 (consumedTicks_eq hsupp' hf he)
    rw [finishInstr_of_no_mismatch hcheck]
    exact (hbegin.trans hkeeps.events).trans (.of_events rfl)

/-! ## The obligations -/

/-- Settles O55: each clause is one that every step keeps, or one that it establishes. -/
theorem stepKeepsTheInvariant : Obligations.StepKeepsTheInvariant := by
  intro s t hinv h
  have hlasts := step_next_lasts h
  obtain ⟨hhalted, hfault, hrefused⟩ := hinv.running
  exact {
    memWf := hlasts.wf hinv.memWf
    memInSpace := hlasts.inSpace hinv.memInSpace
    timer := hlasts.tmr hinv.timer
    extra := step_next_extra h
    suppress := hlasts.suppress.trans hinv.suppress
    memoryFlag := (step_next_cpu h).2
    pending := fun hnone => by
      rw [hlasts.params] at hnone
      exact hlasts.pending hnone (hinv.pending hnone)
    running := ⟨hlasts.halted.trans hhalted, hlasts.fault.trans hfault, hlasts.refused.trans hrefused⟩ }

/-- Settles O56: what every step keeps of the machine and of the registers. -/
theorem whatNoStepChanges : Obligations.WhatNoStepChanges := by
  intro s t h
  have hlasts := step_next_lasts h
  have hcpu := (step_next_cpu h).1
  exact ⟨hlasts.rom, hlasts.params, hcpu.y, hcpu.flagV, hcpu.flagB, hcpu.flagI, hcpu.flagD, hlasts.halted,
    hlasts.suppress, hlasts.counter, hlasts.events⟩

/-- Settles O57: the fetch clears T and no handler sets it; the entry clears both, and steps 6 and 7 reset clk.extra. -/
theorem everyStepLeavesTClear : Obligations.EveryStepLeavesTClear := fun _ _ h => ⟨(step_next_cpu h).2, step_next_extra h⟩

/-- Settles O58: no access emits a mismatch, and the cycle check finds none. -/
theorem noStepEmitsACycleMismatch : Obligations.NoStepEmitsACycleMismatch := by
  intro s t hsupp h
  obtain ⟨l, hl, hnone⟩ := step_next_emits hsupp h
  exact ⟨l, hl, fun op pc consumed expected hmem => hnone _ hmem op pc consumed expected rfl⟩

/-- Settles O44: both cases of the cycle check, and no fault stops the step. -/
theorem epilogueOnlyResetsExtraAndDiagnoses : Obligations.EpilogueOnlyResetsExtraAndDiagnoses := by
  intro row t hfault
  have hevents : finishInstr row t = { t with
      clk := { t.clk with extra := 0 }
      events := if row.ref ≠ 0 ∧ consumedTicks t ≠ expectedTicks row t then
          .diag .warning (.cycleMismatch row.opcode t.cpu.instrPC (consumedTicks t) (expectedTicks row t)) :: t.events
        else t.events } := by
    by_cases hcheck : row.ref ≠ 0 ∧ consumedTicks t ≠ expectedTicks row t
    · rw [if_pos hcheck, finishInstr_of_mismatch hcheck.1 hcheck.2]
      rfl
    · rw [if_neg hcheck, finishInstr_of_no_mismatch (by tauto)]
      rfl
  rw [complete_next_of_fault_none row hfault, hevents]
  rfl

end Sys2Proof.Machine
end

section
/-! PROOFS. Interrupts (spec/60_exceptions.md R243 to R247): the external lines, the priority encoder, and the entry, as its
three pushes, the change of the flags, and the read of the vector. -/

namespace Sys2Proof.Machine

variable {s : State}

/-! ## Lines, pending and due -/

/-- Settles O48: the conditions of the encoder's branches, line by line. -/
theorem priorityEncoderPicksTheHighestLine : Obligations.PriorityEncoderPicksTheHighestLine := by
  intro q
  have hbits (l : Line) (h : q.enabled &&& q.pending = 0#3) : hasInterrupt q l = false := by
    rw [hasInterrupt, ← BitVec.getLsbD_and, h, BitVec.getLsbD_zero]
  refine ⟨fun _ => rfl, rfl, rfl, rfl, fun htiq => if_pos htiq, fun htiq hirq1 => ?_, fun htiq hirq1 hirq2 => ?_,
    fun h => ?_, rfl, rfl, rfl⟩
  · simp only [highest, hasInterrupt, Line.number, htiq, hirq1, if_true, Bool.false_eq_true, if_false]
  · simp only [highest, hasInterrupt, Line.number, htiq, hirq1, hirq2, if_true, Bool.false_eq_true, if_false]
  · simp [highest, hbits _ h]

/-- Settles O50: the two external lines are the two low bits. -/
theorem externalLinesSetOnlyTheirPendingBits : Obligations.ExternalLinesSetOnlyTheirPendingBits := by
  intro s
  refine ⟨pollLines_none s, fun hvec => ⟨Config.extLines s.draws, ?_⟩⟩
  have hpoll : pollLines s =
      (s.setIrq { s.irq with pending := s.irq.pending ||| (Config.extLines s.draws).setWidth 3 }).countDraw := by
    simp only [pollLines, hvec]
  rw [hpoll]
  refine ⟨rfl, ?_, fun k hk => ?_⟩
  · simp
  · simp [hk]

theorem dueLine_of_vectored (hvec : s.params.irqExtension = .vectored) (hi : s.cpu.p.i = false) :
    dueLine (pollLines s) = highest (pollLines s).irq := if_pos ⟨by simpa using hvec, by simpa using hi⟩

/-- Settles O51: `due` asks for delivery, and then for P.I clear. -/
theorem maskedOrUndeliveredInterruptsAreNotDue : Obligations.MaskedOrUndeliveredInterruptsAreNotDue := by
  intro s h
  refine if_neg ?_
  rw [pollLines_params, pollLines_cpu]
  rintro ⟨hvec, hi⟩
  rcases h with h | h
  · rw [h] at hvec
    cases hvec
  · rw [h] at hi
    cases hi

/-! ## The return address -/

/-- The two pushes of PushReturn, in the order of RET_PUSH_ORDER (spec/43_subroutine.md R165). -/
theorem pushReturn_eq (w : Word) (s : State) : pushReturn w s =
    push (if s.params.retPushOrder = .lowFirst then hiByte w else loByte w)
      (push (if s.params.retPushOrder = .lowFirst then loByte w else hiByte w) s) := by
  unfold pushReturn
  split <;> rename_i h <;> simp [h]

/-! ## The entry -/

/-- The flags byte that an interrupt entry pushes, with B as 0 (R246). -/
def entryByte (p : Flags) : Byte := { p with b := false }.toByte

theorem entryByte_bits (p : Flags) :
    (entryByte p).getLsbD 7 = p.n ∧ (entryByte p).getLsbD 6 = p.v ∧ (entryByte p).getLsbD 5 = p.t ∧
    (entryByte p).getLsbD 4 = false ∧ (entryByte p).getLsbD 3 = p.d ∧ (entryByte p).getLsbD 2 = p.i ∧
    (entryByte p).getLsbD 1 = p.z ∧ (entryByte p).getLsbD 0 = p.c := toByte_bits { p with b := false }

/-- The machine after the three pushes of an interrupt entry (R246). -/
def entryPushed (s : State) : State := push (entryByte s.cpu.p) (pushReturn s.cpu.pc s)

/-- The flags after an interrupt entry (R246). -/
def entryFlags (p : Flags) : Flags := { p with i := true, d := false, t := false }

/-- The machine after the pushes and the change of the flags. -/
def entryMasked (s : State) : State := (entryPushed s).setCpu { (entryPushed s).cpu with p := entryFlags s.cpu.p }

/-- Two reads, of the low byte of a word and of its high byte. -/
def readWord (la : Word) (s : State) : Word × State :=
  (wordOf (memRead (la + 1#16) (memRead la s).2).1 (memRead la s).1, (memRead (la + 1#16) (memRead la s).2).2)

theorem takeInterrupt_eq (l : Line) (s : State) : takeInterrupt l s =
    (setPC (readWord l.vector (entryMasked s)).1 (readWord l.vector (entryMasked s)).2).setClk
      { (readWord l.vector (entryMasked s)).2.clk with extra := 0 } := by
  have hret : (pushReturn s.cpu.pc s).cpu.p = s.cpu.p := by rw [pushReturn_cpu]
  have hpush : (entryPushed s).cpu.p = s.cpu.p := by rw [entryPushed, push_cpu, pushReturn_cpu]
  unfold takeInterrupt
  simp only [hret]
  rw [← entryByte, ← entryPushed, hpush]
  rfl

/-- The entry's pushes are the three pushes of `push_push_push`. -/
theorem entryPushed_eq (s : State) : entryPushed s =
    push (entryByte s.cpu.p)
      (push (if s.params.retPushOrder = .lowFirst then hiByte s.cpu.pc else loByte s.cpu.pc)
        (push (if s.params.retPushOrder = .lowFirst then loByte s.cpu.pc else hiByte s.cpu.pc) s)) := by
  rw [entryPushed, pushReturn_eq]

theorem entryMasked_cpu (s : State) :
    (entryMasked s).cpu = { s.cpu with sp := s.cpu.sp - 3#8, p := entryFlags s.cpu.p } := by
  rw [entryMasked, State.setCpu_cpu, entryPushed_eq, (push_push_push s _ _ _).1]

theorem entryMasked_elapsed (s : State) :
    Elapsed (3 * accessCost s (stackAddr s.cpu.sp)) (3 * waitCost s (stackAddr s.cpu.sp)) s (entryMasked s) := by
  have h := (push_push_push s (if s.params.retPushOrder = .lowFirst then loByte s.cpu.pc else hiByte s.cpu.pc)
    (if s.params.retPushOrder = .lowFirst then hiByte s.cpu.pc else loByte s.cpu.pc)
    (entryByte s.cpu.p)).2.2.1
  rw [← entryPushed_eq] at h
  exact ⟨h.clk, h.tmr, h.irq⟩

theorem entryMasked_sameBook (s : State) : SameBook s (entryMasked s) :=
  (((pushReturn_keeps s _).trans (push_keeps _ _)).setCpu _).book

theorem entryMasked_latch (s : State) : (entryMasked s).latch = s.latch := by
  rw [entryMasked, State.setCpu_latch, entryPushed_eq, (push_push_push s _ _ _).2.2.2.1]

theorem entryMasked_read (s : State) (k : Nat) : (entryMasked s).mem.read k =
    if storedKey s (stackAddr s.cpu.sp) = some k then
      (if s.params.retPushOrder = .lowFirst then loByte s.cpu.pc else hiByte s.cpu.pc)
    else if storedKey s (stackAddr (s.cpu.sp - 1#8)) = some k then
      (if s.params.retPushOrder = .lowFirst then hiByte s.cpu.pc else loByte s.cpu.pc)
    else if storedKey s (stackAddr (s.cpu.sp - 2#8)) = some k then entryByte s.cpu.p
    else s.mem.read k := by
  rw [entryMasked, State.setCpu_mem, entryPushed_eq, (push_push_push s _ _ _).2.1]

/-! ## The vector -/

/-- Both bytes of a line's vector lie in one window, in the high kilobyte of their bank (R244). -/
theorem vector_place (l : Line) : windowOf (l.vector + 1#16) = windowOf l.vector ∧
    0x1C00 ≤ (windowOffset l.vector).toNat ∧ 0x1C00 ≤ (windowOffset (l.vector + 1#16)).toNat := by
  cases l <;> decide

theorem readWord_vector_frame (l : Line) (s : State) :
    ReadFrame (2 * accessCost s l.vector) (2 * waitCost s l.vector) s (readWord l.vector s).2 := by
  have hlo := memRead_frame s l.vector
  have hhi := memRead_frame (memRead l.vector s).2 (l.vector + 1#16)
  have hregion : regionAt s (l.vector + 1#16) = regionAt s l.vector := by
    rw [regionAt_eq, regionAt_eq, (vector_place l).1]
  have hcost : accessCost (memRead l.vector s).2 (l.vector + 1#16) = accessCost s l.vector ∧
      waitCost (memRead l.vector s).2 (l.vector + 1#16) = waitCost s l.vector := by
    simp [accessCost, waitCost, regionAt_congr (s := s) (t := (memRead l.vector s).2) (by simp), hregion]
  rw [hcost.1, hcost.2] at hhi
  rw [Nat.two_mul, Nat.two_mul]
  exact hlo.trans hhi

/-- The vector that a state reads is the one that stands in any state with the same MPRs and, off the stack page, the same
memory. -/
theorem readWord_vector_value {s t : State} (l : Line) (hm : t.cpu.mpr = s.cpu.mpr)
    (hmem : ∀ k, (∀ x : Byte, storedKey s (stackAddr x) ≠ some k) → t.mem.read k = s.mem.read k) :
    (readWord l.vector t).1 = wordOf (peek (l.vector + 1#16) s) (peek l.vector s) := by
  obtain ⟨-, hlo, hhi⟩ := vector_place l
  have hm' : (memRead l.vector t).2.cpu.mpr = s.cpu.mpr := by rw [memRead_cpu, hm]
  rw [readWord, memRead_value_high _ _ hlo, memRead_value_high _ _ hhi, peek_high_congr _ hlo hm hmem,
    peek_high_congr _ hhi hm' (by simpa only [memRead_mem] using hmem)]

/-! ## The entry as a whole -/

theorem takeInterrupt_cpu (l : Line) (s : State) : (takeInterrupt l s).cpu =
    { s.cpu with
      sp := s.cpu.sp - 3#8
      pc := wordOf (peek (l.vector + 1#16) s) (peek l.vector s)
      p := entryFlags s.cpu.p } := by
  have hpc : (readWord l.vector (entryMasked s)).1 = wordOf (peek (l.vector + 1#16) s) (peek l.vector s) :=
    readWord_vector_value l (by rw [entryMasked_cpu]) fun k hk => by
      rw [entryMasked_read, if_neg (hk _), if_neg (hk _), if_neg (hk _)]
  have hcpu : (readWord l.vector (entryMasked s)).2.cpu = (entryMasked s).cpu := by simp [readWord]
  rw [takeInterrupt_eq, State.setClk_cpu, setPC, State.setCpu_cpu, hpc, hcpu, entryMasked_cpu]

/-- The entry but its reset of clk.extra: three writes to the stack page and two reads. -/
theorem readWord_entryMasked_elapsed (l : Line) (s : State) :
    Elapsed (3 * accessCost s (stackAddr s.cpu.sp) + 2 * accessCost s l.vector)
      (3 * waitCost s (stackAddr s.cpu.sp) + 2 * waitCost s l.vector) s (readWord l.vector (entryMasked s)).2 := by
  have hread := (readWord_vector_frame l (entryMasked s)).toElapsed
  have hcost := accessCost_congr (s := s) (t := entryMasked s) (by rw [entryMasked_cpu]) (by rw [entryMasked_cpu])
    (entryMasked_sameBook s).params l.vector
  rw [hcost.1, hcost.2] at hread
  exact (entryMasked_elapsed s).trans (entryMasked_sameBook s).params hread

theorem takeInterrupt_read (l : Line) (s : State) (k : Nat) :
    (takeInterrupt l s).mem.read k = (entryMasked s).mem.read k := by
  rw [takeInterrupt_eq]
  exact (readWord_vector_frame l _).mem k

theorem takeInterrupt_latch (l : Line) (s : State) : (takeInterrupt l s).latch = s.latch := by
  rw [takeInterrupt_eq]
  exact (readWord_vector_frame l _).latch.trans (entryMasked_latch s)

/-! ## The entry as a step -/

theorem pollLines_sameBook (s : State) : SameBook s (pollLines s) := by constructor <;> simp

/-- Settles O49: the entry in the state after the poll, which differs from the state before in nothing that the entry
writes. -/
theorem dueInterruptIsTaken : Obligations.DueInterruptIsTaken := by
  intro s l hrun hvec hi hl
  have hm : (pollLines s).cpu.mpr = s.cpu.mpr := by rw [pollLines_cpu]
  have hcost (la : Word) : accessCost (pollLines s) la = accessCost s la :=
    (accessCost_congr hm (by rw [pollLines_cpu]) (pollLines_params s) la).1
  have hkey (la : Word) : storedKey (pollLines s) la = storedKey s la := storedKey_congr hm la
  have hpeek (la : Word) (hla : 0x1C00 ≤ (windowOffset la).toNat) : peek la (pollLines s) = peek la s :=
    peek_high_congr la hla hm fun k _ => by rw [pollLines_mem]
  have hclk : (takeInterrupt l (pollLines s)).clk = { (readWord l.vector (entryMasked (pollLines s))).2.clk with
    extra := 0 } := by rw [takeInterrupt_eq]; rfl
  have htmr : (takeInterrupt l (pollLines s)).tmr = (readWord l.vector (entryMasked (pollLines s))).2.tmr := by
    rw [takeInterrupt_eq]; rfl
  have hirq : (takeInterrupt l (pollLines s)).irq = (readWord l.vector (entryMasked (pollLines s))).2.irq := by
    rw [takeInterrupt_eq]; rfl
  have helapsed := readWord_entryMasked_elapsed l (pollLines s)
  rw [hcost, hcost, pollLines_cpu] at helapsed
  obtain ⟨hn, hv, ht, hb, hd, hi', hz, hc⟩ := entryByte_bits s.cpu.p
  obtain ⟨-, hlo, hhi⟩ := vector_place l
  refine ⟨takeInterrupt l (pollLines s), entryByte s.cpu.p,
    step_of_due hrun ((dueLine_of_vectored hvec hi).trans hl), ?_, hn, hv, ht, hb, hd, hi', hz, hc,
    fun k => ?_, ?_, hirq.trans helapsed.irq, htmr.trans helapsed.tmr, (takeInterrupt_latch l _).trans (pollLines_latch s),
    (pollLines_sameBook s).trans (takeInterrupt_sameBook l _)⟩
  · rw [takeInterrupt_cpu, pollLines_cpu, hpeek _ hlo, hpeek _ hhi, entryFlags]
  · rw [takeInterrupt_read, entryMasked_read, hkey, hkey, hkey, pollLines_cpu, pollLines_params, pollLines_mem]
  · rw [hclk, helapsed.clk, pollLines_clk, counted_congr (s := pollLines s) (t := s) (by rw [pollLines_clk])]

end Sys2Proof.Machine
end

section
/-! PROOFS. What has no influence on a step: the event log (spec/60_exceptions.md R229) and InstrPC (spec/10_state.md R25).
States that differ only in their log are followed through the operations, up to the step. -/

namespace Sys2Proof.Machine

/-- Two states that agree on everything but the event log. -/
structure SameButLog (s t : State) : Prop extends SameBus s t where
  cpu : t.cpu = s.cpu
  clk : t.clk = s.clk
  fault : t.fault = s.fault
  refused : t.refused = s.refused
  pre : t.pre = s.pre
  extraPre : t.extraPre = s.extraPre

namespace SameButLog

theorem withEvents (s : State) (log : List Event) : SameButLog s { s with events := log } :=
  ⟨⟨rfl, rfl, rfl, rfl, rfl, rfl, rfl, rfl, rfl⟩, rfl, rfl, rfl, rfl, rfl, rfl⟩

theorem of_quiet {s t : State} (h : t.quiet = s.quiet) : SameButLog s t := by
  simp only [State.quiet, State.mk.injEq] at h
  obtain ⟨hcpu, hclk, hlatch, htmr, hirq, hmem, hfault, hrefused, -, hpre, hextraPre, hdraws, hparams⟩ := h
  exact ⟨⟨by rw [hcpu], by rw [hcpu], by rw [hclk], hlatch, htmr, hirq, hmem, hdraws, hparams⟩, hcpu, hclk, hfault,
    hrefused, hpre, hextraPre⟩

variable {s t : State} (h : SameButLog s t)

include h

theorem quiet : t.quiet = s.quiet := by
  simp only [State.quiet, State.mk.injEq]
  exact ⟨h.cpu, h.clk, h.latch, h.tmr, h.irq, h.mem, h.fault, h.refused, trivial, h.pre, h.extraPre, h.draws, h.params⟩

/-! ## The setters -/

theorem setCpu (c : Cpu) : SameButLog (s.setCpu c) (t.setCpu c) :=
  ⟨⟨rfl, rfl, h.suppress, h.latch, h.tmr, h.irq, h.mem, h.draws, h.params⟩, rfl, h.clk, h.fault, h.refused, h.pre,
    h.extraPre⟩

theorem setClk (c : Clock) : SameButLog (s.setClk c) (t.setClk c) :=
  ⟨⟨h.mpr, h.fast, rfl, h.latch, h.tmr, h.irq, h.mem, h.draws, h.params⟩, h.cpu, rfl, h.fault, h.refused, h.pre,
    h.extraPre⟩

theorem setIrq (q : Irq) : SameButLog (s.setIrq q) (t.setIrq q) :=
  ⟨⟨h.mpr, h.fast, h.suppress, h.latch, h.tmr, rfl, h.mem, h.draws, h.params⟩, h.cpu, h.clk, h.fault, h.refused, h.pre,
    h.extraPre⟩

theorem setPre (p q : Nat) : SameButLog (s.setPre p q) (t.setPre p q) :=
  ⟨⟨h.mpr, h.fast, h.suppress, h.latch, h.tmr, h.irq, h.mem, h.draws, h.params⟩, h.cpu, h.clk, h.fault, h.refused, rfl,
    rfl⟩

theorem setFault (r : FaultRecord) : SameButLog (s.setFault r) (t.setFault r) :=
  ⟨⟨h.mpr, h.fast, h.suppress, h.latch, h.tmr, h.irq, h.mem, h.draws, h.params⟩, h.cpu, h.clk, rfl, h.refused, h.pre,
    h.extraPre⟩

theorem setRefused (r : RefusalReason) : SameButLog (s.setRefused r) (t.setRefused r) :=
  ⟨⟨h.mpr, h.fast, h.suppress, h.latch, h.tmr, h.irq, h.mem, h.draws, h.params⟩, h.cpu, h.clk, h.fault, rfl, h.pre,
    h.extraPre⟩

theorem countDraw : SameButLog s.countDraw t.countDraw :=
  ⟨⟨h.mpr, h.fast, h.suppress, h.latch, h.tmr, h.irq, h.mem, congrArg (· + 1) h.draws, h.params⟩, h.cpu, h.clk, h.fault,
    h.refused, h.pre, h.extraPre⟩

/-- The two events may differ. -/
theorem emit (d e : Event) : SameButLog (s.emit d) (t.emit e) :=
  ⟨⟨h.mpr, h.fast, h.suppress, h.latch, h.tmr, h.irq, h.mem, h.draws, h.params⟩, h.cpu, h.clk, h.fault, h.refused, h.pre,
    h.extraPre⟩

/-! ## The shared operations -/

theorem ticks (n : Nat) : SameButLog (ticks n s) (ticks n t) where
  toSameBus := h.toSameBus.ticks n
  cpu := by simp [h.cpu]
  clk := by rw [ticks_clk, ticks_clk, h.clk, counted_congr h.suppress]
  fault := by simp [h.fault]
  refused := by simp [h.refused]
  pre := by simp [h.pre]
  extraPre := by simp [h.extraPre]

theorem access (k : Access) (la : Word) (v : Byte) :
    (access k la v t).1 = (access k la v s).1 ∧ SameButLog (access k la v s).2 (access k la v t).2 :=
  ⟨(h.toSameBus.access k la v).1, {
    toSameBus := (h.toSameBus.access k la v).2
    cpu := by simp [h.cpu]
    clk := by
      rw [access_clk, access_clk, h.clk, (h.accessCost la).1, (h.accessCost la).2, counted_congr h.suppress,
        counted_congr h.suppress]
    fault := by simp [h.fault]
    refused := by simp [h.refused]
    pre := by simp [h.pre]
    extraPre := by simp [h.extraPre] }⟩

theorem memRead (la : Word) :
    (memRead la t).1 = (memRead la s).1 ∧ SameButLog (memRead la s).2 (memRead la t).2 := h.access .read la 0#8

theorem memWrite (la : Word) (v : Byte) : SameButLog (memWrite la v s) (memWrite la v t) := (h.access .write la v).2

theorem setPC (pc : Word) : SameButLog (setPC pc s) (setPC pc t) := by
  unfold Machine.setPC
  rw [h.cpu]
  exact h.setCpu _

theorem push (v : Byte) : SameButLog (push v s) (push v t) := by
  have hw := h.memWrite (stackAddr s.cpu.sp) v
  unfold Machine.push
  rw [h.cpu]
  simp only [hw.cpu]
  exact hw.setCpu _

theorem pop : (pop t).1 = (pop s).1 ∧ SameButLog (pop s).2 (pop t).2 := by
  unfold Machine.pop
  rw [h.cpu]
  exact (h.setCpu _).memRead _

theorem fetchByte : (fetchByte t).1 = (fetchByte s).1 ∧ SameButLog (fetchByte s).2 (fetchByte t).2 := by
  have hr := h.memRead s.cpu.pc
  unfold Machine.fetchByte
  rw [h.cpu]
  simp only [hr.2.cpu]
  exact ⟨hr.1, hr.2.setPC _⟩

theorem pushReturn (w : Word) : SameButLog (pushReturn w s) (pushReturn w t) := by
  unfold Machine.pushReturn
  rw [h.params]
  split <;> exact (h.push _).push _

theorem popReturn : (popReturn t).1 = (popReturn s).1 ∧ SameButLog (popReturn s).2 (popReturn t).2 := by
  have hsecond := h.pop.2.pop
  refine ⟨?_, by simpa only [popReturn_state] using hsecond.2⟩
  simp only [Machine.popReturn, h.params, h.pop.1, hsecond.1]
  split <;> rfl

theorem pushYAX : SameButLog (pushYAX s) (pushYAX t) := by
  rw [pushYAX_eq, pushYAX_eq, h.cpu]
  exact ((h.push _).push _).push _

theorem popXAY : (popXAY t).1 = (popXAY s).1 ∧ SameButLog (popXAY s).2 (popXAY t).2 := by
  have hsecond := h.pop.2.pop
  have hthird := hsecond.2.pop
  exact ⟨by simp only [Machine.popXAY, h.pop.1, hsecond.1, hthird.1], hthird.2⟩

theorem readOperand (o : Operand) : (readOperand o t).1 = (readOperand o s).1 ∧
    SameButLog (readOperand o s).2 (readOperand o t).2 := by
  cases o with
  | imm v => exact ⟨rfl, h.emit _ _⟩
  | addr a => exact (h.emit _ _).memRead a

theorem branchTaken (d : Byte) : SameButLog (branchTaken d s) (branchTaken d t) := by
  have ht := h.ticks s.params.branchTakenTicks
  unfold Machine.branchTaken
  rw [h.params]
  simp only [ht.cpu]
  exact ht.setPC _

theorem raiseFault (code : FaultCode) (info : FaultInfo) :
    SameButLog (raiseFault code info s) (raiseFault code info t) := by
  unfold Machine.raiseFault
  rw [h.cpu, h.clk]
  exact (h.emit _ _).setFault _

omit h

theorem fetchBytes (h : SameButLog s t) (n : Nat) : (fetchBytes n t).1 = (fetchBytes n s).1 ∧
    SameButLog (fetchBytes n s).2 (fetchBytes n t).2 := by
  induction n generalizing s t with
  | zero => exact ⟨rfl, h⟩
  | succ n ih =>
    have hop := h.fetchByte
    have hrest := ih hop.2
    exact ⟨congrArg₂ List.cons hop.1 hrest.1, hrest.2⟩

theorem copyBlock (h : SameButLog s t) (n : Nat) (src dst : Word) :
    SameButLog (copyBlock n src dst s) (copyBlock n src dst t) := by
  induction n generalizing s t src dst with
  | zero => exact h
  | succ n ih =>
    have hr := h.memRead src
    simp only [Machine.copyBlock, hr.1]
    exact ih (hr.2.memWrite dst _) _ _

/-! ## The handlers -/

theorem tiiCopied (h : SameButLog s t) (src dst len : Word) :
    SameButLog (tiiCopied src dst len s) (tiiCopied src dst len t) := h.pushYAX.copyBlock _ _ _

theorem exec (h : SameButLog s t) (i : Instr) : quietOutcome (exec i t) = quietOutcome (exec i s) := by
  have next {u v : State} (huv : SameButLog u v) : quietOutcome (.next v) = quietOutcome (.next u) :=
    congrArg Host.Outcome.next huv.quiet
  rcases instr_kinds s i with ⟨o, ho⟩ | ⟨a, ha⟩ | ⟨c, hc⟩ | ⟨a, rfl⟩ | rfl | ⟨src, dst, len, rfl⟩ | ⟨d, rfl⟩ | ⟨d, rfl⟩
  · obtain ⟨f, hexec, -⟩ := exec_reads ho
    have hr := h.readOperand o
    rw [hexec s rfl, hexec t h.cpu, ← readOperand_value, ← readOperand_value, hr.1]
    exact next (hr.2.setCpu _)
  · obtain ⟨v, hexec⟩ := exec_stores ha
    rw [hexec s rfl, hexec t h.cpu]
    exact next ((h.memRead a).2.memWrite a v)
  · have hd : SameButLog (dummyImplied s) (dummyImplied t) := by
      unfold dummyImplied
      rw [h.cpu]
      exact (h.memRead _).2
    rw [exec_implied hc, exec_implied (by rwa [h.params, h.cpu])]
    exact next (hd.setCpu c)
  · rw [exec_jsrAbs, exec_jsrAbs, h.cpu]
    exact next ((h.pushReturn _).setPC a)
  · rw [exec_rts, exec_rts, h.popReturn.1]
    exact next (h.popReturn.2.setPC _)
  · by_cases hlen : len = 0#16
    · subst hlen
      rw [exec_tii_zero, exec_tii_zero]
      exact congrArg (fun u => Host.Outcome.refused (Refusal.tiiZeroLength u)) (h.setRefused _).quiet
    · have hp := (h.tiiCopied src dst len).popXAY
      by_cases hpop : (Machine.popXAY (Machine.tiiCopied src dst len s)).1 = (s.cpu.x, s.cpu.a, s.cpu.y)
      · rw [exec_tii_completes hlen hpop, exec_tii_completes hlen (by rw [hp.1, h.cpu, hpop]), h.cpu]
        exact next ((hp.2.setCpu _).emit _ _)
      · rw [exec_tii_clobbered hlen hpop, exec_tii_clobbered hlen (by rwa [hp.1, h.cpu])]
        exact congrArg (fun u => Host.Outcome.refused (Refusal.tiiStackClobber u)) (hp.2.setRefused _).quiet
  · rw [exec_beqRel, exec_beqRel, h.cpu]
    split
    · exact next (h.branchTaken d)
    · exact next h
  · exact next (h.branchTaken d)

/-! ## The step around the handler -/

theorem pollLines (h : SameButLog s t) : SameButLog (pollLines s) (pollLines t) := by
  unfold Machine.pollLines
  rw [h.params, h.irq, h.draws]
  split
  · exact h
  · exact (h.setIrq _).countDraw

theorem readWord (h : SameButLog s t) (la : Word) :
    (readWord la t).1 = (readWord la s).1 ∧ SameButLog (readWord la s).2 (readWord la t).2 := by
  have hlo := h.memRead la
  have hhi := hlo.2.memRead (la + 1#16)
  exact ⟨by simp only [Machine.readWord, hlo.1, hhi.1], hhi.2⟩

theorem takeInterrupt (h : SameButLog s t) (l : Line) : SameButLog (takeInterrupt l s) (takeInterrupt l t) := by
  have hpushed : SameButLog (entryPushed s) (entryPushed t) := by
    rw [entryPushed, entryPushed, h.cpu]
    exact (h.pushReturn _).push _
  have hmasked : SameButLog (entryMasked s) (entryMasked t) := by
    rw [entryMasked, entryMasked, hpushed.cpu, h.cpu]
    exact hpushed.setCpu _
  have hword := hmasked.readWord l.vector
  rw [takeInterrupt_eq, takeInterrupt_eq, hword.1, hword.2.clk]
  exact (hword.2.setPC _).setClk _

theorem settle (h : SameButLog s t) : quietOutcome (settle t) = quietOutcome (settle s) := by
  unfold Machine.settle
  rw [h.fault]
  split
  · exact congrArg Host.Outcome.next h.quiet
  next r _ =>
    obtain ⟨code, info, pc, counter⟩ := r
    cases code <;> simp only [quietOutcome, Fault.ofCode, Fault.quiet, h.quiet]

theorem finishInstr (h : SameButLog s t) (row : Row) : SameButLog (finishInstr row s) (finishInstr row t) := by
  have hclk : SameButLog (s.setClk { s.clk with extra := 0 }) (t.setClk { t.clk with extra := 0 }) := by
    rw [h.clk]
    exact h.setClk _
  have hconsumed : consumedTicks t = consumedTicks s := by rw [consumedTicks, consumedTicks, h.clk, h.pre, h.extraPre]
  have hexpected : expectedTicks row t = expectedTicks row s := by rw [expectedTicks, expectedTicks, h.cpu]
  by_cases hcheck : row.ref = 0 ∨ consumedTicks s = expectedTicks row s
  · rw [finishInstr_of_no_mismatch hcheck, finishInstr_of_no_mismatch (by rwa [hconsumed, hexpected])]
    exact hclk
  · obtain ⟨href, hne⟩ := not_or.1 hcheck
    rw [finishInstr_of_mismatch href hne, finishInstr_of_mismatch href (by rwa [hconsumed, hexpected])]
    exact hclk.emit _ _

/-- A fetch in two states that differ only in their log: both find the byte unknown, or both give the same instruction. -/
theorem fetchInstr (h : SameButLog s t) :
    (∃ u v, fetchInstr s = .unknown u ∧ fetchInstr t = .unknown v ∧ SameButLog u v) ∨
    (∃ row i u v, fetchInstr s = .got row i u ∧ fetchInstr t = .got row i v ∧ SameButLog u v) := by
  have hop := h.fetchByte
  have hclear : SameButLog (clearT (Machine.fetchByte s).2) (clearT (Machine.fetchByte t).2) := by
    rw [clearT, clearT, hop.2.cpu]
    exact hop.2.setCpu _
  rcases fetchInstr_cases s with ⟨hs, hfs⟩ | ⟨row, i, hs, hbs, hfs⟩ <;>
    rcases fetchInstr_cases t with ⟨ht, hft⟩ | ⟨row', i', ht, hbt, hft⟩ <;>
    rw [h.params, hop.1, hs] at ht
  · rw [hop.1] at hft
    exact .inl ⟨_, _, hfs, hft, hop.2.raiseFault _ _⟩
  · cases ht
  · cases ht
  · cases ht
    have hargs := hclear.fetchBytes row.mode.operandBytes
    rw [hargs.1, hbs] at hbt
    cases hbt
    exact .inr ⟨row, i, _, _, hfs, hft, hargs.2⟩

end SameButLog

theorem complete_quiet (row : Row) {o o' : Host.Outcome State Fault Refusal} (h : quietOutcome o' = quietOutcome o) :
    quietOutcome (complete row o') = quietOutcome (complete row o) := by
  cases o <;> cases o' <;> simp only [quietOutcome, reduceCtorEq, Host.Outcome.next.injEq] at h
  case next.next => exact ((SameButLog.of_quiet h).finishInstr row).settle
  all_goals exact h

/-! ## The step -/

theorem SameButLog.running_iff {s t : State} (h : SameButLog s t) : t.Running ↔ s.Running := by
  rw [State.Running, State.Running, h.clk, h.fault, h.refused]

theorem SameButLog.step_stopped {s t : State} (h : SameButLog s t) (hstop : ¬ s.Running) :
    quietOutcome (step t) = quietOutcome (step s) := by
  rcases step_of_not_running hstop with ⟨hs, hstep⟩ | ⟨hs, hf, hstep⟩ | ⟨hs, hf, hr, hstep⟩
  · rw [hstep, step_of_halted (by rwa [h.clk])]
    exact congrArg (fun u => Host.Outcome.fault (Fault.halted u)) h.quiet
  · rw [hstep, step_of_faulted (by rwa [h.clk]) (by rwa [h.fault])]
    exact congrArg (fun u => Host.Outcome.fault (Fault.alreadyFaulted u)) h.quiet
  · rw [hstep, step_of_refused (by rwa [h.clk]) (by rwa [h.fault]) (by rwa [h.refused])]
    exact congrArg (fun u => Host.Outcome.refused (Refusal.alreadyRefused u)) h.quiet

theorem SameButLog.step {s t : State} (h : SameButLog s t) : quietOutcome (step t) = quietOutcome (step s) := by
  by_cases hrun : s.Running
  case neg => exact h.step_stopped hrun
  have hrun' := h.running_iff.2 hrun
  have hpoll := h.pollLines
  have hdue : dueLine (Machine.pollLines t) = dueLine (Machine.pollLines s) := by
    rw [dueLine, dueLine, hpoll.params, hpoll.cpu, hpoll.irq]
  cases hl : dueLine (Machine.pollLines s) with
  | some l =>
    rw [step_of_due hrun hl, step_of_due hrun' (hdue.trans hl)]
    exact congrArg Host.Outcome.next (hpoll.takeInterrupt l).quiet
  | none =>
    have hbegin : SameButLog (beginInstr (Machine.pollLines s)) (beginInstr (Machine.pollLines t)) := by
      rw [beginInstr, beginInstr, hpoll.cpu, hpoll.clk]
      exact (hpoll.setCpu _).setPre _ _
    rcases hbegin.fetchInstr with ⟨u, v, hs, ht, huv⟩ | ⟨row, i, u, v, hs, ht, huv⟩
    · rw [step_of_unknown hrun hl hs, step_of_unknown hrun' (hdue.trans hl) ht]
      exact congrArg (fun w => Host.Outcome.fault (Fault.unknownOpcode w)) huv.quiet
    · rw [step_of_got hrun hl hs, step_of_got hrun' (hdue.trans hl) ht]
      exact complete_quiet row (huv.exec i)

/-! ## The obligations -/

/-- Settles O60: the two states are alike but for their logs, and a step keeps them so. -/
theorem diagnosticsDoNotInfluenceExecution : Obligations.DiagnosticsDoNotInfluenceExecution :=
  fun s log => (SameButLog.withEvents s log).step

theorem pollLines_setCpu (s : State) (c : Cpu) : pollLines (s.setCpu c) = (pollLines s).setCpu c := by
  unfold pollLines
  rw [State.setCpu_params]
  split <;> rfl

/-- Settles O59: step 1 overwrites InstrPC before anything looks at it. -/
theorem instrPcDoesNotInfluenceExecution : Obligations.InstrPcDoesNotInfluenceExecution := by
  intro s w hrun hdue
  have hbegin : beginInstr (pollLines (s.setCpu { s.cpu with instrPC := w })) = beginInstr (pollLines s) := by
    rw [pollLines_setCpu, beginInstr, beginInstr, pollLines_cpu]
    rfl
  have hdue' : dueLine (pollLines (s.setCpu { s.cpu with instrPC := w })) = none := by
    rw [← hdue, pollLines_setCpu, dueLine, dueLine, pollLines_cpu]
    rfl
  have hrun' : (s.setCpu { s.cpu with instrPC := w }).Running := hrun
  cases hf : fetchInstr (beginInstr (pollLines s)) with
  | unknown u => exact (step_of_unknown hrun' hdue' (hbegin ▸ hf)).trans (step_of_unknown hrun hdue hf).symm
  | got row i u => exact (step_of_got hrun' hdue' (hbegin ▸ hf)).trans (step_of_got hrun hdue hf).symm

end Sys2Proof.Machine
end

section
/-! PROOFS. Accesses and memory (spec/20_memory.md R56 to R64): the order and the cost of an access, and what a write leaves
in memory. -/

namespace Sys2Proof.Machine

variable {s : State}

/-! ## Bank 0xFF -/

theorem regionOf_eq_controlPage_iff (bank : Byte) : regionOf bank = .controlPage ↔ bank = 0xFF#8 := by
  constructor
  · intro h
    unfold regionOf at h
    split_ifs at h with _ _ hbank
    exact BitVec.eq_of_toNat_eq hbank
  · rintro rfl
    rfl

theorem waitCost_eq (s : State) (la : Word) :
    waitCost s la = if bankOf (mapAddress s.cpu.mpr la) = 0xFF#8 then s.params.cpWaitTicks else 0 := by
  simp only [waitCost, regionAt, regionOf_eq_controlPage_iff]

theorem accessTicks_cases (fast : Bool) : accessTicks fast = if fast then 3 else 12 := rfl

theorem controlPage_write_value (off : BankOffset) (v : Byte) (s : State) : (controlPage .write off v s).1 = 0#8 := by
  unfold controlPage
  split <;> simp only [extAccess, unimplemented, timerAccess, irqAccess]
  all_goals split_ifs <;> rfl

theorem dispatch_write_value (pa : PhysAddr) (v : Byte) (s : State) : (dispatch .write pa v s).1 = 0#8 := by
  cases hregion : regionOf (bankOf pa) with
  | rom => rw [dispatch_write_rom v s hregion]
  | openBus => rw [dispatch_write_openBus v s hregion]
  | ram => rw [dispatch_write_ram v s hregion]
  | controlPage => rw [dispatch_controlPage v s .write hregion, controlPage_write_value]

/-- Settles O7: the wait and the dispatch by the region, the ticks by the speed. -/
theorem accessWaitsThenDispatchesThenTicks : Obligations.AccessWaitsThenDispatchesThenTicks := by
  intro k la v s
  refine ⟨fun hbank => ?_, fun hbank => ?_, dispatch_write_value _ _ _⟩
  · have hpage := (regionOf_eq_controlPage_iff _).2 hbank
    have hwait : accessWait (mapAddress s.cpu.mpr la) s = waitTicks s.params.cpWaitTicks s := if_pos hpage
    rw [access, hwait, dispatch_controlPage v _ k hpage, offsetOf_mapAddress, accessTicks_cases]
  · have hregion : regionAt s la ≠ .controlPage := mt (regionOf_eq_controlPage_iff _).1 hbank
    rw [access_of_ne_controlPage k v hregion, accessTicks_cases]

/-- Settles O8: `access_clk`, with the ticks counted or not counted. -/
theorem accessCostsItsTicks : Obligations.AccessCostsItsTicks := by
  intro k la v s
  rw [access_clk, accessCost, waitCost_eq, accessTicks_cases, Nat.add_comm _ (if s.cpu.fast then 3 else 12)]
  refine ⟨fun hsupp => ?_, fun hsupp => ?_⟩
  · simp only [counted, if_pos hsupp, Nat.add_assoc]
  · simp only [counted, if_neg hsupp, Nat.add_zero]

/-! ## RAM -/

theorem ramKey_inj {o p : BankOffset} : ramKey o = ramKey p ↔ o = p := by
  simp only [ramKey, Nat.add_left_cancel_iff, BitVec.toNat_inj]

theorem memRead_ram {la : Word} (h : regionAt s la = .ram) : (memRead la s).1 = s.mem.read (ramKey (windowOffset la)) := by
  rw [memRead, access_of_ne_controlPage _ _ (by simp [h]), dispatch_read_ram _ _ h, offsetOf_mapAddress, ramKey]

theorem storedKey_ram {la : Word} (h : regionAt s la = .ram) : storedKey s la = some (ramKey (windowOffset la)) := by
  rw [storedKey, if_pos h, offsetAt_eq]

/-- Settles O9: every mirror reaches the byte by its offset. -/
theorem ramReadsBackThroughEveryMirror : Obligations.RamReadsBackThroughEveryMirror := by
  intro la la' v s hla hla'
  have hla'' : regionAt (memWrite la v s) la' = .ram := by rw [regionAt_congr (s := s) (by simp), hla']
  rw [memRead_ram hla'', memRead_ram hla', memWrite_read, storedKey_ram hla]
  simp only [Option.some.injEq, ramKey_inj, eq_comm]

/-- Settles O11: what a write keeps, and the one byte it stores. -/
theorem memoryWritesKeepTheCanonicalForm : Obligations.MemoryWritesKeepTheCanonicalForm :=
  ⟨fun la v s hwf hspace => ⟨(memWrite_keeps s la v).wf hwf, (memWrite_keeps s la v).inSpace hspace⟩,
    fun la v s k => memWrite_read s la v k⟩

end Sys2Proof.Machine
end

section
/-! PROOFS. The control page (spec/20_memory.md R65 to R72; spec/60_exceptions.md R232 to R242): one equation per
sub-device. -/

namespace Sys2Proof.Machine

variable {off : BankOffset} (k : Access) (v : Byte) (s : State)

/-! ## The sub-devices -/

theorem controlPage_vdc (h : off.toNat / 1024 = 0) :
    controlPage k off v s = extAccess k .vdc (off.toNat % 4) v (latchWrite k off v s) := by
  simp only [controlPage, h, subDevice, SubDevice.period]

theorem controlPage_vce (h : off.toNat / 1024 = 1) :
    controlPage k off v s = extAccess k .vce (off.toNat % 8) v (latchWrite k off v s) := by
  simp only [controlPage, h, subDevice, SubDevice.period]

theorem controlPage_timer (h : off.toNat / 1024 = 3) :
    controlPage k off v s = timerAccess k (off.toNat % 2) v (latchWrite k off v s) := by
  simp only [controlPage, h, subDevice, SubDevice.period]

theorem controlPage_irqCtrl (h : off.toNat / 1024 = 5) :
    controlPage k off v s = irqAccess k (off.toNat % 4) v (latchWrite k off v s) := by
  simp only [controlPage, h, subDevice, SubDevice.period]

theorem controlPage_unimplemented {sub : Nat} (h : off.toNat / 1024 = sub)
    (hsub : sub = 2 ∨ sub = 4 ∨ sub = 6 ∨ sub = 7) :
    controlPage k off v s = unimplemented k sub (off.toNat % 1024) (latchWrite k off v s) := by
  rcases hsub with rfl | rfl | rfl | rfl <;> simp only [controlPage, h, subDevice, SubDevice.period]

theorem irqAccess_unimplemented {w : Nat} (h : w < 2) : irqAccess k w v s = unimplemented k 5 w s := by
  unfold irqAccess
  rw [if_neg (by omega), if_neg (by omega)]

/-! ## The latch -/

theorem latchWrite_read : latchWrite .read off v s = s := by simp [latchWrite]

theorem inLatchRange_iff (off : BankOffset) : inLatchRange off = true ↔ 0x0800 ≤ off.toNat ∧ off.toNat ≤ 0x17FF := by
  simp [inLatchRange]

theorem latchWrite_write_eq : latchWrite .write off v s =
    if 0x0800 ≤ off.toNat ∧ off.toNat ≤ 0x17FF then s.setLatch v else s := by
  simp only [latchWrite_write, inLatchRange_iff]

theorem latchWrite_inside (h : 2 ≤ off.toNat / 1024 ∧ off.toNat / 1024 ≤ 5) : latchWrite .write off v s = s.setLatch v := by
  rw [latchWrite_write_eq, if_pos (by omega)]

theorem latchWrite_outside (h : off.toNat / 1024 < 2) : latchWrite .write off v s = s := by
  rw [latchWrite_write_eq, if_neg (by omega)]

/-! ## The obligations -/

/-- Settles O12: the latch after a write, and after a read. -/
theorem latchTakesWritesInItsRange : Obligations.LatchTakesWritesInItsRange := by
  intro off v s
  refine ⟨?_, (controlPage_read_state s off v).2.2⟩
  simp only [(controlPage_write_devices s off v).1, inLatchRange_iff]

/-- Settles O13: the unimplemented sub-devices, and the controller's offsets 0 and 1. -/
theorem unimplementedRegionsReadFF : Obligations.UnimplementedRegionsReadFF := by
  intro off v s sub w h
  have hpage (k : Access) : controlPage k off v s = unimplemented k sub w (latchWrite k off v s) := by
    rcases h with ⟨hoff, hsub, rfl⟩ | ⟨hoff, rfl, rfl, hw⟩
    · exact controlPage_unimplemented k v s hoff hsub
    · rw [controlPage_irqCtrl k v s hoff, irqAccess_unimplemented k v _ hw]
  rw [hpage, hpage, latchWrite_read, latchWrite_write_eq]
  exact ⟨rfl, rfl⟩

/-- Settles O14: the two external devices, off the latch's range. -/
theorem externalAccessesAreRecorded : Obligations.ExternalAccessesAreRecorded := by
  intro off v s
  refine ⟨fun hvdc => ?_, fun hvce => ?_⟩
  · rw [controlPage_vdc .read v s hvdc, controlPage_vdc .write v s hvdc, latchWrite_read,
      latchWrite_outside v s (by omega)]
    exact ⟨rfl, rfl⟩
  · rw [controlPage_vce .read v s hvce, controlPage_vce .write v s hvce, latchWrite_read,
      latchWrite_outside v s (by omega)]
    exact ⟨rfl, rfl⟩

/-- Settles O15: the timer's two registers, in the latch's range. -/
theorem timerRegisters : Obligations.TimerRegisters := by
  intro off v s h
  rw [controlPage_timer .read v s h, controlPage_timer .write v s h, latchWrite_read,
    latchWrite_inside v s (by omega)]
  refine ⟨fun heven => ?_, fun hodd => ?_⟩
  · rw [heven]
    exact ⟨rfl, rfl⟩
  · rw [hodd]
    exact ⟨rfl, rfl⟩

theorem setWidth_three_and_seven (v : Byte) : (v &&& 0x07#8).setWidth 3 = v.setWidth 3 := by
  rw [BitVec.setWidth_and]
  exact BitVec.and_allOnes

/-- Settles O16: the controller's two registers, in the latch's range. -/
theorem interruptControllerRegisters : Obligations.InterruptControllerRegisters := by
  intro off v s h
  rw [controlPage_irqCtrl .read v s h, controlPage_irqCtrl .write v s h, latchWrite_read,
    latchWrite_inside v s (by omega), setWidth_three_and_seven]
  refine ⟨fun henabled => ?_, fun hpending => ?_⟩
  · rw [henabled]
    exact ⟨rfl, rfl⟩
  · rw [hpending]
    exact ⟨rfl, rfl⟩

end Sys2Proof.Machine
end

section
/-! PROOFS. Time (spec/20_memory.md R50, R52; spec/60_exceptions.md R230, R231, R235): the prescaler's phase within a
quantum, and the timer's period. -/

namespace Sys2Proof.Machine

variable {s : State}

/-! ## A clock that stands still -/

theorem tick_suppressed (h : s.clk.suppress ≠ 0) : tick s = s := if_neg h

theorem ticks_suppressed (n : Nat) (h : s.clk.suppress ≠ 0) : ticks n s = s := by
  induction n with
  | zero => rfl
  | succ n ih => rw [ticks_succ, tick_suppressed h, ih]

theorem tick_eq_cycle (hsupp : s.clk.suppress = 0) :
    tick s = cycle (s.setClk { s.clk with counter := s.clk.counter + 1 }) := if_pos hsupp

theorem cycle_disabled (hoff : s.tmr.enabled = false) : cycle s = s := if_neg (by simp [hoff])

theorem tick_disabled (hsupp : s.clk.suppress = 0) (hoff : s.tmr.enabled = false) :
    tick s = s.setClk { s.clk with counter := s.clk.counter + 1 } := by
  rw [tick_eq_cycle hsupp, cycle_disabled (by exact hoff)]

theorem ticks_disabled (n : Nat) (hsupp : s.clk.suppress = 0) (hoff : s.tmr.enabled = false) :
    ticks n s = s.setClk { s.clk with counter := s.clk.counter + n } := by
  induction n generalizing s with
  | zero => rfl
  | succ n ih =>
    rw [ticks_succ, ih (by rw [tick_disabled hsupp hoff]; exact hsupp) (by rw [tick_disabled hsupp hoff]; exact hoff),
      tick_disabled hsupp hoff]
    simp only [State.setClk, Nat.add_assoc, Nat.add_comm 1 n]

/-- Settles O20: the disabled timer step by step, and the suppressed Clock by the rule of its ticks. -/
theorem disabledTimerAndSuppressedClockStandStill : Obligations.DisabledTimerAndSuppressedClockStandStill :=
  fun n _ => ⟨ticks_disabled n, ticks_suppressed n⟩

/-! ## One timer step -/

theorem timerStep_tmr (s : State) : (timerStep s).tmr =
    { s.tmr with current := if s.tmr.current = 0 then s.tmr.reload else s.tmr.current - 1 } := by
  by_cases h : s.tmr.current = 0 <;> simp [timerStep, h]

theorem timerStep_events (s : State) : (timerStep s).events = .diag .info .timerTick :: s.events := by
  by_cases h : s.tmr.current = 0 <;> simp [timerStep, h]

/-- Settles O17: the counter at 0, and above it. -/
theorem timerStepReloadsAtZero : Obligations.TimerStepReloadsAtZero := by
  intro s
  refine ⟨fun hzero => ⟨by rw [timerStep_tmr, if_pos hzero], ?_, ?_⟩,
    fun hpos => ⟨by rw [timerStep_tmr, if_neg hpos], ?_⟩, timerStep_events s⟩
  · simp only [timerStep, hzero, if_true, diag_irq, State.setIrq_irq]
    split <;> rfl
  · simp only [timerStep, hzero, if_true, diag_irq, State.setIrq_irq]
    split <;> rfl
  · simp [timerStep, hpos]

/-! ## The phase within a quantum -/

/-- The phase of a running prescaler within its quantum of 3072 ticks (R230). -/
def Timer.phase (t : Timer) : Nat := 3 * t.coarse + t.acc

/-- The timer at a phase of its quantum. -/
def Timer.atPhase (t : Timer) (n : Nat) : Timer := { t with acc := n % 3, coarse := n / 3 }

theorem cycle_inside (hon : s.tmr.enabled = true) (hacc : s.tmr.acc < 3) (hphase : s.tmr.phase + 1 < 3072) :
    cycle s = s.setTmr (s.tmr.atPhase (s.tmr.phase + 1)) := by
  simp only [Timer.phase, Timer.atPhase] at *
  by_cases hcarry : s.tmr.acc + 1 = 3
  · have hmod : (3 * s.tmr.coarse + s.tmr.acc + 1) % 3 = 0 := by omega
    have hdiv : (3 * s.tmr.coarse + s.tmr.acc + 1) / 3 = s.tmr.coarse + 1 := by omega
    have hquantum : s.tmr.coarse + 1 ≠ 1024 := by omega
    simp only [cycle, hon, if_true, Config.timerPrescale, hcarry, Config.timerQuantum, hquantum, if_false, hmod, hdiv]
  · have hmod : (3 * s.tmr.coarse + s.tmr.acc + 1) % 3 = s.tmr.acc + 1 := by omega
    have hdiv : (3 * s.tmr.coarse + s.tmr.acc + 1) / 3 = s.tmr.coarse := by omega
    simp only [cycle, hon, if_true, Config.timerPrescale, hcarry, if_false, hmod, hdiv]

theorem cycle_at_end (hon : s.tmr.enabled = true) (hacc : s.tmr.acc = 2) (hcoarse : s.tmr.coarse = 1023) :
    cycle s = timerStep (s.setTmr { s.tmr with acc := 0, coarse := 0 }) := by
  simp only [cycle, hon, if_true, Config.timerPrescale, hacc, Config.timerQuantum, hcoarse]

/-- An unsuppressed tick of a running timer inside a quantum moves the phase by one. -/
theorem tick_inside (hsupp : s.clk.suppress = 0) (hon : s.tmr.enabled = true) (hacc : s.tmr.acc < 3)
    (hphase : s.tmr.phase + 1 < 3072) : (tick s).tmr = s.tmr.atPhase (s.tmr.phase + 1) ∧
      (tick s).irq = s.irq ∧ (tick s).events = s.events := by
  rw [tick_eq_cycle hsupp, cycle_inside (by exact hon) (by exact hacc) (by exact hphase)]
  exact ⟨rfl, rfl, rfl⟩

/-- The tick that ends the quantum makes the timer step. -/
theorem tick_at_end (hsupp : s.clk.suppress = 0) (hon : s.tmr.enabled = true) (hacc : s.tmr.acc = 2)
    (hcoarse : s.tmr.coarse = 1023) :
    (tick s).tmr = { s.tmr with
      acc := 0
      coarse := 0
      current := if s.tmr.current = 0 then s.tmr.reload else s.tmr.current - 1 } ∧
    (tick s).events = .diag .info .timerTick :: s.events := by
  rw [tick_eq_cycle hsupp, cycle_at_end (by exact hon) (by exact hacc) (by exact hcoarse), timerStep_tmr,
    timerStep_events]
  exact ⟨rfl, rfl⟩

theorem ticks_succ_last (n : Nat) (s : State) : ticks (n + 1) s = tick (ticks n s) := ticks_add s n 1

theorem Timer.atPhase_phase {t : Timer} (h : t.acc < 3) : t.atPhase t.phase = t := by
  obtain ⟨reload, current, enabled, acc, coarse⟩ := t
  simp only [Timer.atPhase, Timer.phase] at *
  congr 1 <;> omega

theorem ticks_inside (n : Nat) (hsupp : s.clk.suppress = 0) (hon : s.tmr.enabled = true) (hacc : s.tmr.acc < 3)
    (hphase : s.tmr.phase + n < 3072) : (ticks n s).tmr = s.tmr.atPhase (s.tmr.phase + n) ∧
      (ticks n s).irq = s.irq ∧ (ticks n s).events = s.events := by
  induction n with
  | zero => exact ⟨(Timer.atPhase_phase hacc).symm, rfl, rfl⟩
  | succ n ih =>
    obtain ⟨htmr, hirq, hevents⟩ := ih (by omega)
    have hphase' : (ticks n s).tmr.phase = s.tmr.phase + n := by
      rw [htmr]
      simp only [Timer.atPhase, Timer.phase]
      omega
    have hlast := tick_inside (s := ticks n s) (by simpa using hsupp) (by rw [htmr]; exact hon)
      (by rw [htmr]; exact Nat.mod_lt _ (by omega)) (by omega)
    rw [hphase', htmr, hirq, hevents] at hlast
    rw [ticks_succ_last]
    exact hlast

/-- The ticks up to the end of the quantum. -/
theorem ticks_to_end (n : Nat) (hsupp : s.clk.suppress = 0) (hon : s.tmr.enabled = true) (hacc : s.tmr.acc < 3)
    (hcoarse : s.tmr.coarse < 1024) (hphase : s.tmr.phase + n = 3072) :
    (ticks n s).tmr = { s.tmr with
      acc := 0
      coarse := 0
      current := if s.tmr.current = 0 then s.tmr.reload else s.tmr.current - 1 } ∧
    (ticks n s).events = .diag .info .timerTick :: s.events := by
  obtain ⟨m, rfl⟩ : ∃ m, n = m + 1 := ⟨n - 1, by unfold Timer.phase at hphase; omega⟩
  obtain ⟨htmr, -, hevents⟩ := ticks_inside m hsupp hon hacc (by omega)
  have hm : s.tmr.phase + m = 3071 := by omega
  rw [hm] at htmr
  have hlast := tick_at_end (s := ticks m s) (by simpa using hsupp) (by rw [htmr]; exact hon) (by rw [htmr]; rfl)
    (by rw [htmr]; rfl)
  rw [htmr, hevents] at hlast
  rw [ticks_succ_last]
  exact hlast

/-- Settles O18: the phase runs through the quantum, and the tick at its end steps. -/
theorem timerStepsOncePerQuantum : Obligations.TimerStepsOncePerQuantum :=
  fun n _ hsupp hon hacc hcoarse => ⟨ticks_inside n hsupp hon hacc, ticks_to_end n hsupp hon hacc hcoarse⟩

/-! ## The period -/

theorem Timer.startOfQuantum_eq {t : Timer} (c : Nat) (hacc : t.acc = 0) (hcoarse : t.coarse = 0) :
    { t with acc := 0, coarse := 0, current := c } = { t with current := c } := by
  obtain ⟨reload, current, enabled, acc, coarse⟩ := t
  simp only at hacc hcoarse
  rw [hacc, hcoarse]

/-- A whole quantum is one timer step. -/
theorem ticks_quantum (hsupp : s.clk.suppress = 0) (hon : s.tmr.enabled = true) (hacc : s.tmr.acc = 0)
    (hcoarse : s.tmr.coarse = 0) : (ticks 3072 s).tmr =
      { s.tmr with current := if s.tmr.current = 0 then s.tmr.reload else s.tmr.current - 1 } := by
  have hphase : s.tmr.phase + 3072 = 3072 := by simp [Timer.phase, hacc, hcoarse]
  rw [(ticks_to_end 3072 hsupp hon (by omega) (by omega) hphase).1, Timer.startOfQuantum_eq _ hacc hcoarse]

/-- Quanta count the timer down from its reload value. -/
theorem ticks_quanta (k : Nat) (hsupp : s.clk.suppress = 0) (hon : s.tmr.enabled = true) (hacc : s.tmr.acc = 0)
    (hcoarse : s.tmr.coarse = 0) (hcurrent : s.tmr.current = s.tmr.reload) (hk : k ≤ s.tmr.reload) :
    (ticks (k * 3072) s).tmr = { s.tmr with current := s.tmr.reload - k } := by
  induction k with
  | zero => rw [Nat.zero_mul, ticks_zero, Nat.sub_zero, ← hcurrent]
  | succ k ih =>
    have hprev := ih (by omega)
    have hlast := ticks_quantum (s := ticks (k * 3072) s) (by simpa using hsupp) (by rw [hprev]; exact hon)
      (by rw [hprev]; exact hacc) (by rw [hprev]; exact hcoarse)
    rw [Nat.succ_mul, ticks_add, hlast, hprev]
    simp only [if_neg (show s.tmr.reload - k ≠ 0 by omega), Nat.sub_sub]

/-- Settles O19: the reload value's count of quanta reaches 0, and one more reloads. -/
theorem timerPeriodIsReloadPlusOneQuanta : Obligations.TimerPeriodIsReloadPlusOneQuanta := by
  intro s hsupp hon hacc hcoarse hcurrent
  have hdown := ticks_quanta s.tmr.reload hsupp hon hacc hcoarse hcurrent (le_refl _)
  have hlast := ticks_quantum (s := ticks (s.tmr.reload * 3072) s) (by simpa using hsupp) (by rw [hdown]; exact hon)
    (by rw [hdown]; exact hacc) (by rw [hdown]; exact hcoarse)
  rw [Nat.succ_mul, ticks_add, hlast, hdown]
  simp only [Nat.sub_self, if_true]
  change { s.tmr with current := s.tmr.reload } = s.tmr
  rw [← hcurrent]

end Sys2Proof.Machine
end

section
/-! PROOFS. Loads, compare, bank select, branches and implied instructions (spec/41_load_store.md, spec/42_bank_select.md,
spec/45_compare.md, spec/46_branch.md, spec/47_flag_mode.md). -/

namespace Sys2Proof.Machine

variable {s : State}

/-! ## Instructions that read an operand -/

/-- Settles O22: the frame of a read, and SetNZ of the value that the form's operand gives. -/
theorem ldaLoadsItsOperand : Obligations.LdaLoadsItsOperand := by
  intro i o s h
  refine ⟨_, exec_lda s h, ?_, ((readOperand_frame o s).setCpu _).setCpu _⟩
  simp [setNZ, Flags.setNZ]

/-- Settles O23: the frame of a read, and SetNZ of the value that the form's operand gives. -/
theorem ldxLoadsItsOperand : Obligations.LdxLoadsItsOperand := by
  intro i o s h
  refine ⟨_, exec_ldx s h, ?_, ((readOperand_frame o s).setCpu _).setCpu _⟩
  simp [setNZ, Flags.setNZ]

/-- Settles O26: the frame of a read, and the three flags of the comparison with the form's operand. -/
theorem cmpSetsCarryZeroNegative : Obligations.CmpSetsCarryZeroNegative := by
  intro i o s h
  refine ⟨_, exec_cmp s h, ?_, (readOperand_frame o s).setCpu _⟩
  simp [Flags.compare]

theorem Flags.compare_c_iff (p : Flags) (a v : Byte) : (p.compare a v).c = true ↔ v.toNat ≤ a.toNat := decide_eq_true_iff

theorem Flags.compare_z_iff (p : Flags) (a v : Byte) : (p.compare a v).z = true ↔ a = v := beq_iff_eq

/-- Settles O27: equal bytes borrow nothing, and their difference is 0. -/
theorem compareFlagTriplesExcluded : Obligations.CompareFlagTriplesExcluded := by
  intro p a v
  refine ⟨fun ⟨hc, hz⟩ => ?_, fun ⟨_, hz, hn⟩ => ?_, ?_, ?_⟩
  · have hav := (p.compare_z_iff a v).1 hz
    have hcarry : (p.compare a v).c = true := (p.compare_c_iff a v).2 (by rw [hav])
    rw [hcarry] at hc
    cases hc
  · have hav := (p.compare_z_iff a v).1 hz
    rw [hav, Flags.compare, BitVec.sub_self] at hn
    cases hn
  · rw [p.compare_z_iff, BitVec.sub_eq_iff_eq_add, BitVec.zero_add]
  · have ha := a.isLt
    have hv := v.isLt
    rw [p.compare_c_iff, BitVec.toNat_sub]
    omega

/-- Settles O41: the event is appended first, and the access only adds to the log. -/
theorem readingAnOperandLogsItsSource : Obligations.ReadingAnOperandLogsItsSource := by
  intro i o s t h hexec
  obtain ⟨f, hreads, -⟩ := exec_reads (s := s) h
  rw [hreads s rfl] at hexec
  cases hexec
  cases o with
  | imm v => exact ⟨[.diag .info (.operandSource (.imm v))], rfl, List.mem_singleton.2 rfl⟩
  | addr a =>
    obtain ⟨l, hl, -⟩ := access_emits (diag .info (.operandSource (.addr a)) s) .read a 0#8
    refine ⟨l ++ [.diag .info (.operandSource (.addr a))], ?_, by simp⟩
    rw [List.append_assoc]
    exact hl

/-! ## TAM -/

theorem Mprs.get_setMasked (m : Mprs) (mask v : Byte) (i : BitVec 3) :
    (m.setMasked mask v).get i = if mask.getLsbD i.toNat then v else m.get i := by
  have hi : i.toNat < 8 := i.isLt
  unfold Mprs.get
  generalize i.toNat = k at hi
  interval_cases k <;> rfl

/-- Settles O28: each MPR takes A by its own bit of the mask, and the immediate is read without an access. -/
theorem tamLoadsTheMaskedMprs : Obligations.TamLoadsTheMaskedMprs :=
  fun mask s => ⟨_, exec_tamMask mask s, Mprs.get_setMasked s.cpu.mpr mask s.cpu.a, rfl⟩

/-! ## Branches -/

theorem add_signExtend16 (pc : Word) (d : Byte) : pc + signExtend16 d = BitVec.ofInt 16 (pc.toNat + d.toInt) := by
  rw [BitVec.ofInt_add, BitVec.ofInt_natCast, BitVec.ofNat_toNat, BitVec.setWidth_eq]
  rfl

theorem branchTaken_eq (d : Byte) (s : State) : branchTaken d s = (ticks s.params.branchTakenTicks s).setCpu
    { s.cpu with pc := BitVec.ofInt 16 (s.cpu.pc.toNat + d.toInt) } := by
  simp only [branchTaken, setPC, ticks_cpu, add_signExtend16]

/-- Settles O37: both cases of Z. -/
theorem beqBranchesOnZero : Obligations.BeqBranchesOnZero := by
  intro d s
  rw [exec_beqRel, branchTaken_eq]
  exact ⟨fun hz => by rw [if_pos hz], fun hz => by rw [if_neg (by simp [hz])]⟩

/-- Settles O38: the branch of a taken BEQ, with no condition. -/
theorem braAlwaysBranches : Obligations.BraAlwaysBranches := fun d s => by rw [exec_braRel, branchTaken_eq]

/-! ## Implied instructions -/

/-- Settles O39: the dummy read, and then the change. -/
theorem impliedInstructionsMakeOneChange : Obligations.ImpliedInstructionsMakeOneChange :=
  fun _ c s h => ⟨_, exec_implied h, rfl, (dummyImplied_frame s).setCpu c⟩

end Sys2Proof.Machine
end

section
/-! PROOFS. Stores (spec/41_load_store.md R145, R146): what a write does to the devices, wherever it goes. -/

namespace Sys2Proof.Machine

variable (s : State) (la : Word) (v : Byte)

/-! ## A write and the devices -/

theorem memWrite_controlPage {s : State} {la : Word} (h : regionAt s la = .controlPage) : memWrite la v s =
    ticks (accessTicks s.cpu.fast) (controlPage .write (windowOffset la) v (waitTicks s.params.cpWaitTicks s)).2 := by
  have hwait : accessWait (mapAddress s.cpu.mpr la) s = waitTicks s.params.cpWaitTicks s := if_pos h
  rw [memWrite, access, hwait, dispatch_controlPage v _ .write h, offsetOf_mapAddress]

theorem memWrite_latch : (memWrite la v s).latch =
    if regionAt s la = .controlPage ∧ inLatchRange (offsetAt s la) = true then v else s.latch := by
  rw [offsetAt_eq]
  by_cases hpage : regionAt s la = .controlPage
  · rw [memWrite_controlPage v hpage, ticks_latch, (controlPage_write_devices _ _ _).1, waitTicks_latch]
    simp only [hpage, true_and]
  · rw [(memWrite_elapsed s la v hpage).2, if_neg (fun h => hpage h.1)]

theorem waitTicks_tmr (n : Nat) : (waitTicks n s).tmr = (ticks n s).tmr := (waitTicks_sameTime s n).tmr

theorem waitTicks_irq (n : Nat) : (waitTicks n s).irq = (ticks n s).irq := (waitTicks_sameTime s n).irq

theorem memWrite_reload : (memWrite la v s).tmr.reload =
    if reachesRegister s la 3 2 0 then (v &&& 0x7F#8).toNat + 1 else s.tmr.reload := by
  simp only [reachesRegister, offsetAt_eq]
  by_cases hpage : regionAt s la = .controlPage
  · rw [memWrite_controlPage v hpage, (ticks_reload_enabled _ _).1, (controlPage_write_devices _ _ _).2.1, waitTicks_tmr]
    simp only [hpage, true_and]
    split_ifs <;> simp only [(ticks_reload_enabled _ _).1]
  · rw [(memWrite_elapsed s la v hpage).1.tmr, (ticks_reload_enabled _ _).1, if_neg (fun h => hpage h.1)]

theorem memWrite_timerEnabled : (memWrite la v s).tmr.enabled =
    if reachesRegister s la 3 2 1 then v.getLsbD 0 else s.tmr.enabled := by
  simp only [reachesRegister, offsetAt_eq]
  by_cases hpage : regionAt s la = .controlPage
  · rw [memWrite_controlPage v hpage, (ticks_reload_enabled _ _).2, (controlPage_write_devices _ _ _).2.1, waitTicks_tmr]
    simp only [hpage, true_and]
    split_ifs <;> first | omega | simp only [(ticks_reload_enabled _ _).2]
  · rw [(memWrite_elapsed s la v hpage).1.tmr, (ticks_reload_enabled _ _).2, if_neg (fun h => hpage h.1)]

theorem memWrite_irqEnabled : (memWrite la v s).irq.enabled =
    if reachesRegister s la 5 4 2 then v.setWidth 3 else s.irq.enabled := by
  simp only [reachesRegister, offsetAt_eq]
  by_cases hpage : regionAt s la = .controlPage
  · rw [memWrite_controlPage v hpage, ticks_irqEnabled, (controlPage_write_devices _ _ _).2.2, waitTicks_irq]
    simp only [hpage, true_and]
    split_ifs <;> simp only [ticks_irqEnabled]
  · rw [(memWrite_elapsed s la v hpage).1.irq, ticks_irqEnabled, if_neg (fun h => hpage h.1)]

/-- Without delivery no tick sets a pending line. -/
theorem memWrite_pending (hnone : s.params.irqExtension = .none) : (memWrite la v s).irq.pending =
    if reachesRegister s la 5 4 3 then 0b000#3 else s.irq.pending := by
  simp only [reachesRegister, offsetAt_eq]
  by_cases hpage : regionAt s la = .controlPage
  · rw [memWrite_controlPage v hpage, ticks_pending _ _ (by simpa using hnone), (controlPage_write_devices _ _ _).2.2,
      waitTicks_irq, ticks_pending _ _ hnone]
    simp only [hpage, true_and]
    split_ifs <;> first | omega | rfl
  · rw [(memWrite_elapsed s la v hpage).1.irq, ticks_pending _ _ hnone, if_neg (fun h => hpage h.1)]

/-! ## The timer does not depend on the interrupt controller -/

theorem cycle_tmr_congr {s t : State} (htmr : t.tmr = s.tmr) : (cycle t).tmr = (cycle s).tmr := by
  unfold cycle
  rw [htmr]
  split_ifs
  · rw [timerStep_tmr, timerStep_tmr, State.setTmr_tmr, State.setTmr_tmr]
  · rfl
  · rfl
  · exact htmr

theorem tick_tmr_congr {s t : State} (hsupp : t.clk.suppress = s.clk.suppress) (htmr : t.tmr = s.tmr) :
    (tick t).tmr = (tick s).tmr := by
  unfold tick
  rw [hsupp]
  split_ifs
  · exact cycle_tmr_congr htmr
  · exact htmr

theorem ticks_tmr_congr {s t : State} (n : Nat) (hsupp : t.clk.suppress = s.clk.suppress) (htmr : t.tmr = s.tmr) :
    (ticks n t).tmr = (ticks n s).tmr := by
  induction n with
  | zero => exact htmr
  | succ n ih => rw [ticks_succ_last, ticks_succ_last, tick_tmr_congr (by simpa using hsupp) ih]

/-- A write to no register of the timer only lets the timer's time pass. -/
theorem memWrite_tmr (hreload : ¬ reachesRegister s la 3 2 0) (henable : ¬ reachesRegister s la 3 2 1) :
    (memWrite la v s).tmr = (ticks (accessCost s la) s).tmr := by
  by_cases hpage : regionAt s la = .controlPage
  · have htmr : (controlPage .write (windowOffset la) v (waitTicks s.params.cpWaitTicks s)).2.tmr =
        (ticks s.params.cpWaitTicks s).tmr := by
      simp only [reachesRegister, offsetAt_eq] at hreload henable
      rw [(controlPage_write_devices _ _ _).2.1, if_neg (fun h => hreload ⟨hpage, h⟩),
        if_neg (fun h => henable ⟨hpage, h⟩), waitTicks_tmr]
    rw [memWrite_controlPage v hpage, accessCost, waitCost, if_pos hpage, ticks_add]
    exact ticks_tmr_congr _ (by simp) htmr
  · rw [(memWrite_elapsed s la v hpage).1.tmr, accessCost, waitCost, if_neg hpage, Nat.zero_add]

/-! ## The frame of a store -/

/-- A store is its dummy read and its write (spec/40_execute_loop.md R122). -/
theorem store_frame : StoreFrame la v s (memWrite la v (memRead la s).2) := by
  have hread := memRead_frame s la
  have hregion : regionAt (memRead la s).2 la = regionAt s la := regionAt_congr (by simp) la
  have hreach (sub period w : Nat) : reachesRegister (memRead la s).2 la sub period w ↔
      reachesRegister s la sub period w := by simp only [reachesRegister, hregion, offsetAt_eq]
  have hcost := (memRead_costs s la).access la
  have hcounted (n : Nat) : counted (memRead la s).2 n = counted s n := counted_congr (memRead_costs s la).suppress n
  exact {
    toSameBook := ((memRead_keeps s la).trans (memWrite_keeps _ la v)).book
    cpu := by simp
    mem := fun k => by rw [memWrite_read, storedKey_congr (s := s) (by simp), memRead_mem]
    latch := by rw [memWrite_latch, hregion, offsetAt_eq, offsetAt_eq, hread.latch]
    clk := by
      rw [memWrite_clk, hcost.1, hcost.2, hcounted, hcounted, hread.clk]
      simp only [Nat.two_mul, counted_add, Nat.add_assoc]
    reload := by rw [memWrite_reload, hread.tmr, (ticks_reload_enabled _ _).1]; simp only [hreach]
    timerEnabled := by rw [memWrite_timerEnabled, hread.tmr, (ticks_reload_enabled _ _).2]; simp only [hreach]
    irqEnabled := by rw [memWrite_irqEnabled, hread.irq, ticks_irqEnabled]; simp only [hreach]
    pending := fun hnone => by
      rw [memWrite_pending _ _ _ (by simpa using hnone), hread.irq, ticks_pending _ _ hnone]
      simp only [hreach]
    time := fun henable hreload => by
      rw [memWrite_tmr _ _ _ (mt (hreach 3 2 0).1 hreload) (mt (hreach 3 2 1).1 henable), hcost.1, Nat.two_mul, ticks_add]
      exact ticks_tmr_congr _ (by simp [hread.clk]) hread.tmr }

/-- Settles O24: the frame of a store, with A at the form's address. -/
theorem staStoresTheAccumulator : Obligations.StaStoresTheAccumulator :=
  fun _ a s h => ⟨_, exec_sta s h, rfl, store_frame s a s.cpu.a⟩

/-- Settles O25: the frame of a store, with 0x00 at the form's address. -/
theorem stzStoresZero : Obligations.StzStoresZero := fun _ a s h => ⟨_, exec_stz s h, rfl, store_frame s a 0x00#8⟩

end Sys2Proof.Machine
end

section
/-! PROOFS. The stack and the subroutines (spec/40_execute_loop.md R124 to R126; spec/43_subroutine.md R165 to R168). -/

namespace Sys2Proof.Machine

/-- Settles O29: the model's definitions, with the register file of the state before. -/
theorem pushAndPopFollowTheStackDiscipline : Obligations.PushAndPopFollowTheStackDiscipline := by
  intro v s
  refine ⟨?_, rfl⟩
  simp only [push, memWrite_cpu]
  rfl

/-! ## JSR -/

theorem pushReturn_sameBook (w : Word) (s : State) : SameBook s (pushReturn w s) := (pushReturn_keeps s w).book

theorem pushReturn_latch (w : Word) (s : State) : (pushReturn w s).latch = s.latch := by
  rw [pushReturn_eq, (push_push s _ _).2.2.2.1]

/-- The byte of a return address that is pushed first (R165). -/
def firstReturnByte (o : PushOrder) (w : Word) : Byte := if o = .lowFirst then loByte w else hiByte w

/-- The byte of a return address that is pushed second (R165). -/
def secondReturnByte (o : PushOrder) (w : Word) : Byte := if o = .lowFirst then hiByte w else loByte w

theorem byte_sub_one_ne (x : Byte) : x ≠ x - 1#8 := by bv_omega

theorem pushReturn_read (w : Word) (s : State) (k : Nat) : (pushReturn w s).mem.read k =
    if storedKey s (stackAddr s.cpu.sp) = some k then firstReturnByte s.params.retPushOrder w
    else if storedKey s (stackAddr (s.cpu.sp - 1#8)) = some k then secondReturnByte s.params.retPushOrder w
    else s.mem.read k := by
  rw [pushReturn_eq, (push_push s _ _).2.1]
  by_cases hfirst : storedKey s (stackAddr s.cpu.sp) = some k
  · rw [if_pos hfirst, if_pos hfirst, if_neg (storedKey_stackAddr_ne s _ _ (byte_sub_one_ne _) k hfirst)]
    rfl
  · rw [if_neg hfirst, if_neg hfirst]
    rfl

/-- Settles O30: two pushes, each a write of one byte to the stack page. -/
theorem jsrPushesTheReturnAddress : Obligations.JsrPushesTheReturnAddress := by
  intro target s
  have helapsed := pushReturn_elapsed (s.cpu.pc - 1#16) s
  have hbook := pushReturn_sameBook (s.cpu.pc - 1#16) s
  refine ⟨_, exec_jsrAbs target s, ?_, pushReturn_read (s.cpu.pc - 1#16) s, ⟨helapsed.clk, helapsed.tmr, helapsed.irq⟩,
    pushReturn_latch _ s, ⟨hbook.fault, hbook.refused, hbook.pre, hbook.extraPre, hbook.params⟩⟩
  rw [setPC, State.setCpu_cpu, pushReturn_cpu]

/-! ## RTS -/

/-- The return address that two popped bytes make, in the reverse of the push order (R165). -/
def returnWord (o : PushOrder) (first second : Byte) : Word :=
  if o = .lowFirst then wordOf first second else wordOf second first

theorem popReturn_value (s : State) :
    (popReturn s).1 = returnWord s.params.retPushOrder (pop s).1 (pop (pop s).2).1 := by
  simp only [popReturn, returnWord]
  split <;> rename_i h <;> simp [h]

theorem returnWord_returnBytes (o : PushOrder) (w : Word) :
    returnWord o (secondReturnByte o w) (firstReturnByte o w) = w := by
  cases o <;> simp [returnWord, firstReturnByte, secondReturnByte]

/-- Settles O31: two pops, each the frame of a read. -/
theorem rtsPopsTheReturnAddress : Obligations.RtsPopsTheReturnAddress := by
  intro s
  refine ⟨_, exec_rts s, ?_, fun hstack => ?_, (popReturn_frame s).setCpu _⟩
  · rw [setPC, State.setCpu_cpu, popReturn_state, pop_pop_cpu, popReturn_value, returnWord]
  · have hregion (x : Byte) : regionAt s (stackAddr x) ≠ .controlPage := by
      rwa [regionAt_stackAddr s x s.cpu.sp]
    rw [pop_value s hstack, pop_pop_value s hstack, peek_eq_loadMem _ _ (hregion _), peek_eq_loadMem _ _ (hregion _)]
    exact ⟨rfl, rfl⟩

/-! ## The round trip -/

/-- What an RTS pops on a RAM stack that holds the two bytes of a return address. -/
theorem popReturn_of_read {s : State} (w : Word) (hram : regionAt s (stackAddr s.cpu.sp) = .ram)
    (hfirst : s.mem.read (ramKey (windowOffset (stackAddr (s.cpu.sp + 2#8)))) = firstReturnByte s.params.retPushOrder w)
    (hsecond : s.mem.read (ramKey (windowOffset (stackAddr (s.cpu.sp + 1#8)))) =
      secondReturnByte s.params.retPushOrder w) : (popReturn s).1 = w := by
  have hstack : regionAt s (stackAddr s.cpu.sp) ≠ .controlPage := by simp [hram]
  rw [popReturn_value, pop_value s hstack, pop_pop_value s hstack, loadMem_stackAddr_ram s hram,
    loadMem_stackAddr_ram s hram, hfirst, hsecond, returnWord_returnBytes]

/-- Settles O32: the RTS pops the two bytes that the JSR pushed. -/
theorem jsrThenRtsReturns : Obligations.JsrThenRtsReturns := by
  intro target s t u hexec hs hu hsp hparams hmem
  rw [exec_jsrAbs] at hexec
  cases hexec
  simp only [setPC, State.setCpu_cpu, State.setCpu_mem, State.setCpu_params, pushReturn_cpu,
    (pushReturn_sameBook _ s).params] at hsp hparams hmem
  have hsp1 : u.cpu.sp + 1#8 = s.cpu.sp - 1#8 := by rw [hsp]; bv_omega
  have hsp2 : u.cpu.sp + 2#8 = s.cpu.sp := by rw [hsp, BitVec.sub_add_cancel]
  have hkey1 := storedKey_stackAddr_ram s hs (s.cpu.sp - 1#8)
  have hkey2 := storedKey_stackAddr_ram s hs s.cpu.sp
  have hpop : (popReturn u).1 = s.cpu.pc - 1#16 := by
    refine popReturn_of_read _ hu ?_ ?_
    · rw [hsp2, hmem _ (.inl hkey2), pushReturn_read, if_pos hkey2, hparams]
    · rw [hsp1, hmem _ (.inr hkey1), pushReturn_read, if_pos hkey1, hparams,
        if_neg (storedKey_stackAddr_ne s _ _ (byte_sub_one_ne _).symm _ hkey1)]
  refine ⟨_, exec_rts u, ?_, ?_⟩
  · rw [hpop, BitVec.sub_add_cancel]
    rfl
  · rw [setPC, State.setCpu_cpu, popReturn_state, pop_pop_cpu, hsp2]

end Sys2Proof.Machine
end

section
/-! PROOFS. Block transfer (spec/44_block_transfer.md R175 to R178): TII's pushes, its copy and its pops, and the copy on
memory alone. -/

namespace Sys2Proof.Machine

/-- Settles O36: the length is looked at before any access. -/
theorem tiiRefusesZeroLength : Obligations.TiiRefusesZeroLength := fun src dst s => ⟨_, exec_tii_zero src dst s, rfl⟩

section Tii

variable (src dst len : Word) (s : State)

/-! ## The stack bytes -/

theorem pushYAX_read (k : Nat) : (pushYAX s).mem.read k =
    if storedKey s (stackAddr s.cpu.sp) = some k then s.cpu.y
    else if storedKey s (stackAddr (s.cpu.sp - 1#8)) = some k then s.cpu.a
    else if storedKey s (stackAddr (s.cpu.sp - 2#8)) = some k then s.cpu.x else s.mem.read k := by
  rw [pushYAX_eq, (push_push_push s _ _ _).2.1]

/-- The copy leaves a byte as the pushes left it, unless a destination address stores to it. -/
theorem tiiCopied_read_of_ne_dst {k : Nat} (h : ∀ j < len.toNat - 1, storedKey s (dst + BitVec.ofNat 16 j) ≠ some k) :
    (tiiCopied src dst len s).mem.read k = (pushYAX s).mem.read k :=
  copyBlock_read_other _ _ _ _ k fun j hj => by rw [storedKey_congr (s := s) (by simp)]; exact h j hj

/-- A byte is no stack byte of a TII (R177). -/
abbrev notStackByte (s : State) (k : Nat) : Prop :=
  ∀ d ∈ [0#8, 1#8, 2#8], storedKey s (stackAddr (s.cpu.sp - d)) ≠ some k

theorem tiiCopied_read_other {k : Nat} (hstack : notStackByte s k)
    (hdst : ∀ j < len.toNat - 1, storedKey s (dst + BitVec.ofNat 16 j) ≠ some k) :
    (tiiCopied src dst len s).mem.read k = s.mem.read k := by
  have hsp : storedKey s (stackAddr s.cpu.sp) ≠ some k := by simpa using hstack 0#8 (by simp)
  rw [tiiCopied_read_of_ne_dst _ _ _ _ hdst, pushYAX_read, if_neg hsp, if_neg (hstack 1#8 (by simp)),
    if_neg (hstack 2#8 (by simp))]

/-- The pops read the three stack addresses, where the stack page is off the control page. -/
theorem popXAY_tiiCopied (h : regionAt s (stackAddr s.cpu.sp) ≠ .controlPage) :
    (popXAY (tiiCopied src dst len s)).1 =
      (loadMem s (tiiCopied src dst len s).mem (stackAddr (s.cpu.sp - 2#8)),
        loadMem s (tiiCopied src dst len s).mem (stackAddr (s.cpu.sp - 1#8)),
        loadMem s (tiiCopied src dst len s).mem (stackAddr s.cpu.sp)) := by
  have hsp1 : s.cpu.sp - 3#8 + 1#8 = s.cpu.sp - 2#8 := by bv_omega
  have hsp2 : s.cpu.sp - 3#8 + 2#8 = s.cpu.sp - 1#8 := by bv_omega
  have hregion : regionAt (tiiCopied src dst len s) (stackAddr (tiiCopied src dst len s).cpu.sp) ≠ .controlPage := by
    rwa [regionAt_congr (s := s) (by simp), regionAt_stackAddr s _ s.cpu.sp]
  have hload := loadMem_congr (s := s) (t := tiiCopied src dst len s) (by simp)
  rw [popXAY_value _ hregion, hload, hload, hload, tiiCopied_cpu, hsp1, hsp2, BitVec.sub_add_cancel]

/-! ## The state that a TII leaves -/

/-- The state of a TII that completes. -/
def tiiDone : State := tiiReport (pushYAX s).clk.counter (tiiCopied src dst len s).clk.counter
  ((popXAY (tiiCopied src dst len s)).2.setCpu s.cpu)

theorem tiiDone_mem : (tiiDone src dst len s).mem = (tiiCopied src dst len s).mem :=
  (popXAY_frame (tiiCopied src dst len s)).2.1

theorem tiiDone_sameBook : SameBook s (tiiDone src dst len s) := by
  have hbook := ((tiiCopied_keeps src dst len s).trans (popXAY_keeps _)).book
  exact ⟨hbook.fault, hbook.refused, hbook.pre, hbook.extraPre, hbook.params⟩

theorem pushYAX_elapsed : Elapsed (3 * accessCost s (stackAddr s.cpu.sp)) (3 * waitCost s (stackAddr s.cpu.sp)) s
    (pushYAX s) := by
  rw [pushYAX_eq]
  exact (push_push_push s _ _ _).2.2.1

theorem pushYAX_latch : (pushYAX s).latch = s.latch := by rw [pushYAX_eq, (push_push_push s _ _ _).2.2.2.1]

/-- Only a destination on the control page changes a register of a device. -/
theorem tiiDone_devices (h : ∀ j < len.toNat - 1, regionAt s (dst + BitVec.ofNat 16 j) ≠ .controlPage) :
    (tiiDone src dst len s).latch = s.latch ∧ (tiiDone src dst len s).irq.enabled = s.irq.enabled ∧
    (tiiDone src dst len s).tmr.reload = s.tmr.reload ∧ (tiiDone src dst len s).tmr.enabled = s.tmr.enabled := by
  have hpush := pushYAX_elapsed s
  have hpop := (popXAY_frame (tiiCopied src dst len s)).2.2
  have hpopLatch : (tiiDone src dst len s).latch = (tiiCopied src dst len s).latch := hpop.latch
  have hpopIrq : (tiiDone src dst len s).irq = _ := hpop.irq
  have hpopTmr : (tiiDone src dst len s).tmr = _ := hpop.tmr
  obtain ⟨hlatch, hirq, hreload, henabled⟩ := copyBlock_devices (pushYAX s) (len.toNat - 1) src dst fun j hj => by
    rw [regionAt_congr (s := s) (by simp)]
    exact h j hj
  rw [hpopLatch, hpopIrq, hpopTmr, ticks_irqEnabled, (ticks_reload_enabled _ _).1, (ticks_reload_enabled _ _).2, tiiCopied,
    hlatch, hirq, hreload, henabled, pushYAX_latch, hpush.irq, hpush.tmr, ticks_irqEnabled, (ticks_reload_enabled _ _).1,
    (ticks_reload_enabled _ _).2]
  exact ⟨rfl, rfl, rfl, rfl⟩

/-! ## Completion on a RAM stack -/

/-- No destination address of a TII stores to one of its three stack bytes. -/
abbrev dstMissesStack : Prop := ∀ j < len.toNat - 1, ∀ d ∈ [0#8, 1#8, 2#8],
  storedKey s (dst + BitVec.ofNat 16 j) ≠ storedKey s (stackAddr (s.cpu.sp - d))

variable {src dst len s}

/-- On a RAM stack that the copy misses, the stack bytes hold Y, A and X after the copy. -/
theorem tiiCopied_stack (hram : regionAt s (stackAddr s.cpu.sp) = .ram) (hmiss : dstMissesStack dst len s) :
    (tiiCopied src dst len s).mem.read (ramKey (windowOffset (stackAddr s.cpu.sp))) = s.cpu.y ∧
    (tiiCopied src dst len s).mem.read (ramKey (windowOffset (stackAddr (s.cpu.sp - 1#8)))) = s.cpu.a ∧
    (tiiCopied src dst len s).mem.read (ramKey (windowOffset (stackAddr (s.cpu.sp - 2#8)))) = s.cpu.x := by
  have hkey (x : Byte) := storedKey_stackAddr_ram s hram x
  have hread (d : Byte) (hd : d ∈ [0#8, 1#8, 2#8]) :
      (tiiCopied src dst len s).mem.read (ramKey (windowOffset (stackAddr (s.cpu.sp - d)))) =
        (pushYAX s).mem.read (ramKey (windowOffset (stackAddr (s.cpu.sp - d)))) :=
    tiiCopied_read_of_ne_dst _ _ _ _ fun j hj => by rw [← hkey]; exact hmiss j hj d hd
  have hread0 := hread 0#8 (by simp)
  rw [BitVec.sub_zero] at hread0
  have hne01 : s.cpu.sp - 1#8 ≠ s.cpu.sp := (byte_sub_one_ne _).symm
  have hne02 : s.cpu.sp - 2#8 ≠ s.cpu.sp := by bv_omega
  have hne12 : s.cpu.sp - 2#8 ≠ s.cpu.sp - 1#8 := by bv_omega
  rw [hread0, hread 1#8 (by simp), hread 2#8 (by simp), pushYAX_read, pushYAX_read, pushYAX_read,
    if_pos (hkey _), if_neg (storedKey_stackAddr_ne s _ _ hne01 _ (hkey _)), if_pos (hkey _),
    if_neg (storedKey_stackAddr_ne s _ _ hne02 _ (hkey _)), if_neg (storedKey_stackAddr_ne s _ _ hne12 _ (hkey _)),
    if_pos (hkey _)]
  exact ⟨rfl, rfl, rfl⟩

theorem exec_tii_of_ram_stack (hlen : len ≠ 0#16) (hram : regionAt s (stackAddr s.cpu.sp) = .ram)
    (hmiss : dstMissesStack dst len s) : exec (.tii src dst len) s = .next (tiiDone src dst len s) := by
  obtain ⟨hy, ha, hx⟩ := tiiCopied_stack (src := src) hram hmiss
  refine exec_tii_completes hlen ?_
  rw [popXAY_tiiCopied _ _ _ _ (by simp [hram]), loadMem_stackAddr_ram s hram, loadMem_stackAddr_ram s hram,
    loadMem_stackAddr_ram s hram, hy, ha, hx]

end Tii

/-- Settles O33: on a RAM stack off the destination the pops give back what was pushed; on any stack they do, or the TII is
refused. -/
theorem tiiCompletesAndRestoresRegisters : Obligations.TiiCompletesAndRestoresRegisters := by
  refine ⟨fun src dst len s hlen hram hmiss => ?_, fun src dst len s hlen => ?_⟩
  · obtain ⟨hy, ha, hx⟩ := tiiCopied_stack (src := src) hram hmiss
    refine ⟨tiiDone src dst len s, exec_tii_of_ram_stack hlen hram hmiss, rfl, ?_, ?_, ?_, fun k hstack hdst => ?_,
      tiiDone_devices src dst len s, tiiDone_sameBook src dst len s⟩ <;> rw [tiiDone_mem]
    · exact hy
    · exact ha
    · exact hx
    · exact tiiCopied_read_other src dst len s hstack hdst
  · by_cases hpop : (popXAY (tiiCopied src dst len s)).1 = (s.cpu.x, s.cpu.a, s.cpu.y)
    · refine ⟨tiiDone src dst len s, .inl ⟨exec_tii_completes hlen hpop, rfl, tiiDone_sameBook src dst len s⟩,
        fun k hstack hdst => ?_⟩
      rw [tiiDone_mem, tiiCopied_read_other src dst len s hstack hdst]
    · refine ⟨_, .inr ⟨exec_tii_clobbered hlen hpop, rfl⟩, fun k hstack hdst => ?_⟩
      rw [State.setRefused_mem, (popXAY_frame _).2.1, tiiCopied_read_other src dst len s hstack hdst]

/-! ## The copy on memory alone -/

theorem pushYAX_mem (s : State) : (pushYAX s).mem = pushedMem s := by
  have hsp : s.cpu.sp - 1#8 - 1#8 = s.cpu.sp - 2#8 := by bv_omega
  have hpush (v : Byte) (t : State) (ht : t.cpu.mpr = s.cpu.mpr) :
      (push v t).mem = storeMem s t.mem (stackAddr t.cpu.sp) v := by rw [push_mem, storeMem_congr ht]
  rw [pushYAX_eq, hpush _ _ (by simp), hpush _ _ (by simp), hpush _ _ rfl]
  simp only [push_cpu, hsp, pushedMem]

/-- Off the control page TII's pushes and its copy are the copy on memory, and the ticks of its accesses. -/
theorem tiiCopied_pure {src dst len : Word} {s : State} (h : ∀ j < len.toNat - 1,
      regionAt s (src + BitVec.ofNat 16 j) ≠ .controlPage ∧ regionAt s (dst + BitVec.ofNat 16 j) ≠ .controlPage) :
    (tiiCopied src dst len s).mem = copyMem s (len.toNat - 1) src dst (pushedMem s) ∧
    Elapsed (2 * (len.toNat - 1) * accessTicks s.cpu.fast) 0 (pushYAX s) (tiiCopied src dst len s) := by
  have hregion (la : Word) : regionAt (pushYAX s) la = regionAt s la := regionAt_congr (by simp) la
  obtain ⟨hmem, helapsed, -⟩ := copyBlock_pure (pushYAX s) (len.toNat - 1) src dst fun j hj => by
    rw [hregion, hregion]
    exact h j hj
  rw [copyMem_congr (s := s) (by simp), pushYAX_mem] at hmem
  rw [pushYAX_cpu] at helapsed
  exact ⟨hmem, helapsed⟩

/-- Off the control page a TII that completes takes two accesses a byte copied and six for its pushes and pops. -/
theorem tiiDone_elapsed {src dst len : Word} {s : State} (hlen : len ≠ 0#16)
    (hstack : regionAt s (stackAddr s.cpu.sp) ≠ .controlPage)
    (h : ∀ j < len.toNat - 1,
      regionAt s (src + BitVec.ofNat 16 j) ≠ .controlPage ∧ regionAt s (dst + BitVec.ofNat 16 j) ≠ .controlPage) :
    Elapsed (2 * (len.toNat + 2) * accessTicks s.cpu.fast) 0 s (tiiDone src dst len s) := by
  have hcost : accessCost s (stackAddr s.cpu.sp) = accessTicks s.cpu.fast ∧ waitCost s (stackAddr s.cpu.sp) = 0 := by
    simp [accessCost, waitCost, hstack]
  have hpush := pushYAX_elapsed s
  have hpop := (popXAY_frame (tiiCopied src dst len s)).2.2.toElapsed
  have hpopCost := accessCost_congr (s := s) (t := tiiCopied src dst len s) (by simp) (by simp)
    (tiiCopied_keeps src dst len s).book.params (stackAddr (tiiCopied src dst len s).cpu.sp)
  have hpopStack := stackAddr_cost s (tiiCopied src dst len s).cpu.sp s.cpu.sp
  rw [hcost.1, hcost.2] at hpush
  rw [hpopCost.1, hpopCost.2, hpopStack.1, hpopStack.2, hcost.1, hcost.2] at hpop
  have hcopy := hpush.trans (pushYAX_keeps s).book.params (tiiCopied_pure h).2
  have hall := hcopy.trans (tiiCopied_keeps src dst len s).book.params hpop
  have hpos : 0 < len.toNat := by
    rw [Nat.pos_iff_ne_zero]
    exact fun hzero => hlen (BitVec.eq_of_toNat_eq hzero)
  obtain ⟨n, hn⟩ : ∃ n, len.toNat = n + 1 := ⟨len.toNat - 1, by omega⟩
  have hticks : 3 * accessTicks s.cpu.fast + 2 * (len.toNat - 1) * accessTicks s.cpu.fast + 3 * accessTicks s.cpu.fast =
      2 * (len.toNat + 2) * accessTicks s.cpu.fast := by
    rw [hn, Nat.add_sub_cancel]
    ring
  rw [hticks] at hall
  exact ⟨hall.clk, hall.tmr, hall.irq⟩

/-- Settles O34: off the control page the copy is the copy on memory, and the pops read what it left. -/
theorem tiiRefinesTheSequentialCopy : Obligations.TiiRefinesTheSequentialCopy := by
  intro src dst len s m hlen hstack hcopy hm
  have hmem : (tiiCopied src dst len s).mem = m := (tiiCopied_pure hcopy).1.trans hm.symm
  have hpops := popXAY_tiiCopied src dst len s hstack
  rw [hmem] at hpops
  refine ⟨fun ⟨hy, ha, hx⟩ => ?_, fun hne => ?_⟩
  · refine ⟨tiiDone src dst len s, exec_tii_completes hlen (by rw [hpops, hy, ha, hx]), rfl,
      (tiiDone_mem src dst len s).trans hmem, ?_, ?_, tiiDone_sameBook src dst len s⟩
    · exact (tiiDone_devices src dst len s fun j hj => (hcopy j hj).2).1
    · exact tiiDone_elapsed hlen hstack hcopy
  · refine ⟨_, exec_tii_clobbered hlen ?_, rfl, (popXAY_frame _).2.1.trans hmem⟩
    rw [hpops]
    intro heq
    obtain ⟨hx, hay⟩ := Prod.ext_iff.1 heq
    obtain ⟨ha, hy⟩ := Prod.ext_iff.1 hay
    exact hne ⟨hy, ha, hx⟩

/-! ## A copy without overlap -/

/-- A ROM byte never has the key of a RAM byte: its address lies below. -/
theorem mapAddress_lt_ramBase {s : State} {la : Word} (h : regionAt s la = .rom) :
    (mapAddress s.cpu.mpr la).toNat < ramBase := by
  have hbank : (s.cpu.mpr.get (windowOf la)).toNat ≤ 0x7F := by
    rw [regionAt_eq, regionOf] at h
    split_ifs at h with hb
    exact hb
  have hoff : la.toNat % 8192 < 8192 := Nat.mod_lt _ (by omega)
  rw [mapAddress_toNat, ramBase]
  omega

theorem storeMem_of_storedKey {s : State} {la : Word} {k : Nat} (h : storedKey s la = some k) (m : Memory) (v : Byte) :
    storeMem s m la v = m.write k v := by simp only [storeMem, h]

theorem storedKey_ge_ramBase {s : State} {la : Word} {k : Nat} (h : storedKey s la = some k) : ramBase ≤ k := by
  unfold storedKey at h
  split_ifs at h
  cases h
  exact Nat.le_add_right _ _

/-- A load sees no store to another key. -/
theorem loadMem_storeMem_of_ne {s : State} {a la : Word} (h : storedKey s a ≠ storedKey s la) (m : Memory) (v : Byte) :
    loadMem s (storeMem s m a v) la = loadMem s m la := by
  cases hkey : storedKey s a with
  | none => simp only [storeMem, hkey]
  | some k =>
    rw [storeMem_of_storedKey hkey, loadMem, loadMem]
    cases hregion : regionAt s la with
    | rom =>
      have hrom := mapAddress_lt_ramBase hregion
      have hram := storedKey_ge_ramBase hkey
      exact Memory.read_write_other m v (by omega)
    | ram =>
      refine Memory.read_write_other m v fun heq => h ?_
      rw [hkey, storedKey, if_pos hregion, heq]
    | openBus => rfl
    | controlPage => rfl

theorem loadMem_storeMem_same {s : State} {a : Word} (h : regionAt s a = .ram) (m : Memory) (v : Byte) :
    loadMem s (storeMem s m a v) a = v := by
  have hkey : storedKey s a = some (ramKey (offsetAt s a)) := if_pos h
  simp only [storeMem_of_storedKey hkey, loadMem, h, Memory.read_write_same]

theorem loadMem_copyMem_of_ne {s : State} (n : Nat) (src dst la : Word) (m : Memory)
    (h : ∀ j < n, storedKey s (dst + BitVec.ofNat 16 j) ≠ storedKey s la) :
    loadMem s (copyMem s n src dst m) la = loadMem s m la := by
  induction n generalizing src dst m with
  | zero => rfl
  | succ n ih =>
    have h0 : storedKey s dst ≠ storedKey s la := by simpa using h 0 (by omega)
    rw [copyMem, ih _ _ _ fun j hj => by rw [succ_add_ofNat]; exact h (j + 1) (by omega), loadMem_storeMem_of_ne h0]

/-- Where the destination is RAM, its bytes are distinct and none of them is a source byte, a copy copies each byte. -/
theorem loadMem_copyMem {s : State} (n : Nat) (src dst : Word) (m : Memory)
    (hram : ∀ j < n, regionAt s (dst + BitVec.ofNat 16 j) = .ram)
    (hsrc : ∀ j < n, ∀ k < n, storedKey s (src + BitVec.ofNat 16 j) ≠ storedKey s (dst + BitVec.ofNat 16 k))
    (hdst : ∀ j < n, ∀ k < n, j ≠ k → storedKey s (dst + BitVec.ofNat 16 j) ≠ storedKey s (dst + BitVec.ofNat 16 k)) :
    ∀ j < n, loadMem s (copyMem s n src dst m) (dst + BitVec.ofNat 16 j) = loadMem s m (src + BitVec.ofNat 16 j) := by
  induction n generalizing src dst m with
  | zero => exact fun j hj => absurd hj (by omega)
  | succ n ih =>
    rintro (_ | j) hj
    · have hlater : ∀ k < n, storedKey s (dst + 1#16 + BitVec.ofNat 16 k) ≠ storedKey s dst := fun k hk => by
        simpa [succ_add_ofNat] using hdst (k + 1) (by omega) 0 (by omega) (by omega)
      have hram0 : regionAt s dst = .ram := by simpa using hram 0 (by omega)
      change loadMem s _ (dst + 0#16) = loadMem s m (src + 0#16)
      rw [BitVec.add_zero, BitVec.add_zero, copyMem, loadMem_copyMem_of_ne _ _ _ _ _ hlater,
        loadMem_storeMem_same hram0]
    · have hfirst : storedKey s dst ≠ storedKey s (src + BitVec.ofNat 16 (j + 1)) := by
        simpa using (hsrc (j + 1) hj 0 (by omega)).symm
      have hrest := ih (src + 1#16) (dst + 1#16) (storeMem s m dst (loadMem s m src))
        (fun k hk => by rw [succ_add_ofNat]; exact hram (k + 1) (by omega))
        (fun k hk l hl => by rw [succ_add_ofNat, succ_add_ofNat]; exact hsrc (k + 1) (by omega) (l + 1) (by omega))
        (fun k hk l hl hne => by
          rw [succ_add_ofNat, succ_add_ofNat]
          exact hdst (k + 1) (by omega) (l + 1) (by omega) (by omega)) j (by omega)
      rw [succ_add_ofNat, succ_add_ofNat, loadMem_storeMem_of_ne hfirst] at hrest
      rw [copyMem, hrest]

/-- The pushes are seen by no load from another byte than the three stack bytes. -/
theorem loadMem_pushedMem {s : State} {la : Word}
    (h : ∀ d ∈ [0#8, 1#8, 2#8], storedKey s la ≠ storedKey s (stackAddr (s.cpu.sp - d))) :
    loadMem s (pushedMem s) la = loadMem s s.mem la := by
  have hsp : storedKey s (stackAddr s.cpu.sp) ≠ storedKey s la := by simpa using (h 0#8 (by simp)).symm
  rw [pushedMem, loadMem_storeMem_of_ne (h 2#8 (by simp)).symm, loadMem_storeMem_of_ne (h 1#8 (by simp)).symm,
    loadMem_storeMem_of_ne hsp]

/-- Settles O35: the copy on memory alone, without overlap. -/
theorem tiiCopiesLengthMinusOneBytes : Obligations.TiiCopiesLengthMinusOneBytes := by
  intro src dst len s hlen hstack hregions hmiss hoverlap
  have hdone := exec_tii_of_ram_stack (src := src) hlen hstack fun j hj d hd => (hmiss j hj d hd).1
  have hpure := (tiiCopied_pure (src := src) (dst := dst) (len := len) (s := s) fun j hj =>
    ⟨(hregions j hj).2, by simp [(hregions j hj).1]⟩).1
  refine ⟨tiiDone src dst len s, hdone, fun j hj => ?_, fun k hk hdst => ?_⟩
  · obtain ⟨hram, hsrc⟩ := hregions j hj
    have hmpr : (tiiDone src dst len s).cpu.mpr = s.cpu.mpr := rfl
    have hpage : regionAt (tiiDone src dst len s) (dst + BitVec.ofNat 16 j) ≠ .controlPage := by
      rw [regionAt_congr hmpr, hram]
      simp
    rw [peek_eq_loadMem _ _ hpage, peek_eq_loadMem _ _ hsrc, loadMem_congr hmpr, tiiDone_mem, hpure,
      loadMem_copyMem _ src dst _ (fun k hk => (hregions k hk).1) (fun k hk l hl => (hoverlap k hk l hl).1)
        (fun k hk l hl => (hoverlap k hk l hl).2) j hj,
      loadMem_pushedMem fun d hd => (hmiss j hj d hd).2]
  · rw [tiiDone_mem, tiiCopied_read_other src dst len s hk hdst]

end Sys2Proof.Machine
end

section
/-! PROOFS. The fetch (spec/40_execute_loop.md R111, R113 to R115; spec/60_exceptions.md R221): the bytes at PC off the control
page, and a byte without a row. -/

namespace Sys2Proof.Machine

variable {s t : State}

theorem beginInstr_sameBus (s : State) : SameBus s (beginInstr s) := ⟨rfl, rfl, rfl, rfl, rfl, rfl, rfl, rfl, rfl⟩

/-! ## The bytes at PC -/

/-- Off the control page a look depends on the MPRs and on memory only. -/
theorem peek_congr {la : Word} (hmpr : t.cpu.mpr = s.cpu.mpr) (hmem : t.mem = s.mem)
    (h : regionAt s la ≠ .controlPage) : peek la t = peek la s := by
  rw [peek_eq_loadMem _ _ h, peek_eq_loadMem _ _ (by rwa [regionAt_congr hmpr]), loadMem_congr hmpr, hmem]

/-- Fetches off the control page give the bytes at PC; they only pass their ticks, move PC and clear T. -/
theorem afterFetch_pure (row : Row)
    (h : ∀ k < row.mode.operandBytes + 1, regionAt s (s.cpu.pc + BitVec.ofNat 16 k) ≠ .controlPage) :
    (fetchByte s).1 = peek s.cpu.pc s ∧
    (fetchBytes row.mode.operandBytes (clearT (fetchByte s).2)).1 =
      (List.range row.mode.operandBytes).map (fun k => peek (s.cpu.pc + BitVec.ofNat 16 (k + 1)) s) ∧
    afterFetch s row = ticks ((row.mode.operandBytes + 1) * accessTicks s.cpu.fast) (s.setCpu { s.cpu with
      pc := s.cpu.pc + BitVec.ofNat 16 (row.mode.operandBytes + 1)
      p := { s.cpu.p with t := false } }) := by
  have hop := fetchByte_pure s (by simpa using h 0 (by omega))
  have hclear : clearT (fetchByte s).2 = (ticks (accessTicks s.cpu.fast) s).setCpu
      { s.cpu with pc := s.cpu.pc + 1#16, p := { s.cpu.p with t := false } } := by rw [hop]; rfl
  have hcpu : (clearT (fetchByte s).2).cpu = { s.cpu with pc := s.cpu.pc + 1#16, p := { s.cpu.p with t := false } } := by
    rw [hclear, State.setCpu_cpu]
  have hmpr : (clearT (fetchByte s).2).cpu.mpr = s.cpu.mpr := by rw [hcpu]
  have hmem : (clearT (fetchByte s).2).mem = s.mem := by rw [hclear, State.setCpu_mem, ticks_mem]
  have hpc (k : Nat) : (clearT (fetchByte s).2).cpu.pc + BitVec.ofNat 16 k = s.cpu.pc + BitVec.ofNat 16 (k + 1) := by
    rw [hcpu, succ_add_ofNat]
  have hargs := fetchBytes_pure (clearT (fetchByte s).2) row.mode.operandBytes fun k hk => by
    rw [hpc, regionAt_congr hmpr]
    exact h (k + 1) (by omega)
  refine ⟨by rw [hop], ?_, ?_⟩
  · rw [hargs]
    refine List.map_congr_left fun k hk => ?_
    rw [List.mem_range] at hk
    rw [hpc, peek_congr hmpr hmem (h (k + 1) (by omega))]
  · rw [afterFetch, hargs, hpc, hcpu, hclear, ticks_setCpu, ticks_setCpu, ← ticks_add, Nat.succ_mul,
      Nat.add_comm (accessTicks _)]
    rfl

/-- Where the encoding of an instruction stands at PC, its row is found, and the fetch gives the instruction. -/
theorem fetchInstr_of_bytes {i : Instr} (hwf : i.wellFormed s.params.opcodeSet = true)
    (h : ∀ k b, (encode i)[k]? = some b → regionAt s (s.cpu.pc + BitVec.ofNat 16 k) ≠ .controlPage ∧
      peek (s.cpu.pc + BitVec.ofNat 16 k) s = b) :
    ∃ row, lookup s.params.opcodeSet ((encode i).headD 0#8) = some row ∧
      fetchInstr s = .got row i (ticks ((encode i).length * accessTicks s.cpu.fast) (s.setCpu { s.cpu with
        pc := s.cpu.pc + BitVec.ofNat 16 (encode i).length
        p := { s.cpu.p with t := false } })) := by
  obtain ⟨op, args, row, henc, hall, hlen, hshown, hbuild⟩ := encode_row i
  obtain ⟨hdef, hop⟩ := lookup_eq_some_iff.1 hall
  have hmem : row ∈ opcodeTable := List.mem_of_mem_filter hdef
  have hrow : lookup s.params.opcodeSet op = some row := lookup_eq_some_iff.2 ⟨(mem_definedRows hmem hshown).2 hwf, hop⟩
  have hbyte (k : Nat) (hk : k < (encode i).length) := h k _ (List.getElem?_eq_getElem hk)
  have hlength : (encode i).length = row.mode.operandBytes + 1 := by rw [henc, List.length_cons, hlen]
  obtain ⟨hfirst, hrest, hafter⟩ := afterFetch_pure row fun k hk => (hbyte k (by omega)).1
  have hopcode : (fetchByte s).1 = op := by
    have h0 := (h 0 op (by rw [henc]; rfl)).2
    rwa [BitVec.add_zero, ← hfirst] at h0
  have hbytes : (fetchBytes row.mode.operandBytes (clearT (fetchByte s).2)).1 = args := by
    rw [hrest, ← hlen]
    refine List.ext_getElem (by simp) fun k hk hk' => ?_
    rw [List.getElem_map, List.getElem_range]
    exact (h (k + 1) _ (by rw [henc, List.getElem?_cons_succ, List.getElem?_eq_getElem hk'])).2
  refine ⟨row, by rw [henc]; exact hrow, ?_⟩
  rw [hlength, ← hafter]
  rcases fetchInstr_cases s with ⟨hnone, -⟩ | ⟨row', i', hrow', hbuild', hf⟩
  · rw [hopcode, hrow] at hnone
    cases hnone
  · rw [hopcode, hrow] at hrow'
    cases hrow'
    rw [hbytes, hbuild] at hbuild'
    cases hbuild'
    exact hf

/-- Settles O43: step 1 looks at no byte, so the bytes at PC are those that the fetch finds. -/
theorem stepRunsTheBytesAtPc : Obligations.StepRunsTheBytesAtPc := by
  intro s i hrun hdue hwf h
  have hcpu : (beginInstr (pollLines s)).cpu = { s.cpu with instrPC := s.cpu.pc } := by
    rw [beginInstr, State.setPre_cpu, State.setCpu_cpu, pollLines_cpu]
  have hmpr : (beginInstr (pollLines s)).cpu.mpr = s.cpu.mpr := by rw [hcpu]
  have hpc : (beginInstr (pollLines s)).cpu.pc = s.cpu.pc := by rw [hcpu]
  have hparams : (beginInstr (pollLines s)).params = s.params := pollLines_params s
  obtain ⟨row, hrow, hf⟩ := fetchInstr_of_bytes (s := beginInstr (pollLines s)) (i := i) (by rwa [hparams]) fun k b hb => by
    obtain ⟨hregion, hpeek⟩ := h k b hb
    rw [hpc, regionAt_congr hmpr, peek_congr hmpr (pollLines_mem s) hregion]
    exact ⟨hregion, hpeek⟩
  rw [hparams] at hrow
  refine ⟨row, hrow, ?_⟩
  rw [step_of_got hrun hdue hf, hcpu, beginInstr, pollLines_clk]
  rfl

/-! ## A byte without a row -/

theorem fetchInstr_of_lookup_none (h : lookup s.params.opcodeSet (fetchByte s).1 = none) :
    fetchInstr s = .unknown (raiseFault .unknownOpcode (.opcode (fetchByte s).1) (fetchByte s).2) := by
  rcases fetchInstr_cases s with ⟨-, hf⟩ | ⟨row, i, hrow, -, -⟩
  · exact hf
  · rw [h] at hrow
    cases hrow

/-- Settles O45: the fetch of the byte, and then the fault's record. -/
theorem unknownOpcodeFaultsAfterItsFetch : Obligations.UnknownOpcodeFaultsAfterItsFetch := by
  intro s b hrun hdue hb hnone
  set u := beginInstr (pollLines s) with hu
  have hcpu : u.cpu = { s.cpu with instrPC := s.cpu.pc } := by
    rw [hu, beginInstr, State.setPre_cpu, State.setCpu_cpu, pollLines_cpu]
  have hbyte : (fetchByte u).1 = b := by
    rw [hb, fetchByte, hcpu]
    exact ((beginInstr_sameBus _).memRead _).1
  have hf := fetchInstr_of_lookup_none (s := u) (by rw [hbyte]; exact (pollLines_params s).symm ▸ hnone)
  have hframe := fetchByte_frame u
  have hcost := accessCost_congr (s := s) (t := u) (by rw [hcpu]) (by rw [hcpu]) (pollLines_params s) s.cpu.pc
  rw [hcpu] at hframe
  rw [hcost.1, hcost.2] at hframe
  rw [hbyte] at hf
  set t := raiseFault .unknownOpcode (.opcode b) (fetchByte u).2 with ht
  have hinstrPC : (fetchByte u).2.cpu.instrPC = s.cpu.pc := by rw [fetchByte_cpu, hcpu]
  have hfault : t.fault = some ⟨.unknownOpcode, .opcode b, s.cpu.pc, t.clk.counter⟩ := by rw [← hinstrPC]; rfl
  have htime := (beginInstr_sameBus (pollLines s)).sameTime.ticks (accessCost s s.cpu.pc)
  obtain ⟨l, hl, -⟩ := access_emits u .read u.cpu.pc 0#8
  refine ⟨t, step_of_unknown hrun hdue hf, hfault, ?cpu, ⟨hframe.clk, hframe.tmr.trans htime.tmr, hframe.irq.trans htime.irq⟩,
    fun k => (hframe.mem k).trans ?mem, hframe.latch.trans (pollLines_latch s),
    hframe.refused.trans ((pollLines_refused s).trans hrun.2.2), hframe.params.trans (pollLines_params s), ⟨l, ?events⟩,
    stoppedMachineTakesNoStep t fun hrun' => ?stopped⟩
  case cpu =>
    change (fetchByte u).2.cpu = _
    rw [fetchByte_cpu, hcpu]
  case mem => exact congrArg (fun m => Memory.read m k) (pollLines_mem s)
  case events =>
    have hevents : t.events = .diag .unrecoverableFault (.fault ⟨.unknownOpcode, .opcode b,
        (fetchByte u).2.cpu.instrPC, t.clk.counter⟩) :: (l ++ u.events) := congrArg (List.cons _) hl
    rw [hevents, hinstrPC]
    exact congrArg (fun log => _ :: (l ++ log)) (pollLines_events s)
  case stopped =>
    have hnone := hrun'.2.1
    rw [hfault] at hnone
    cases hnone

end Sys2Proof.Machine
end

section
/-! PROOFS. Reset (spec/70_reset_and_hazards.md R270). -/

namespace Sys2Proof.Machine

/-- Inside a Suppress scope a read of ROM changes nothing. -/
theorem memRead_rom_suppressed {s : State} {la : Word} (hsupp : s.clk.suppress ≠ 0) (h : regionAt s la = .rom) :
    memRead la s = (s.mem.read (mapAddress s.cpu.mpr la).toNat, s) := by
  rw [memRead_rom h, ticks_suppressed _ hsupp]

/-- The word at the reset vector of a memory (R270). -/
def resetVector (m : Memory) : Word := wordOf (m.read 0x1FFF) (m.read 0x1FFE)

theorem fetchVector_suppressed {s : State} (hsupp : s.clk.suppress ≠ 0) (hm7 : s.cpu.mpr.m7 = 0#8) :
    fetchVector s = (resetVector s.mem, s) := by
  have hbank : s.cpu.mpr.get 7#3 = 0#8 := hm7
  have hlo : mapAddress s.cpu.mpr 0xFFFE#16 = 0x1FFE#21 := by
    rw [mapAddress, show windowOf 0xFFFE#16 = 7#3 from rfl, hbank]
    rfl
  have hhi : mapAddress s.cpu.mpr 0xFFFF#16 = 0x1FFF#21 := by
    rw [mapAddress, show windowOf 0xFFFF#16 = 7#3 from rfl, hbank]
    rfl
  have hromLo : regionAt s 0xFFFE#16 = .rom := by rw [regionAt, hlo]; rfl
  have hromHi : regionAt s 0xFFFF#16 = .rom := by rw [regionAt, hhi]; rfl
  simp only [fetchVector, memRead_rom_suppressed hsupp hromLo, memRead_rom_suppressed hsupp hromHi, hlo, hhi]
  rfl

/-- Reset sets the registers, and PC and InstrPC to the vector, which it reads without a trace. -/
theorem resetWith_eq (r : ResetParams) : resetWith r = (resetRegisters r).setCpu
    { (resetRegisters r).cpu with pc := resetVector r.mem, instrPC := resetVector r.mem } := by
  have hfetch := fetchVector_suppressed (s := (resetRegisters r).setClk { (resetRegisters r).clk with
    suppress := (resetRegisters r).clk.suppress + 1 }) (by simp) rfl
  simp only [resetWith, suppressed, hfetch]
  rfl

/-- Settles O52: the definition of Reset, whose vector is peeked at in memory and not accessed. -/
theorem resetReadsTheVectorWithoutTicks : Obligations.ResetReadsTheVectorWithoutTicks := by
  intro r
  rw [resetWith_eq]
  exact ⟨rfl, rfl, rfl, rfl, rfl, rfl, rfl, rfl, rfl, rfl⟩

/-- Settles O54: the memory and the timer are as given, and the rest is as R270 sets it. -/
theorem invariantHoldsAfterEveryReset : Obligations.InvariantHoldsAfterEveryReset := by
  intro r hwf hspace hreloadMin hreloadMax hcounter
  rw [resetWith_eq]
  exact {
    memWf := hwf
    memInSpace := hspace
    timer := ⟨hreloadMin, hreloadMax, hcounter, by simp [resetRegisters, Config.timerPrescale],
      by simp [resetRegisters, Config.timerQuantum]⟩
    extra := rfl
    suppress := rfl
    memoryFlag := rfl
    pending := fun _ => rfl
    running := ⟨rfl, rfl, rfl⟩ }

/-- Settles O53: no ROM is listed, so the vector reads 0xFFFF. -/
theorem invariantHoldsAtReset : Obligations.InvariantHoldsAtReset := by
  have hreset : State.reset = resetWith ResetParams.default := by
    rw [resetWith_eq]
    rfl
  refine ⟨hreset, ?_⟩
  rw [hreset]
  exact invariantHoldsAfterEveryReset _ ⟨List.Pairwise.nil, by decide⟩ (by decide) (by decide) (by decide) (by decide)

end Sys2Proof.Machine
end
